-- ==== Sys2Proof/Word.lean ====
section
/-!
DEFINITION. The words of CORE's interface: a 64-bit beat, and a limb carried in one.
-/

namespace Sys2Proof

/-- One 64-bit transfer of the command or response stream (R90). -/
abbrev Beat := BitVec 64

/-- One limb: a `W`-bit unsigned number (R16), carried zero-extended in 64 bits since `W ≤ 64` (R8, R92).
The limb width `W` is a parameter of the instance, so it is not in the type. -/
abbrev Limb := BitVec 64

/-- A limb vector, little-limb-first: element 0 is the least significant limb (R16, R72). -/
abbrev Limbs := List Limb

end Sys2Proof
end

