-- ==== Sys2Proof/Config.lean ====
section
/-!
DEFINITION. The parameters of a CORE instance (R8 to R14 of 00_scope.md) and those that stay uninterpreted.
-/

namespace Sys2Proof

/-- A function on the naturals given as plain data: the first row whose bound is not exceeded decides, and
`above` is the value past the last row. Any function can be written so on a bounded range, and both
functions of `cfg` (R13, R14) have one (DESIGN CHOICE, safe; log entry 2). -/
structure StepTable (α : Type) where
  rows  : List (Nat × α)
  above : α
  deriving DecidableEq, Repr

/-- The record `cfg` of R8 to R14, less `limbops`. Its legal values are said by `Machine.CfgLegal`. -/
structure Cfg where
  /-- R8: the limb width in bits. -/
  W        : Nat
  /-- R9: the largest modulus length in limbs. -/
  LMAX     : Nat
  /-- R10: the largest `room` of a BigNumber register, in limbs. -/
  RMAX     : Nat
  /-- R12: the size of the scratch memory in limbs. -/
  scrLimbs : Nat
  /-- R13: the largest window width the platform allows. -/
  WMAX     : Nat
  /-- R13: the window lookup table, keyed by exponent bit length. -/
  wtab     : StepTable Nat
  /-- R14: the kernel-set selector, a function of an engine's configured maximum bit size. -/
  ksel     : StepTable (BitVec 8)
  deriving DecidableEq, Repr

namespace Config

/-- The `Kernel` of R14. The spec leaves open which operations it takes in: R152 to R154 name the three Montgomery
kernels, R187 speaks of "limb-level multiply/square/select operations". DESIGN CHOICE: the masked select and the
lookup over `slots` slots are in it, with uninterpreted work; the passes of the adder/subtractor, which R56 counts
"outside a Montgomery kernel", are not, and have the limb steps R20 gives them (log entry 10). -/
inductive Kernel where
  | mul | sqr | red
  | sel (slots : Nat)
  deriving DecidableEq, Repr

/-- `cfg.limbops` of R14: the limb-level operations of one kernel invocation at modulus length `L`. R151 lets it
depend on the kernel set too, so the selector is its first argument. Uninterpreted, as R14 and D41 allow: nothing
in the model can learn a value of it (log entry 10). -/
opaque limbops : BitVec 8 → Kernel → Nat → Nat

/-- The limb-level operations of the schoolbook multiply of an `na`-limb by an `nb`-limb vector (R21). The spec gives
no number: uninterpreted, a function of the two lengths (log entry 10). -/
opaque mulLimbops : Nat → Nat → Nat

/-- The limb-level operations of the `rem` of an `na`-limb vector by an `nm`-limb one (R21). The spec gives no number:
uninterpreted, a function of the two lengths (log entry 10). -/
opaque remLimbops : Nat → Nat → Nat

/-- The default window table of R191. -/
def defaultWtab : StepTable Nat where
  rows  := [(41, 1), (178, 2), (717, 3), (2666, 4), (4096, 5)]
  above := 6

/-- The table that answers `k` whatever it is asked (the `const k` of 95_test_vectors.md). -/
def constTable {α : Type} (k : α) : StepTable α := ⟨[], k⟩

/-- The suggested instance *tiny* of 92_eei_decisions.md. Its kernel selector is DESIGN CHOICE 0 (log entry 1). -/
def tiny : Cfg where
  W        := 8
  LMAX     := 4
  RMAX     := 9
  scrLimbs := 64
  WMAX     := 6
  wtab     := defaultWtab
  ksel     := constTable 0

/-- The suggested instance *rsa2048* of 92_eei_decisions.md. -/
def rsa2048 : Cfg where
  W        := 32
  LMAX     := 64
  RMAX     := 129
  scrLimbs := 8192
  WMAX     := 6
  wtab     := defaultWtab
  ksel     := constTable 0

end Config

end Sys2Proof
end

