-- ==== Sys2Proof/Machine/Arith.lean ====
section
/-!
DEFINITION. Numbers, limb vectors and the datapath primitives of 00_scope.md (R13, R15 to R22), and the parameters' constraints.
-/

namespace Sys2Proof.Machine

/-! ### Sizes (R17, R18) -/

/-- `bitlen(x)`: 0 for 0, `floor(log2 x) + 1` otherwise (R18). -/
def bitlen (x : Nat) : Nat := if x = 0 then 0 else Nat.log2 x + 1

/-- `ceil(x / d)`. -/
def ceilDiv (x d : Nat) : Nat := (x + d - 1) / d

/-- `sig(x)`, the number of significant limbs: 1 for 0, `ceil(bitlen(x) / W)` otherwise (R17). -/
def sig (W x : Nat) : Nat := if x = 0 then 1 else ceilDiv (bitlen x) W

/-- `popcount(x)` on the low `n` bits: the number of one bits (R18). -/
def popcount (n x : Nat) : Nat := ((List.range n).filter fun i => x.testBit i).length

/-! ### Limb vectors (R16) -/

/-- The limb a beat or cell carries: its low `W` bits, the rest ignored (R92). -/
def limbVal (W : Nat) (x : Limb) : Nat := x.toNat % 2 ^ W

/-- `val(v) = Σ v[i]·2^(W·i)` (R16). -/
def limbsVal (W : Nat) : Limbs → Nat
  | [] => 0
  | x :: rest => limbVal W x + 2 ^ W * limbsVal W rest

/-- Limb `i` of the number `x`. -/
def limbAt (W x i : Nat) : Limb := BitVec.ofNat 64 (x / 2 ^ (W * i) % 2 ^ W)

/-- `limbs_n(x)`: the `n`-limb vector of the low `n` limbs of `x` (R16). -/
def limbsOf (W n x : Nat) : Limbs := (List.range n).map (limbAt W x)

/-! ### The adder/subtractor and its companions (R20, R21, R130) -/

/-- `add_n(a, b, cin)`: the `n`-limb sum and the carry out (R20). -/
def addN (W n : Nat) (a b : Limbs) (cin : Nat) : Limbs × Nat :=
  let t := limbsVal W a + limbsVal W b + cin
  (limbsOf W n (t % 2 ^ (W * n)), t / 2 ^ (W * n))

/-- `sub_n(a, b, bin)`: the `n`-limb difference and whether it borrows (R20). -/
def subN (W n : Nat) (a b : Limbs) (bin : Nat) : Limbs × Bool :=
  let t : Int := (limbsVal W a : Int) - limbsVal W b - bin
  (limbsOf W n (t % (2 ^ (W * n) : Nat)).toNat, decide (t < 0))

/-- `cmp_n(a, b)` by value (R21). -/
def cmpMag (a b : Nat) : Ordering := compare a b

/-- The schoolbook product `mul(a, b)`, of `na + nb` limbs (R21). -/
def mulLimbs (W : Nat) (a b : Limbs) : Limbs :=
  limbsOf W (a.length + b.length) (limbsVal W a * limbsVal W b)

/-- The signed sum as the adder/subtractor unit makes it from two signs and two magnitudes (R130): zero-extend to
the longer size; equal signs add and the carry becomes limb `n`; opposite signs compare, then subtract the smaller
from the larger and take the larger's sign. -/
def signedAdd (W : Nat) (na : Bool) (a : Nat) (nb : Bool) (b : Nat) : Int :=
  let n := max (sig W a) (sig W b)
  let va := limbsOf W n a
  let vb := limbsOf W n b
  if na = nb then
    let (sum, carry) := addN W n va vb 0
    let m : Int := limbsVal W sum + 2 ^ (W * n) * carry
    if na then -m else m
  else
    match cmpMag a b with
    | .lt => let m : Int := limbsVal W (subN W n vb va 0).1
             if nb then -m else m
    | _ => let m : Int := limbsVal W (subN W n va vb 0).1
           if na then -m else m

/-! ### Masked select (R22) -/

/-- `mask(c)`: `W` ones or zero (R22). -/
def maskW (W : Nat) (c : Bool) : Limb := if c then BitVec.ofNat 64 (2 ^ W - 1) else 0

/-- A limb vector ANDed with one mask word. -/
def maskLimbs (m : Limb) (v : Limbs) : Limbs := v.map (· &&& m)

/-- `ct_select(c, u, v)`: `(u[i] AND mask(c)) OR (v[i] AND NOT mask(c))`, limb by limb (R22). -/
def ctSelect (W : Nat) (c : Bool) (u v : Limbs) : Limbs :=
  List.zipWith (fun x y => (x &&& maskW W c) ||| (y &&& ~~~ maskW W c)) u v

/-! ### The window table (R13, R191, R192) -/

/-- The value of a step table. -/
def stepLookup {α : Type} (t : StepTable α) (n : Nat) : α :=
  match t.rows.find? (fun row => decide (n ≤ row.1)) with
  | some row => row.2
  | none => t.above

/-- `wsel(n) = max(1, min(wtab(n), WMAX))` (R13). -/
def wsel (c : Cfg) (n : Nat) : Nat := max 1 (min (stepLookup c.wtab n) c.WMAX)

/-- `need(EXP_WIN, modbits, expbits)` with the modulus length already in limbs: `2^wsel(expbits) · L` (R192). -/
def expWinNeed (c : Cfg) (L expbits : Nat) : Nat := 2 ^ wsel c expbits * L

/-- `MAXBITS = LMAX·W` (R9). -/
abbrev maxBits (c : Cfg) : Nat := c.LMAX * c.W

/-- The constraints of R8 to R13 on `cfg`. Outside them it is "not a CORE" (V13 of 93_implementation_defined.md;
log entry 11). -/
structure CfgLegal (c : Cfg) : Prop where
  W_legal   : c.W = 8 ∨ c.W = 16 ∨ c.W = 32 ∨ c.W = 64
  LMAX_pos  : 1 ≤ c.LMAX
  maxbits   : maxBits c ≤ 65535
  RMAX_low  : 2 * c.LMAX ≤ c.RMAX
  RMAX_high : c.RMAX ≤ 65535
  scr_high  : c.scrLimbs ≤ 65535
  wsel_high : ∀ n, wsel c n ≤ 15

end Sys2Proof.Machine
end

