-- ==== Sys2Proof/Syntax.lean ====
section
/-!
DEFINITION. The 25 commands of CORE (R96 of 30_encoding.md, spec/opcode_table.json), with their operands as R95 gives them.
-/

namespace Sys2Proof

/-- The index of a BigNumber register, `r0` to `r15` (R30, R91). -/
abbrev BnIdx := BitVec 4

/-- The index of an engine context, `e0` to `e3` (R40, R91). -/
abbrev EngIdx := BitVec 2

/-- The operation selector of `SCR_NEED` (R103, R229): `fn` 0 to 3. -/
inductive SizeSel where
  | expBin | expCt | expWin | crtRecomb
  deriving DecidableEq, Repr

/-- The opcodes of R96, one per command. -/
inductive Op where
  | nop | csrRd | csrWr | scrNeed
  | bnCreate | bnSet | bnGet | bnCopy | bnCmp | bnAdd | bnSub | bnMul | bnMod
  | meCreate | meInit | meGet | meEnc | meDec | meMul | meSqr | meRed
  | expBin | expCt | expWin
  | crtRecomb
  deriving DecidableEq, Repr

/-- A command: an opcode with its used fields (R95), and for `BN_SET` its payload beats (R94).
`csr` and `sel` keep every value of their fields, because a value outside their range is a command that
answers `IllegalCommand` (R99), not a word without a meaning. -/
inductive Instr where
  | nop
  | csrRd (csr : BitVec 8)
  | csrWr (csr : BitVec 8) (imm : BitVec 32)
  | scrNeed (sel : SizeSel) (modbits expbits : BitVec 16)
  | bnCreate (rd : BnIdx) (room : BitVec 16)
  | bnSet (rd : BnIdx) (neg sec : Bool) (payload : List Beat)
  | bnGet (ra : BnIdx)
  | bnCopy (rd ra : BnIdx)
  | bnCmp (ra rb : BnIdx)
  | bnAdd (rd ra rb : BnIdx)
  | bnSub (rd ra rb : BnIdx)
  | bnMul (rd ra rb : BnIdx)
  | bnMod (rd ra rb : BnIdx)
  | meCreate (ed : EngIdx) (maxbits : BitVec 16)
  | meInit (ed : EngIdx) (ra : BnIdx)
  | meGet (ed : EngIdx) (sel : BitVec 4)
  | meEnc (rd ra : BnIdx) (ed : EngIdx)
  | meDec (rd ra : BnIdx) (ed : EngIdx)
  | meMul (rd ra rb : BnIdx) (ed : EngIdx)
  | meSqr (rd ra : BnIdx) (ed : EngIdx)
  | meRed (rd ra : BnIdx) (ed : EngIdx)
  | expBin (rd ra rb : BnIdx) (ed : EngIdx)
  | expCt (rd ra rb : BnIdx) (ed : EngIdx)
  | expWin (rd ra rb : BnIdx) (ed : EngIdx) (sbase slen : BitVec 16)
  | crtRecomb (rd ra rb rc : BnIdx) (ed ee : EngIdx)
  deriving DecidableEq, Repr

/-- The opcode of a command. -/
def Instr.op : Instr → Op
  | .nop => .nop
  | .csrRd _ => .csrRd
  | .csrWr _ _ => .csrWr
  | .scrNeed _ _ _ => .scrNeed
  | .bnCreate _ _ => .bnCreate
  | .bnSet _ _ _ _ => .bnSet
  | .bnGet _ => .bnGet
  | .bnCopy _ _ => .bnCopy
  | .bnCmp _ _ => .bnCmp
  | .bnAdd _ _ _ => .bnAdd
  | .bnSub _ _ _ => .bnSub
  | .bnMul _ _ _ => .bnMul
  | .bnMod _ _ _ => .bnMod
  | .meCreate _ _ => .meCreate
  | .meInit _ _ => .meInit
  | .meGet _ _ => .meGet
  | .meEnc _ _ _ => .meEnc
  | .meDec _ _ _ => .meDec
  | .meMul _ _ _ _ => .meMul
  | .meSqr _ _ _ => .meSqr
  | .meRed _ _ _ => .meRed
  | .expBin _ _ _ _ => .expBin
  | .expCt _ _ _ _ => .expCt
  | .expWin _ _ _ _ _ _ => .expWin
  | .crtRecomb _ _ _ _ _ _ => .crtRecomb

/-- The payload beats of a command: only `BN_SET` has any (R94). -/
def Instr.payload : Instr → List Beat
  | .bnSet _ _ _ p => p
  | .nop => []
  | .csrRd _ => []
  | .csrWr _ _ => []
  | .scrNeed _ _ _ => []
  | .bnCreate _ _ => []
  | .bnGet _ => []
  | .bnCopy _ _ => []
  | .bnCmp _ _ => []
  | .bnAdd _ _ _ => []
  | .bnSub _ _ _ => []
  | .bnMul _ _ _ => []
  | .bnMod _ _ _ => []
  | .meCreate _ _ => []
  | .meInit _ _ => []
  | .meGet _ _ => []
  | .meEnc _ _ _ => []
  | .meDec _ _ _ => []
  | .meMul _ _ _ _ => []
  | .meSqr _ _ _ => []
  | .meRed _ _ _ => []
  | .expBin _ _ _ _ => []
  | .expCt _ _ _ _ => []
  | .expWin _ _ _ _ _ _ => []
  | .crtRecomb _ _ _ _ _ _ => []

end Sys2Proof
end

