-- ==== Sys2Proof/WellFormed.lean ====
section
/-!
DEFINITION. Which commands are well-formed: the selector checks a mask cannot express (R99, R54) and the length of a payload (R94).
-/

namespace Sys2Proof

/-- The defined control-register numbers, `0x00`–`0x09` and `0x10`–`0x15` (R58). -/
def csrDefined (csr : BitVec 8) : Bool :=
  csr.toNat ≤ 0x09 || (0x10 ≤ csr.toNat && csr.toNat ≤ 0x15)

/-- The writable control-register numbers, `0x09` and `0x10`–`0x15` (R58). -/
def csrWritable (csr : BitVec 8) : Bool :=
  csr.toNat == 0x09 || (0x10 ≤ csr.toNat && csr.toNat ≤ 0x15)

/-- A command whose selectors are legal and whose payload a 16-bit count can announce. Every other field
uses its whole range (R100, R103). -/
def Instr.wf : Instr → Bool
  | .csrRd csr => csrDefined csr
  | .csrWr csr _ => csrWritable csr
  | .meGet _ sel => sel.toNat ≤ 4
  | .bnSet _ _ _ payload => payload.length < 65536
  | .nop => true
  | .scrNeed _ _ _ => true
  | .bnCreate _ _ => true
  | .bnGet _ => true
  | .bnCopy _ _ => true
  | .bnCmp _ _ => true
  | .bnAdd _ _ _ => true
  | .bnSub _ _ _ => true
  | .bnMul _ _ _ => true
  | .bnMod _ _ _ => true
  | .meCreate _ _ => true
  | .meInit _ _ => true
  | .meEnc _ _ _ => true
  | .meDec _ _ _ => true
  | .meMul _ _ _ _ => true
  | .meSqr _ _ _ => true
  | .meRed _ _ _ => true
  | .expBin _ _ _ _ => true
  | .expCt _ _ _ _ => true
  | .expWin _ _ _ _ _ _ => true
  | .crtRecomb _ _ _ _ _ _ => true

/-- A command that has an encoding at all: its payload can be announced in `imm_lo` (R94). The selectors may be
any value of their fields. -/
def Instr.encodable (i : Instr) : Bool := i.payload.length < 65536

end Sys2Proof
end

