-- ==== Sys2Proof/Decode.lean ====
section
/-!
DEFINITION. Framing, decoding and encoding of commands (R91 to R99 of 30_encoding.md).
-/

namespace Sys2Proof

/-! ### The fields of a header beat (R91) -/

def hdrOp (h : Beat) : BitVec 8 := h.extractLsb' 56 8
def hdrRd (h : Beat) : BnIdx := h.extractLsb' 52 4
def hdrRa (h : Beat) : BnIdx := h.extractLsb' 48 4
def hdrRb (h : Beat) : BnIdx := h.extractLsb' 44 4
def hdrRc (h : Beat) : BnIdx := h.extractLsb' 40 4
def hdrEd (h : Beat) : EngIdx := h.extractLsb' 38 2
def hdrEe (h : Beat) : EngIdx := h.extractLsb' 36 2
def hdrFn (h : Beat) : BitVec 4 := h.extractLsb' 32 4
def hdrImmHi (h : Beat) : BitVec 16 := h.extractLsb' 16 16
def hdrImmLo (h : Beat) : BitVec 16 := h.extractLsb' 0 16
/-- Bits 55:48, the `rd` and `ra` positions together (R91). -/
def hdrCsr (h : Beat) : BitVec 8 := h.extractLsb' 48 8
/-- Bits 31:0, `imm_hi ‖ imm_lo` (R91). -/
def hdrImm (h : Beat) : BitVec 32 := h.extractLsb' 0 32

/-! ### The opcode map (R96) -/

/-- The `op` column of R96. -/
def Op.code : Op → BitVec 8
  | .nop => 0x00
  | .csrRd => 0x01
  | .csrWr => 0x02
  | .scrNeed => 0x03
  | .bnCreate => 0x10
  | .bnSet => 0x11
  | .bnGet => 0x12
  | .bnCopy => 0x13
  | .bnCmp => 0x14
  | .bnAdd => 0x15
  | .bnSub => 0x16
  | .bnMul => 0x17
  | .bnMod => 0x18
  | .meCreate => 0x20
  | .meInit => 0x21
  | .meGet => 0x22
  | .meEnc => 0x23
  | .meDec => 0x24
  | .meMul => 0x25
  | .meSqr => 0x26
  | .meRed => 0x27
  | .expBin => 0x30
  | .expCt => 0x31
  | .expWin => 0x32
  | .crtRecomb => 0x40

/-- The `mask` column of R96: a one at every bit that must equal `match`. -/
def Op.mask : Op → BitVec 64
  | .nop => 0xFFFFFFFFFFFFFFFF
  | .csrRd => 0xFF00FFFFFFFFFFFF
  | .csrWr => 0xFF00FFFF00000000
  | .scrNeed => 0xFFFFFFFC00000000
  | .bnCreate => 0xFF0FFFFFFFFF0000
  | .bnSet => 0xFF0FFFFCFFFF0000
  | .bnGet => 0xFFF0FFFFFFFFFFFF
  | .bnCopy => 0xFF00FFFFFFFFFFFF
  | .bnCmp => 0xFFF00FFFFFFFFFFF
  | .bnAdd => 0xFF000FFFFFFFFFFF
  | .bnSub => 0xFF000FFFFFFFFFFF
  | .bnMul => 0xFF000FFFFFFFFFFF
  | .bnMod => 0xFF000FFFFFFFFFFF
  | .meCreate => 0xFFFFFF3FFFFF0000
  | .meInit => 0xFFF0FF3FFFFFFFFF
  | .meGet => 0xFFFFFF30FFFFFFFF
  | .meEnc => 0xFF00FF3FFFFFFFFF
  | .meDec => 0xFF00FF3FFFFFFFFF
  | .meMul => 0xFF000F3FFFFFFFFF
  | .meSqr => 0xFF00FF3FFFFFFFFF
  | .meRed => 0xFF00FF3FFFFFFFFF
  | .expBin => 0xFF000F3FFFFFFFFF
  | .expCt => 0xFF000F3FFFFFFFFF
  | .expWin => 0xFF000F3F00000000
  | .crtRecomb => 0xFF00000FFFFFFFFF

/-- The `match` column of R96: the header with every used field zero. -/
def Op.pattern (o : Op) : BitVec 64 := o.code ++ 0#56

/-- Every opcode, in the order of R96. -/
def Op.all : List Op :=
  [.nop, .csrRd, .csrWr, .scrNeed,
   .bnCreate, .bnSet, .bnGet, .bnCopy, .bnCmp, .bnAdd, .bnSub, .bnMul, .bnMod,
   .meCreate, .meInit, .meGet, .meEnc, .meDec, .meMul, .meSqr, .meRed,
   .expBin, .expCt, .expWin, .crtRecomb]

/-- The opcode an `op` byte names, if any (R96, R98). -/
def Op.ofCode (c : BitVec 8) : Option Op := Op.all.find? fun o => o.code == c

/-- The selector of `SCR_NEED` in `fn[1:0]` (R103). -/
def SizeSel.ofBits (b : BitVec 2) : SizeSel :=
  match b.toNat with
  | 0 => .expBin
  | 1 => .expCt
  | 2 => .expWin
  | _ => .crtRecomb

/-- The `fn` value of a selector (R103). -/
def SizeSel.bits : SizeSel → BitVec 2
  | .expBin => 0
  | .expCt => 1
  | .expWin => 2
  | .crtRecomb => 3

/-! ### Decoding -/

/-- Why a header selects no command; both are `IllegalCommand` (R97, R98). -/
inductive DecodeError where
  | undefinedOpcode (op : BitVec 8)
  | reservedField (op : Op)
  deriving DecidableEq, Repr

/-- The command an opcode makes of its used fields (R95). -/
def Op.build (o : Op) (h : Beat) (payload : List Beat) : Instr :=
  match o with
  | .nop => .nop
  | .csrRd => .csrRd (hdrCsr h)
  | .csrWr => .csrWr (hdrCsr h) (hdrImm h)
  | .scrNeed => .scrNeed (SizeSel.ofBits ((hdrFn h).extractLsb' 0 2)) (hdrImmHi h) (hdrImmLo h)
  | .bnCreate => .bnCreate (hdrRd h) (hdrImmLo h)
  | .bnSet => .bnSet (hdrRd h) ((hdrFn h).getLsbD 0) ((hdrFn h).getLsbD 1) payload
  | .bnGet => .bnGet (hdrRa h)
  | .bnCopy => .bnCopy (hdrRd h) (hdrRa h)
  | .bnCmp => .bnCmp (hdrRa h) (hdrRb h)
  | .bnAdd => .bnAdd (hdrRd h) (hdrRa h) (hdrRb h)
  | .bnSub => .bnSub (hdrRd h) (hdrRa h) (hdrRb h)
  | .bnMul => .bnMul (hdrRd h) (hdrRa h) (hdrRb h)
  | .bnMod => .bnMod (hdrRd h) (hdrRa h) (hdrRb h)
  | .meCreate => .meCreate (hdrEd h) (hdrImmLo h)
  | .meInit => .meInit (hdrEd h) (hdrRa h)
  | .meGet => .meGet (hdrEd h) (hdrFn h)
  | .meEnc => .meEnc (hdrRd h) (hdrRa h) (hdrEd h)
  | .meDec => .meDec (hdrRd h) (hdrRa h) (hdrEd h)
  | .meMul => .meMul (hdrRd h) (hdrRa h) (hdrRb h) (hdrEd h)
  | .meSqr => .meSqr (hdrRd h) (hdrRa h) (hdrEd h)
  | .meRed => .meRed (hdrRd h) (hdrRa h) (hdrEd h)
  | .expBin => .expBin (hdrRd h) (hdrRa h) (hdrRb h) (hdrEd h)
  | .expCt => .expCt (hdrRd h) (hdrRa h) (hdrRb h) (hdrEd h)
  | .expWin => .expWin (hdrRd h) (hdrRa h) (hdrRb h) (hdrEd h) (hdrImmHi h) (hdrImmLo h)
  | .crtRecomb => .crtRecomb (hdrRd h) (hdrRa h) (hdrRb h) (hdrRc h) (hdrEd h) (hdrEe h)

/-- Decode a framed command. Total on any header and payload: a header `h` selects the command `o` iff
`h AND mask = match` (R96), and everything else is rejected by name (R97, R98). -/
def decode (h : Beat) (payload : List Beat) : Except DecodeError Instr :=
  match Op.ofCode (hdrOp h) with
  | none => .error (.undefinedOpcode (hdrOp h))
  | some o => if h &&& o.mask = o.pattern then .ok (o.build h payload) else .error (.reservedField o)

/-- How many payload beats follow a header. It is decided by bits 63:56 and 15:0 alone, before any check (R94). -/
def payloadCount (h : Beat) : Nat :=
  if hdrOp h = Op.code .bnSet then (hdrImmLo h).toNat else 0

/-- A whole command taken off the front of a stream. -/
structure Frame where
  header  : Beat
  payload : List Beat
  rest    : List Beat
  deriving DecidableEq, Repr

/-- Take the next whole command off a stream of beats, or nothing while one is not all there (R90, R94, R286). -/
def nextFrame : List Beat → Option Frame
  | [] => none
  | h :: more =>
    if payloadCount h ≤ more.length then
      some ⟨h, more.take (payloadCount h), more.drop (payloadCount h)⟩
    else none

/-! ### Encoding -/

/-- A header beat from its fields (R91). -/
def header (op : BitVec 8) (rd ra rb rc : BnIdx) (ed ee : EngIdx) (fn : BitVec 4) (hi lo : BitVec 16) : Beat :=
  op ++ rd ++ ra ++ rb ++ rc ++ ed ++ ee ++ fn ++ hi ++ lo

/-- The header of a command: its used fields, every other field zero (R95, R97). -/
def encodeHeader : Instr → Beat
  | .nop => header (Op.code .nop) 0 0 0 0 0 0 0 0 0
  | .csrRd csr => header (Op.code .csrRd) (csr.extractLsb' 4 4) (csr.extractLsb' 0 4) 0 0 0 0 0 0 0
  | .csrWr csr imm =>
      header (Op.code .csrWr) (csr.extractLsb' 4 4) (csr.extractLsb' 0 4) 0 0 0 0 0
        (imm.extractLsb' 16 16) (imm.extractLsb' 0 16)
  | .scrNeed sel modbits expbits => header (Op.code .scrNeed) 0 0 0 0 0 0 (0#2 ++ sel.bits) modbits expbits
  | .bnCreate rd room => header (Op.code .bnCreate) rd 0 0 0 0 0 0 0 room
  | .bnSet rd neg sec payload =>
      header (Op.code .bnSet) rd 0 0 0 0 0 (0#2 ++ BitVec.ofBool sec ++ BitVec.ofBool neg) 0
        (BitVec.ofNat 16 payload.length)
  | .bnGet ra => header (Op.code .bnGet) 0 ra 0 0 0 0 0 0 0
  | .bnCopy rd ra => header (Op.code .bnCopy) rd ra 0 0 0 0 0 0 0
  | .bnCmp ra rb => header (Op.code .bnCmp) 0 ra rb 0 0 0 0 0 0
  | .bnAdd rd ra rb => header (Op.code .bnAdd) rd ra rb 0 0 0 0 0 0
  | .bnSub rd ra rb => header (Op.code .bnSub) rd ra rb 0 0 0 0 0 0
  | .bnMul rd ra rb => header (Op.code .bnMul) rd ra rb 0 0 0 0 0 0
  | .bnMod rd ra rb => header (Op.code .bnMod) rd ra rb 0 0 0 0 0 0
  | .meCreate ed maxbits => header (Op.code .meCreate) 0 0 0 0 ed 0 0 0 maxbits
  | .meInit ed ra => header (Op.code .meInit) 0 ra 0 0 ed 0 0 0 0
  | .meGet ed sel => header (Op.code .meGet) 0 0 0 0 ed 0 sel 0 0
  | .meEnc rd ra ed => header (Op.code .meEnc) rd ra 0 0 ed 0 0 0 0
  | .meDec rd ra ed => header (Op.code .meDec) rd ra 0 0 ed 0 0 0 0
  | .meMul rd ra rb ed => header (Op.code .meMul) rd ra rb 0 ed 0 0 0 0
  | .meSqr rd ra ed => header (Op.code .meSqr) rd ra 0 0 ed 0 0 0 0
  | .meRed rd ra ed => header (Op.code .meRed) rd ra 0 0 ed 0 0 0 0
  | .expBin rd ra rb ed => header (Op.code .expBin) rd ra rb 0 ed 0 0 0 0
  | .expCt rd ra rb ed => header (Op.code .expCt) rd ra rb 0 ed 0 0 0 0
  | .expWin rd ra rb ed sbase slen => header (Op.code .expWin) rd ra rb 0 ed 0 0 sbase slen
  | .crtRecomb rd ra rb rc ed ee => header (Op.code .crtRecomb) rd ra rb rc ed ee 0 0 0

/-- The beats of a command: its header, then its payload (R90, R94). -/
def encode (i : Instr) : List Beat := encodeHeader i :: i.payload

/-! ### The host's table word -/

/-- The beats of the command whose bits are `w`, numbered as spec/opcode_table.json numbers them: the header is
bits 63:0 and payload beat `i` is the 64 bits above the beats before it. Bits at `nbits` and above are zero. -/
def tableBeats (nbits w : Nat) : List Beat :=
  let v := w % 2 ^ nbits
  let h : Beat := BitVec.ofNat 64 v
  h :: (List.range (payloadCount h)).map fun i => BitVec.ofNat 64 (v >>> (64 * (i + 1)))

/-- What the decoder reads from such a word. -/
def decodeTableWord (nbits w : Nat) : Option Instr :=
  match nextFrame (tableBeats nbits w) with
  | none => none
  | some f =>
    match decode f.header f.payload with
    | .ok i => some i
    | .error _ => none

end Sys2Proof
end

