-- ==== Sys2Proof/Machine/State.lean ====
section
/-!
DEFINITION. The state of a CORE instance (10_state.md, 20_memory.md), as plain data, and the state after reset.
-/

namespace Sys2Proof.Machine

/-! ### BigNumber registers (R30 to R36) -/

/-- The content of a `VALID` register (R31). `size` is not stored: it is `sig(mag)` (R31). -/
structure BigNum where
  /-- Capacity in limbs, fixed by `BN_CREATE` (R35). -/
  room : BitVec 16
  /-- Sign: `true` is negative. -/
  neg  : Bool
  /-- The secrecy attribute: `true` is secret (R34). -/
  sec  : Bool
  /-- The magnitude `val(limbs)`, as R31 writes it (log entry 7). -/
  mag  : Nat
  deriving DecidableEq, Repr

/-- A BigNumber register with its `tag` (R31). A register whose tag is `NONE` holds no value (R33), so the
constructor `none` carries none (log entry 4). -/
inductive BnReg where
  | none
  | valid (b : BigNum)
  deriving DecidableEq, Repr

/-! ### Engine contexts (R40 to R46) -/

/-- What `ME_CREATE` fixes (R41, R157). -/
structure EngineCfg where
  maxbits : BitVec 16
  ksel    : BitVec 8
  deriving DecidableEq, Repr

/-- What `ME_INIT` writes (R41, R158): the modulus and its derived constants. -/
structure Modulus where
  M       : Nat
  modbits : BitVec 16
  L       : BitVec 16
  R       : Nat
  RR      : Nat
  n0      : Nat
  deriving DecidableEq, Repr

/-- An engine context; the constructor is its `state` (R41). The fields `ME_INIT` writes are unspecified and
unobservable before it (R157, R272), so only `ready` carries them (log entry 4). -/
inductive Engine where
  | none
  | created (c : EngineCfg)
  | ready (c : EngineCfg) (m : Modulus)
  deriving DecidableEq, Repr

/-! ### Status codes, events, responses -/

/-- The status codes of R241. `insufficientEntropy` and `internalError` are never raised (R243). -/
inductive Status where
  | ok
  | contextMismatch
  | badArgument
  | outOfRange
  | sizeError
  | incompleteContext
  | insufficientEntropy
  | internalError
  | illegalCommand
  deriving DecidableEq, Repr

/-- A kernel event `ev` of `K(ev)` (R23). -/
inductive KEvent where
  | mul | sqr | red
  /-- A select or lookup over `slots` slots. -/
  | sel (slots : Nat)
  | add | sub | addm
  deriving DecidableEq, Repr

/-- One limb access to `SCR`, `MemRead(addr, 1)` or `MemWrite(addr, 1, v)` (R70), for the model's ghost record of
R187's "sequence of `SCR` addresses read and written" (log entry 8). -/
inductive ScrAccess where
  | read (addr : Nat)
  | write (addr : Nat)
  deriving DecidableEq, Repr

/-- One pass of limb-level work, by the lengths it runs over: what the model's ghost record of limb-level work lists, so
that "The limb-level work is a function of `LP` and `LQ` alone" (R213; R187 likewise) is about what a command does
(log entry 18). -/
inductive LimbOp where
  /-- A kernel invocation on an engine of kernel set `ksel` at modulus length `L` (R14). -/
  | kernel (ksel : BitVec 8) (k : Config.Kernel) (L : Nat)
  /-- An `add_n` or `sub_n` (R20). -/
  | adder (n : Nat)
  /-- A `cmp_n` (R21). -/
  | cmp (n : Nat)
  /-- A schoolbook multiply (R21). -/
  | mul (na nb : Nat)
  /-- A `rem` (R21). -/
  | rem (na nm : Nat)
  deriving DecidableEq, Repr

/-- The response to one command, as the triple R93 allows with the opcode it answers. -/
structure Response where
  status  : Status
  op      : BitVec 8
  val     : BitVec 64
  payload : Limbs
  deriving DecidableEq, Repr

/-- The six operation counters (R56), each counting modulo `2^64`. -/
structure Counters where
  cmd : BitVec 64
  mul : BitVec 64
  sqr : BitVec 64
  red : BitVec 64
  sel : BitVec 64
  add : BitVec 64
  deriving DecidableEq, Repr

/-! ### The scratch memory -/

/-- A memory of limbs by limb address, the smallest unit `SCR` has (R70, R72): pairs with rising addresses and
no entry equal to what an unlisted address reads as (log entry 5). -/
abbrev Memory := List (Nat × Limb)

/-! ### The state -/

/-- Everything the spec gives the machine, with the parameters of the instance and the two streams of R90. -/
structure State where
  /-- The parameters `cfg` (R8 to R14). No command writes them (log entry 1). -/
  cfg        : Cfg
  /-- `BN[0]` to `BN[15]` (R30). -/
  bn         : Vector BnReg 16
  /-- `ME[0]` to `ME[3]` (R40). -/
  me         : Vector Engine 4
  /-- `SCR` (R60, R70). -/
  scr        : Memory
  /-- `STATUS` (R52). -/
  status     : BitVec 64
  /-- `CNT_CMD` to `CNT_ADD` (R56). -/
  cnt        : Counters
  /-- The ghost leakage trace `TRACE` (R59), oldest event first. -/
  trace      : List KEvent
  /-- The model's ghost record of `SCR` accesses, oldest first (log entry 8). -/
  scrTrace   : List ScrAccess
  /-- The model's ghost record of limb-level work, oldest first (log entry 18). -/
  limbTrace  : List LimbOp
  /-- The command stream of R90: beats the host has sent and CORE has not consumed, next first (log entry 3). -/
  cmdStream  : List Beat
  /-- The response stream of R90: every response produced, oldest first (log entry 3). -/
  respStream : List Response
  deriving DecidableEq, Repr

/-- A step of CORE never ends in a fault: "the step function is total on (state, any 64-bit header, any payload of
the announced length)" (93_implementation_defined.md, part 2). Errors are status codes (R240), so no constructor is
needed (log entry 17). -/
inductive Fault : Type
  deriving DecidableEq, Repr

/-- Why an instruction has no meaning. -/
inductive Refusal where
  /-- Raised by an arm of `exec` whose instruction is not modelled yet; no arm is left so. Safe: the run stops. -/
  | notModelled (mnemonic : String)
  deriving DecidableEq, Repr

/-- The six counters at zero (R274). -/
def Counters.zero : Counters := ⟨0, 0, 0, 0, 0, 0⟩

/-- The state after a hardware reset of an instance with parameters `c` (R271 to R274), nothing sent and nothing
answered. -/
def State.resetWith (c : Cfg) : State where
  cfg        := c
  bn         := Vector.replicate 16 .none
  me         := Vector.replicate 4 .none
  scr        := []
  status     := 0
  cnt        := Counters.zero
  trace      := []
  scrTrace   := []
  limbTrace  := []
  cmdStream  := []
  respStream := []

/-- The state after reset, for the suggested instance *tiny* (DESIGN CHOICE, unsafe for claims that rest on the
parameters' values; log entry 1). -/
def State.reset : State := State.resetWith Config.tiny

end Sys2Proof.Machine
end

