-- ==== Sys2Proof/Machine/Kernels.lean ====
section
/-!
DEFINITION. The Montgomery kernels by value (R152 to R156) and the constants of a modulus (R41, R158); what limb-level work costs.
-/

namespace Sys2Proof.Machine

/-- The inverse of an odd `a` modulo `2^k`, found one bit at a time: the bit is set when the product is not yet 1
modulo the next power (log entry 9). -/
def invPow2 (a : Nat) : Nat → Nat
  | 0 => 0
  | k + 1 =>
    let x := invPow2 a k
    if a * x % 2 ^ (k + 1) = 1 then x else x + 2 ^ k

/-- `n0 = (−(M mod 2^W)^(−1)) mod 2^W` (R41, R158). -/
def montN0 (W M : Nat) : Nat := (2 ^ W - invPow2 (M % 2 ^ W) W) % 2 ^ W

/-- The constants `ME_INIT` computes for a modulus (R158). -/
def modulusOf (W M : Nat) : Modulus :=
  let R := 2 ^ (sig W M * W) % M
  { M       := M
    modbits := BitVec.ofNat 16 (bitlen M)
    L       := BitVec.ofNat 16 (sig W M)
    R       := R
    RR      := R * R % M
    n0      := montN0 W M }

/-- `Rinv`, the inverse of `2^(L·W)` modulo the odd `M`: the inverse of 2 is `(M+1)/2`, so it is that to the power
`L·W`; for `M = 1` it is 0 (41_montgomery.md, opening; log entry 9). -/
def rInv (W : Nat) (m : Modulus) : Nat := ((m.M + 1) / 2) ^ (m.L.toNat * W) % m.M

/-- `MontMul(e, a, b) = (a · b · Rinv) mod M` (R152). -/
def montMul (W : Nat) (m : Modulus) (a b : Nat) : Nat := a * b * rInv W m % m.M

/-- `MontSqr(e, a) = (a · a · Rinv) mod M` (R153). -/
def montSqr (W : Nat) (m : Modulus) (a : Nat) : Nat := a * a * rInv W m % m.M

/-- `MontRed(e, T) = (T · Rinv) mod M` (R154). -/
def montRed (W : Nat) (m : Modulus) (T : Nat) : Nat := T * rInv W m % m.M

/-- `Enc(e, x) = MontMul(e, x, RR)` (R155). -/
def enc (W : Nat) (m : Modulus) (x : Nat) : Nat := montMul W m x m.RR

/-- `Dec(e, x) = MontRed(e, x)` (R156). -/
def dec (W : Nat) (m : Modulus) (x : Nat) : Nat := montRed W m x

/-- The bound of `ME_RED`'s operand, `M · 2^(L·W)` (R150). -/
def redBound (W : Nat) (m : Modulus) : Nat := m.M * 2 ^ (m.L.toNat * W)

/-! ### Limb-level work (R14, R20, R21, R187, R213) -/

/-- The kernel a kernel event invokes; none for a pass of the adder/subtractor, which runs outside the kernels (R56). -/
def KEvent.kernel : KEvent → Option Config.Kernel
  | .mul => some .mul
  | .sqr => some .sqr
  | .red => some .red
  | .sel slots => some (.sel slots)
  | .add => none
  | .sub => none
  | .addm => none

/-- The limb-level passes of the kernel invocations among `evs`, at modulus length `L` on kernel set `ksel`. -/
def kernelPasses (ksel : BitVec 8) (L : Nat) (evs : List KEvent) : List LimbOp :=
  evs.filterMap fun ev => ev.kernel.map fun k => .kernel ksel k L

/-- The limb-level operations of one pass: `cfg.limbops` for a kernel (R14), `n` limb steps for an adder pass (R20), all
`n` limbs for a compare (R21), an uninterpreted function of the lengths for the multiply and `rem` (log entry 10). -/
def LimbOp.cost : LimbOp → Nat
  | .kernel ksel k L => Config.limbops ksel k L
  | .adder n => n
  | .cmp n => n
  | .mul na nb => Config.mulLimbops na nb
  | .rem na nm => Config.remLimbops na nm

/-- The limb-level work of a list of passes: the sum of their operations. -/
def limbWork (passes : List LimbOp) : Nat := (passes.map LimbOp.cost).sum

end Sys2Proof.Machine
end

