-- ==== Sys2Proof/Machine/Flags.lean ====
section
/-!
DEFINITION. Condition values. CORE has no flags (R49); what stands for them is the `STATUS` word (R52) and the response value of `BN_CMP` (R125).
-/

namespace Sys2Proof.Machine

/-- The numbers of R241. -/
def Status.code : Status → BitVec 8
  | .ok => 0
  | .contextMismatch => 1
  | .badArgument => 2
  | .outOfRange => 3
  | .sizeError => 4
  | .incompleteContext => 5
  | .insufficientEntropy => 6
  | .internalError => 7
  | .illegalCommand => 8

/-- The `STATUS` word after a command with opcode byte `op` ends with status `st`: code in 7:0, opcode in 15:8,
63:16 zero (R52). -/
def statusWord (op : BitVec 8) (st : Status) : BitVec 64 := 0#48 ++ op ++ st.code

/-- The value `BN_CMP` responds with: 0 equal, 1 greater, all ones less (R125). -/
def cmpVal : Ordering → BitVec 64
  | .eq => 0
  | .gt => 1
  | .lt => 0xFFFFFFFFFFFFFFFF

end Sys2Proof.Machine
end

