-- ==== Sys2Proof/Machine/Ops.lean ====
section
/-!
DEFINITION. The shared operations over registers, engines, scratch memory, counters and the response stream, and how a command ends (R19, R23, R70, R240, R244).
-/

namespace Sys2Proof.Machine

/-- What one step answers. -/
abbrev Outcome := Host.Outcome State Fault Refusal

/-! ### BigNumber registers (R19) -/

/-- The signed value of a BigNumber: `−mag` when `neg` else `mag` (R19). -/
def BigNum.value (b : BigNum) : Int := if b.neg then -(b.mag : Int) else b.mag

/-- Its `size`, `sig(mag)` (R31). -/
abbrev BigNum.size (W : Nat) (b : BigNum) : Nat := sig W b.mag

/-- Its limb vector `limbs[0..room−1]` (R31). -/
def BigNum.limbs (W : Nat) (b : BigNum) : Limbs := limbsOf W b.room.toNat b.mag

/-- Read register `r` (R30). -/
def State.bnAt (s : State) (r : BnIdx) : BnReg := s.bn[r.toNat]'r.isLt

/-- Replace register `r` whole (`BN_CREATE`, R121). -/
def State.setBn (s : State) (r : BnIdx) (x : BnReg) : State := { s with bn := s.bn.set r.toNat x r.isLt }

/-- A BigNumber given a new value and secrecy, `room` kept; zero is stored positive (R19, R32). -/
def BigNum.put (b : BigNum) (v : Int) (sec : Bool) : BigNum :=
  { room := b.room, neg := decide (v < 0), sec := sec, mag := v.natAbs }

/-- `BN[r] <- (v, sec)`: tag and `room` unchanged (R19). A `NONE` register is left alone; no command gets that far
with one (R33). -/
def State.writeBn (s : State) (r : BnIdx) (v : Int) (sec : Bool) : State :=
  match s.bnAt r with
  | .none => s
  | .valid b => s.setBn r (.valid (b.put v sec))

/-! ### Engine contexts -/

/-- Read engine `k` (R40). -/
def State.meAt (s : State) (k : EngIdx) : Engine := s.me[k.toNat]'k.isLt

/-- Replace engine `k` (`ME_CREATE`, `ME_INIT`; R41). -/
def State.setMe (s : State) (k : EngIdx) (x : Engine) : State := { s with me := s.me.set k.toNat x k.isLt }

/-- The `state` field's number: NONE 0, CREATED 1, READY 2 (R41). -/
def Engine.stateCode : Engine → BitVec 2
  | .none => 0
  | .created _ => 1
  | .ready _ _ => 2

/-! ### The scratch memory (R70) -/

/-- What an unlisted limb reads as: zero (DESIGN CHOICE, unsafe; the spec: any value, V3; log entry 5). -/
def Memory.blank : Limb := 0

/-- `MemRead(a, 1)` (R70). -/
def Memory.read (m : Memory) (a : Nat) : Limb :=
  match m with
  | [] => Memory.blank
  | (k, v) :: rest => if a = k then v else Memory.read rest a

/-- `MemWrite(a, 1, v)` (R70), keeping the canonical form: sorted, and the value an unlisted limb reads as is not
listed. -/
def Memory.write (m : Memory) (a : Nat) (v : Limb) : Memory :=
  match m with
  | [] => if v = Memory.blank then [] else [(a, v)]
  | (k, u) :: rest =>
    if a < k then (if v = Memory.blank then (k, u) :: rest else (a, v) :: (k, u) :: rest)
    else if a = k then (if v = Memory.blank then rest else (a, v) :: rest)
    else (k, u) :: Memory.write rest a v

/-- Addresses strictly rising from above `lo`, and no entry blank. -/
def Memory.wfFrom : Option Nat → Memory → Bool
  | _, [] => true
  | lo, (k, v) :: rest =>
    (match lo with | none => true | some l => decide (l < k)) && decide (v ≠ Memory.blank)
      && Memory.wfFrom (some k) rest

/-- The canonical form of a memory. -/
def Memory.wf (m : Memory) : Bool := Memory.wfFrom none m

/-- Several writes in order. -/
def Memory.writeAll (m : Memory) (ws : List (Nat × Limb)) : Memory :=
  ws.foldl (fun m w => Memory.write m w.1 w.2) m

/-! ### Kernel events and counters (R23, R56) -/

/-- Add one event to the counter it belongs to (R56). -/
def Counters.addEvent (c : Counters) : KEvent → Counters
  | .mul => { c with mul := c.mul + 1 }
  | .sqr => { c with sqr := c.sqr + 1 }
  | .red => { c with red := c.red + 1 }
  | .sel _ => { c with sel := c.sel + 1 }
  | .add => { c with add := c.add + 1 }
  | .sub => { c with add := c.add + 1 }
  | .addm => { c with add := c.add + 1 }

/-- Add a list of events, each to its counter. -/
def Counters.addEvents (c : Counters) (evs : List KEvent) : Counters := evs.foldl Counters.addEvent c

/-- Work performed: `K(ev)` for each event in order, appended to `TRACE` and counted (R23), and the limb-level passes
that make it up, recorded (log entry 18). -/
def State.kernel (s : State) (evs : List KEvent) (passes : List LimbOp) : State :=
  { s with
    trace := s.trace ++ evs
    cnt := s.cnt.addEvents evs
    limbTrace := s.limbTrace ++ passes }

/-- `ME[k].ksel` (R41). An engine that was never constructed has none; no kernel runs on one (R150, R180, R210). -/
def State.kselAt (s : State) (k : EngIdx) : BitVec 8 :=
  match s.meAt k with
  | .none => 0
  | .created c => c.ksel
  | .ready c _ => c.ksel

/-- `CNT_CMD += 1` (R56). -/
def State.countCmd (s : State) : State := { s with cnt := { s.cnt with cmd := s.cnt.cmd + 1 } }

/-- Leave `SCR` with content `m` and its accesses recorded. -/
def State.scrDone (s : State) (m : Memory) (accesses : List ScrAccess) : State :=
  { s with scr := m, scrTrace := s.scrTrace ++ accesses }

/-! ### How a command ends (R93, R240, R244) -/

/-- The beats of a response: header, value, payload (R93). -/
def Response.beats (W : Nat) (r : Response) : List Beat :=
  (r.status.code ++ r.op ++ 0#32 ++ BitVec.ofNat 16 r.payload.length) :: r.val ::
    r.payload.map fun x => BitVec.ofNat 64 (limbVal W x)

/-- Complete a command: one response, and `STATUS` (R52, R93). -/
def State.complete (s : State) (op : BitVec 8) (st : Status) (val : BitVec 64) (payload : Limbs) : State :=
  { s with
    status := statusWord op st
    respStream := s.respStream ++ [{ status := st, op := op, val := val, payload := payload }] }

/-- Taking an exception, CORE's way (R244): the response carries the code with `val = 0` and no payload, `STATUS`
records it, and nothing else changes. There is no handler, no saved state and no return from it (R247): the next
command runs from the state left here. -/
def State.raise (s : State) (op : BitVec 8) (st : Status) : State := s.complete op st 0 []

/-- What the body of a command comes to: `raise <Status>`, or `respond(val, payload)` from the state it has made
(R19, R240). -/
inductive CmdResult where
  | error (st : Status)
  | respond (s : State) (val : BitVec 64) (payload : Limbs)
  deriving DecidableEq, Repr

/-- End a command of the BigNumber, Montgomery, exponentiation or CRT family: success counts in `CNT_CMD` (R56). -/
def finishCounted (o : Op) (s : State) : CmdResult → Outcome
  | .error st => .next (s.raise o.code st)
  | .respond s' val payload => .next (s'.countCmd.complete o.code .ok val payload)

/-- End a command of the system family: it adds nothing to any counter (R56). -/
def finishSystem (o : Op) (s : State) : CmdResult → Outcome
  | .error st => .next (s.raise o.code st)
  | .respond s' val payload => .next (s'.complete o.code .ok val payload)

/-- Soft reset (R228, R275): every piece of state in its reset value for the same parameters. What `SCR` then holds
is unspecified and a reset "does not clear `SCR`" (R273), so it is kept (DESIGN CHOICE; log entry 6). The two
streams are the interface, not state of CORE (log entry 3). -/
def State.softReset (s : State) : State :=
  { State.resetWith s.cfg with
    scr := s.scr
    cmdStream := s.cmdStream
    respStream := s.respStream }

end Sys2Proof.Machine
end

