-- ==== Sys2Proof/Machine/Operands.lean ====
section
/-!
DEFINITION. Operand forms: control-register numbers (R50 to R58), register and engine operands with their checks in the order of R245 (R120, R150, R180, R210).
-/

namespace Sys2Proof.Machine

/-! ### Control registers -/

/-- The control registers by name (R50 to R56). -/
inductive Csr where
  | id | cfgW | cfgLmax | cfgRmax | cfgScr | cfgWmax | cfgNbn | cfgNeng | status | ctrl
  | cntCmd | cntMul | cntSqr | cntRed | cntSel | cntAdd
  deriving DecidableEq, Repr

/-- The map of R58; every other number is undefined (R54, R55). -/
def Csr.ofNum (n : BitVec 8) : Option Csr :=
  match n.toNat with
  | 0x00 => some .id
  | 0x01 => some .cfgW
  | 0x02 => some .cfgLmax
  | 0x03 => some .cfgRmax
  | 0x04 => some .cfgScr
  | 0x05 => some .cfgWmax
  | 0x06 => some .cfgNbn
  | 0x07 => some .cfgNeng
  | 0x08 => some .status
  | 0x09 => some .ctrl
  | 0x10 => some .cntCmd
  | 0x11 => some .cntMul
  | 0x12 => some .cntSqr
  | 0x13 => some .cntRed
  | 0x14 => some .cntSel
  | 0x15 => some .cntAdd
  | _ => none

/-- Read a control register: 64 bits, parameters zero-extended (R50 to R56). -/
def State.readCsr (s : State) : Csr → BitVec 64
  | .id => 0x0000000000130007
  | .cfgW => BitVec.ofNat 64 s.cfg.W
  | .cfgLmax => BitVec.ofNat 64 s.cfg.LMAX
  | .cfgRmax => BitVec.ofNat 64 s.cfg.RMAX
  | .cfgScr => BitVec.ofNat 64 s.cfg.scrLimbs
  | .cfgWmax => BitVec.ofNat 64 s.cfg.WMAX
  | .cfgNbn => 16
  | .cfgNeng => 4
  | .status => s.status
  | .ctrl => 0
  | .cntCmd => s.cnt.cmd
  | .cntMul => s.cnt.mul
  | .cntSqr => s.cnt.sqr
  | .cntRed => s.cnt.red
  | .cntSel => s.cnt.sel
  | .cntAdd => s.cnt.add

/-- Write a control register: the new state, or none for a read-only one (R53, R54, R57, R227). -/
def State.writeCsr (s : State) (c : Csr) (imm : BitVec 32) : Option State :=
  match c with
  | .id => none
  | .cfgW => none
  | .cfgLmax => none
  | .cfgRmax => none
  | .cfgScr => none
  | .cfgWmax => none
  | .cfgNbn => none
  | .cfgNeng => none
  | .status => none
  | .ctrl => some (if imm.getLsbD 0 then s.softReset else s)
  | .cntCmd => some { s with cnt := { s.cnt with cmd := imm.setWidth 64 } }
  | .cntMul => some { s with cnt := { s.cnt with mul := imm.setWidth 64 } }
  | .cntSqr => some { s with cnt := { s.cnt with sqr := imm.setWidth 64 } }
  | .cntRed => some { s with cnt := { s.cnt with red := imm.setWidth 64 } }
  | .cntSel => some { s with cnt := { s.cnt with sel := imm.setWidth 64 } }
  | .cntAdd => some { s with cnt := { s.cnt with add := imm.setWidth 64 } }

/-! ### Register operands of the BigNumber family (R120) -/

/-- A source register alone. -/
def withA (s : State) (ra : BnIdx) (k : BigNum → CmdResult) : CmdResult :=
  match s.bnAt ra with
  | .valid a => k a
  | .none => .error .contextMismatch

/-- A destination register and one source. -/
def withDA (s : State) (rd ra : BnIdx) (k : BigNum → BigNum → CmdResult) : CmdResult :=
  match s.bnAt rd, s.bnAt ra with
  | .valid d, .valid a => k d a
  | .none, _ => .error .contextMismatch
  | .valid _, .none => .error .contextMismatch

/-- A destination register and two sources. -/
def withDAB (s : State) (rd ra rb : BnIdx) (k : BigNum → BigNum → BigNum → CmdResult) : CmdResult :=
  withDA s rd ra fun d a =>
    match s.bnAt rb with
    | .valid b => k d a b
    | .none => .error .contextMismatch

/-! ### Engine operands (R150, R180, R210) -/

/-- An engine that must be `READY`: `NONE` is `ContextMismatch`, `CREATED` is `IncompleteContext` (R42). -/
def withReady (s : State) (ed : EngIdx) (k : Modulus → CmdResult) : CmdResult :=
  match s.meAt ed with
  | .none => .error .contextMismatch
  | .created _ => .error .incompleteContext
  | .ready _ m => k m

/-- Two engines that must be `READY`; `ContextMismatch` for either comes before `IncompleteContext` for the other
(R210, check 1 before check 2). -/
def withReady2 (s : State) (ed ee : EngIdx) (k : Modulus → Modulus → CmdResult) : CmdResult :=
  match s.meAt ed, s.meAt ee with
  | .none, _ => .error .contextMismatch
  | .created _, .none => .error .contextMismatch
  | .ready _ _, .none => .error .contextMismatch
  | .created _, .created _ => .error .incompleteContext
  | .created _, .ready _ _ => .error .incompleteContext
  | .ready _ _, .created _ => .error .incompleteContext
  | .ready _ p, .ready _ q => k p q

/-- `neg = 0 and mag < bound` (R150, check 4). -/
def BigNum.inRange (b : BigNum) (bound : Nat) : Bool := !b.neg && decide (b.mag < bound)

/-- The checks of R150 for one source with its bound, then the command. -/
def withMont (s : State) (rd ra : BnIdx) (ed : EngIdx) (bound : Modulus → Nat)
    (k : BigNum → Modulus → CmdResult) : CmdResult :=
  withDA s rd ra fun d a =>
    withReady s ed fun m =>
      if !a.inRange (bound m) then .error .outOfRange
      else if d.room.toNat < m.L.toNat then .error .sizeError
      else k a m

/-- The checks of R150 for two sources below `M`, then the command. -/
def withMont2 (s : State) (rd ra rb : BnIdx) (ed : EngIdx)
    (k : BigNum → BigNum → Modulus → CmdResult) : CmdResult :=
  withDAB s rd ra rb fun d a b =>
    withReady s ed fun m =>
      if !(a.inRange m.M && b.inRange m.M) then .error .outOfRange
      else if d.room.toNat < m.L.toNat then .error .sizeError
      else k a b m

/-- The checks of R180 in order: contexts, engine, the command's own `BadArgument` test on the exponent, the base's
range, the destination's room, and the command's own window test; then the command. -/
def withExp (s : State) (rd ra rb : BnIdx) (ed : EngIdx) (badExponent : BigNum → Bool)
    (badWindow : BigNum → Modulus → Bool) (k : BigNum → BigNum → Modulus → CmdResult) : CmdResult :=
  withDAB s rd ra rb fun d a b =>
    withReady s ed fun m =>
      if badExponent b then .error .badArgument
      else if !a.inRange m.M then .error .outOfRange
      else if d.room.toNat < m.L.toNat then .error .sizeError
      else if badWindow b m then .error .sizeError
      else k a b m

/-- The checks of R210 in order, then the command. -/
def withCrt (s : State) (rd ra rb rc : BnIdx) (ed ee : EngIdx)
    (k : BigNum → BigNum → BigNum → Modulus → Modulus → CmdResult) : CmdResult :=
  withDAB s rd ra rb fun d a b =>
    withA s rc fun c =>
      withReady2 s ed ee fun p q =>
        if !(a.inRange p.M && b.inRange q.M && c.inRange p.M) then .error .outOfRange
        else if d.room.toNat < p.L.toNat + q.L.toNat then .error .sizeError
        else k a b c p q

end Sys2Proof.Machine
end

