-- ==== Sys2Proof/Machine/BigNumber.lean ====
section
/-!
DEFINITION. The BigNumber commands (R120 to R132 of 40_bignum.md).
-/

namespace Sys2Proof.Machine

/-- `BN_CREATE rd, #room` (R121). -/
def execBnCreate (rd : BnIdx) (room : BitVec 16) (s : State) : Outcome :=
  finishCounted .bnCreate s <|
    if room.toNat = 0 ∨ s.cfg.RMAX < room.toNat then .error .badArgument
    else .respond (s.setBn rd (.valid { room := room, neg := false, sec := false, mag := 0 })) 0 []

/-- `BN_SET rd, {l0 …}` with `.N` and `.S` (R122). The width is measured after dropping leading zero limbs. -/
def execBnSet (rd : BnIdx) (neg sec : Bool) (payload : List Beat) (s : State) : Outcome :=
  finishCounted .bnSet s <|
    withA s rd fun d =>
      let x := limbsVal s.cfg.W payload
      if d.room.toNat < sig s.cfg.W x then .error .sizeError
      else .respond (s.writeBn rd (if neg then -(x : Int) else x) sec) 0 []

/-- The value `BN_GET` responds with: `(neg << 63) | (sec << 62) | (room << 16) | size`, bits 61:32 zero (R123). -/
def bnGetVal (W : Nat) (b : BigNum) : BitVec 64 :=
  BitVec.ofBool b.neg ++ BitVec.ofBool b.sec ++ 0#30 ++ b.room ++ BitVec.ofNat 16 (b.size W)

/-- `BN_GET ra` (R123): `size` limbs, little-limb-first. -/
def execBnGet (ra : BnIdx) (s : State) : Outcome :=
  finishCounted .bnGet s <|
    withA s ra fun a => .respond s (bnGetVal s.cfg.W a) (limbsOf s.cfg.W (a.size s.cfg.W) a.mag)

/-- `BN_COPY rd, ra` (R124). -/
def execBnCopy (rd ra : BnIdx) (s : State) : Outcome :=
  finishCounted .bnCopy s <|
    withDA s rd ra fun d a =>
      if d.room.toNat < a.size s.cfg.W then .error .sizeError
      else .respond (s.writeBn rd a.value a.sec) 0 []

/-- The length both magnitudes are zero-extended to, `max(size_a, size_b)` (R125, R130). -/
def commonSize (W : Nat) (a b : BigNum) : Nat := max (a.size W) (b.size W)

/-- `BN_CMP ra, rb` (R125): magnitudes only, by one `cmp_n`, which is no kernel event. -/
def execBnCmp (ra rb : BnIdx) (s : State) : Outcome :=
  finishCounted .bnCmp s <|
    withDA s ra rb fun a b =>
      .respond (s.kernel [] [.cmp (commonSize s.cfg.W a b)]) (cmpVal (cmpMag a.mag b.mag)) []

/-- The limb-level passes of a signed sum (R130): equal signs add magnitudes, opposite signs compare, then subtract. For
`BN_SUB` the second sign is the opposite of `rb`'s (DEDUCED; log entry 18). -/
def addPasses (W : Nat) (a b : BigNum) (opposite : Bool) : List LimbOp :=
  if opposite then [.cmp (commonSize W a b), .adder (commonSize W a b)] else [.adder (commonSize W a b)]

/-- The exact sum or difference into a register, with the room check and one `ADD` event (R126, R127). -/
def addInto (s : State) (rd : BnIdx) (d : BigNum) (passes : List LimbOp) (v : Int) (sec : Bool) : CmdResult :=
  if d.room.toNat < sig s.cfg.W v.natAbs then .error .sizeError
  else .respond ((s.kernel [.add] passes).writeBn rd v sec) 0 []

/-- `BN_ADD rd, ra, rb` (R126). -/
def execBnAdd (rd ra rb : BnIdx) (s : State) : Outcome :=
  finishCounted .bnAdd s <|
    withDAB s rd ra rb fun d a b =>
      addInto s rd d (addPasses s.cfg.W a b (a.neg != b.neg)) (a.value + b.value) (a.sec || b.sec)

/-- `BN_SUB rd, ra, rb` (R127). -/
def execBnSub (rd ra rb : BnIdx) (s : State) : Outcome :=
  finishCounted .bnSub s <|
    withDAB s rd ra rb fun d a b =>
      addInto s rd d (addPasses s.cfg.W a b (a.neg == b.neg)) (a.value - b.value) (a.sec || b.sec)

/-- `BN_MUL rd, ra, rb` (R128): the room check is on `size_a + size_b`. -/
def execBnMul (rd ra rb : BnIdx) (s : State) : Outcome :=
  finishCounted .bnMul s <|
    withDAB s rd ra rb fun d a b =>
      if d.room.toNat < a.size s.cfg.W + b.size s.cfg.W then .error .sizeError
      else
        .respond
          ((s.kernel [] [.mul (a.size s.cfg.W) (b.size s.cfg.W)]).writeBn rd (a.value * b.value) (a.sec || b.sec)) 0 []

/-- `BN_MOD rd, ra, rb` (R129): floor modulus; the room check is on the modulus's size. -/
def execBnMod (rd ra rb : BnIdx) (s : State) : Outcome :=
  finishCounted .bnMod s <|
    withDAB s rd ra rb fun d a b =>
      if b.mag = 0 then .error .badArgument
      else if b.neg then .error .outOfRange
      else if d.room.toNat < b.size s.cfg.W then .error .sizeError
      else
        .respond
          ((s.kernel [] [.rem (a.size s.cfg.W) (b.size s.cfg.W)]).writeBn rd (a.value % (b.mag : Int))
            (a.sec || b.sec)) 0 []

end Sys2Proof.Machine
end

