-- ==== Sys2Proof/Machine/Crt.lean ====
section
/-!
DEFINITION. The CRT recombination command (R210 to R215 of 43_crt.md).
-/

namespace Sys2Proof.Machine

/-- `h = (xp − xq) mod P` by the constant-time subtract, then conditional add-back of `P` (R211). -/
def crtDiff (W : Nat) (p : Modulus) (xp xq : Nat) : Nat :=
  let LP := p.L.toNat
  let t := xq % p.M
  let db := subN W LP (limbsOf W LP xp) (limbsOf W LP t) 0
  limbsVal W (addN W LP db.1 (maskLimbs (maskW W db.2) (limbsOf W LP p.M)) 0).1

/-- `y = xq + (h · qInv mod P) · Q`, the two kernels on the engine of `P` (R211). -/
def crtValue (W : Nat) (p q : Modulus) (xp xq qInv : Nat) : Nat :=
  let hR := enc W p (crtDiff W p xp xq)
  let h2 := montMul W p hR qInv
  xq + h2 * q.M

/-- The trace of every legal input: `SUB ADDM MUL MUL ADD` (R211). -/
def crtEvents : List KEvent := [.sub, .addm, .mul, .mul, .add]

/-- The limb-level passes of R211's pseudocode, line by line: `xq mod P`, `sub_LP`, `add_LP`, the two kernels on the
engine of `P`, the "schoolbook multiply of LP by LQ limbs", and the last add. DEDUCED: `xq` is taken as `LQ` limbs
and the last add as long as the product, so that the work is a function of the lengths alone (R213; log entry 18). -/
def crtPasses (ksel : BitVec 8) (LP LQ : Nat) : List LimbOp :=
  [.rem LQ LP, .adder LP, .adder LP, .kernel ksel .mul LP, .kernel ksel .mul LP, .mul LP LQ, .adder (LP + LQ)]

/-- `CRT_RECOMB rd, ra, rb, rc, ed, ee` (R211). -/
def execCrtRecomb (rd ra rb rc : BnIdx) (ed ee : EngIdx) (s : State) : Outcome :=
  finishCounted .crtRecomb s <|
    withCrt s rd ra rb rc ed ee fun a b c p q =>
      .respond
        ((s.kernel crtEvents (crtPasses (s.kselAt ed) p.L.toNat q.L.toNat)).writeBn rd (crtValue s.cfg.W p q a.mag b.mag c.mag)
          (a.sec || b.sec || c.sec)) 0 []

end Sys2Proof.Machine
end

