-- ==== Sys2Proof/Machine/Exponentiation.lean ====
section
/-!
DEFINITION. The exponentiation commands (R180 to R196 of 42_exponentiation.md), loop by loop as their pseudocode has them.
-/

namespace Sys2Proof.Machine

/-! ### The running datapath of one command (R61: not kept between commands) -/

/-- The accumulator, the events performed, the scratch memory and its accesses so far. -/
structure Run where
  acc      : Nat
  events   : List KEvent
  mem      : Memory
  accesses : List ScrAccess
  deriving DecidableEq, Repr

/-- `acc <- MontSqr(e, acc)` with `K(SQR)`. -/
def Run.sqr (W : Nat) (m : Modulus) (r : Run) : Run :=
  { r with acc := montSqr W m r.acc, events := r.events ++ [.sqr] }

/-- `acc <- MontMul(e, acc, t)` with `K(MUL)`. -/
def Run.mul (W : Nat) (m : Modulus) (t : Nat) (r : Run) : Run :=
  { r with acc := montMul W m r.acc t, events := r.events ++ [.mul] }

/-- `MontRed(e, acc)` with `K(RED)`. -/
def Run.red (W : Nat) (m : Modulus) (r : Run) : Run :=
  { r with acc := montRed W m r.acc, events := r.events ++ [.red] }

/-- Other events performed. -/
def Run.perform (evs : List KEvent) (r : Run) : Run := { r with events := r.events ++ evs }

/-- `f` done `n` times. -/
def Run.times (f : Run → Run) : Nat → Run → Run
  | 0, r => r
  | n + 1, r => Run.times f n (f r)

/-- `xR <- Enc(e, X)` with `K(MUL)`, then `acc <- R`, on the scratch memory as it stands. -/
def Run.start (m : Modulus) (mem : Memory) : Run := { acc := m.R, events := [.mul], mem := mem, accesses := [] }

/-- The bits of `E` from bit `n−1` down to bit 0. -/
def bitsDown (n E : Nat) : List Bool := (List.range n).reverse.map fun i => E.testBit i

/-! ### EXP_BIN (R183) -/

/-- One bit of the binary method: a square, and a multiply whenever the bit is 1. -/
def expBinBit (W : Nat) (m : Modulus) (xR : Nat) (r : Run) (b : Bool) : Run :=
  if b then (r.sqr W m).mul W m xR else r.sqr W m

/-- The whole of R183 after the checks and special cases. -/
def expBinRun (W : Nat) (m : Modulus) (mem : Memory) (X E : Nat) : Run :=
  let xR := enc W m X
  ((bitsDown (bitlen E) E).foldl (expBinBit W m xR) (Run.start m mem)).red W m

/-! ### EXP_CT (R184) -/

/-- One bit of the constant-time method: a square, a masked select between `R` and the base, a multiply. -/
def expCtBit (W : Nat) (m : Modulus) (xR : Nat) (r : Run) (b : Bool) : Run :=
  let t := limbsVal W (ctSelect W b (limbsOf W m.L.toNat xR) (limbsOf W m.L.toNat m.R))
  (((r.sqr W m).perform [.sel 2])).mul W m t

/-- The whole of R184 after the checks and special cases. -/
def expCtRun (W : Nat) (m : Modulus) (mem : Memory) (X E : Nat) : Run :=
  let xR := enc W m X
  ((bitsDown (bitlen E) E).foldl (expCtBit W m xR) (Run.start m mem)).red W m

/-! ### EXP_WIN (R185, R190 to R195) -/

/-- The next `n` powers after `prev`: `T[k] <- MontMul(e, T[k−1], xR)`. -/
def powersAfter (W : Nat) (m : Modulus) (xR : Nat) : Nat → Nat → List Nat
  | 0, _ => []
  | n + 1, prev => montMul W m prev xR :: powersAfter W m xR n (montMul W m prev xR)

/-- `T[0] <- R; T[1] <- xR; …` of `2^w` entries (R185). -/
def powerTable (W : Nat) (m : Modulus) (xR w : Nat) : List Nat :=
  m.R :: xR :: powersAfter W m xR (2 ^ w - 2) xR

/-- Where limb `j` of table entry `k` stands: `sbase + j·2^w + k` (R193, R232). -/
def tableAddr (sbase w k j : Nat) : Nat := sbase + j * 2 ^ w + k

/-- `for k, j: MemWrite(sbase + j·2^w + k, 1, T[k][j])` (R185; the order within the pair is log entry 8). -/
def tableWrites (W L sbase w : Nat) (T : List Nat) : List (Nat × Limb) :=
  (List.range (2 ^ w)).flatMap fun k =>
    (List.range L).map fun j => (tableAddr sbase w k j, limbAt W (T.getD k 0) j)

/-- `for a from sbase to sbase + need − 1: MemWrite(a, 1, 0)` (R195). -/
def wipeWrites (sbase need : Nat) : List (Nat × Limb) := (List.range need).map fun i => (sbase + i, 0)

/-- Perform writes on the scratch memory, recording them. -/
def Run.writeMem (ws : List (Nat × Limb)) (r : Run) : Run :=
  { r with mem := Memory.writeAll r.mem ws, accesses := r.accesses ++ ws.map fun x => .write x.1 }

/-- Limb `j` of the oblivious lookup of slot `k`: the OR over all slots of the slot's limb AND its mask
(R22, R194). -/
def lookupLimb (W : Nat) (mem : Memory) (sbase w k j : Nat) : Limb :=
  (List.range (2 ^ w)).foldl
    (fun acc s => acc ||| (Memory.read mem (tableAddr sbase w s j) &&& maskW W (decide (s = k)))) 0

/-- `lookup(k)` as a number (R194). -/
def lookupVal (W L : Nat) (mem : Memory) (sbase w k : Nat) : Nat :=
  limbsVal W ((List.range L).map (lookupLimb W mem sbase w k))

/-- The reads of one lookup: every address of the table in ascending order, whatever the slot (R194). -/
def lookupReads (L sbase w : Nat) : List ScrAccess := (List.range (2 ^ w * L)).map fun i => .read (sbase + i)

/-- Group `j` of the exponent, `E[j·w + w − 1 : j·w]` (R190). -/
def expGroup (w E j : Nat) : Nat := E / 2 ^ (j * w) % 2 ^ w

/-- One group of the windowed method: `w` squares, one lookup, one multiply (R185). -/
def expWinGroup (W : Nat) (m : Modulus) (sbase w E : Nat) (r : Run) (j : Nat) : Run :=
  let r := r.times (Run.sqr W m) w
  let t := lookupVal W m.L.toNat r.mem sbase w (expGroup w E j)
  let r := { r with accesses := r.accesses ++ lookupReads m.L.toNat sbase w }
  (r.perform [.sel (2 ^ w)]).mul W m t

/-- The whole of R185 after the checks and special cases, for the window width `w`. -/
def expWinRun (W : Nat) (m : Modulus) (mem : Memory) (sbase w X E : Nat) : Run :=
  let xR := enc W m X
  let g := ceilDiv (bitlen E) w
  let r := (Run.start m mem).perform (List.replicate (2 ^ w - 2) .mul)
  let r := r.writeMem (tableWrites W m.L.toNat sbase w (powerTable W m xR w))
  let r := (List.range g).reverse.foldl (expWinGroup W m sbase w E) r
  let r := r.writeMem (wipeWrites sbase (2 ^ w * m.L.toNat))
  r.red W m

/-! ### The commands -/

/-- The special cases of R181, then the run, then the write of the result (R182 to R185). -/
def expInto (s : State) (rd : BnIdx) (ed : EngIdx) (a b : BigNum) (m : Modulus) (run : Run) : CmdResult :=
  if b.mag = 0 then .respond (s.writeBn rd m.R (a.sec || b.sec)) 0 []
  else if a.mag = 0 then .respond (s.writeBn rd 0 (a.sec || b.sec)) 0 []
  else
    .respond
      (((s.kernel run.events (kernelPasses (s.kselAt ed) m.L.toNat run.events)).scrDone run.mem
        run.accesses).writeBn rd run.acc (a.sec || b.sec)) 0 []

/-- `EXP_BIN rd, ra, rb, ed` (R183): the exponent must not be marked secret (R188). -/
def execExpBin (rd ra rb : BnIdx) (ed : EngIdx) (s : State) : Outcome :=
  finishCounted .expBin s <|
    withExp s rd ra rb ed (fun b => b.sec) (fun _ _ => false) fun a b m =>
      expInto s rd ed a b m (expBinRun s.cfg.W m s.scr a.mag b.mag)

/-- `EXP_CT rd, ra, rb, ed` (R184). -/
def execExpCt (rd ra rb : BnIdx) (ed : EngIdx) (s : State) : Outcome :=
  finishCounted .expCt s <|
    withExp s rd ra rb ed (fun _ => false) (fun _ _ => false) fun a b m =>
      expInto s rd ed a b m (expCtRun s.cfg.W m s.scr a.mag b.mag)

/-- The window checks of R83 fail: not inside `SCR`, or shorter than `need`. -/
def badWindow (c : Cfg) (sbase slen : Nat) (b : BigNum) (m : Modulus) : Bool :=
  decide (c.scrLimbs < sbase + slen) || decide (slen < expWinNeed c m.L.toNat (bitlen b.mag))

/-- `EXP_WIN rd, ra, rb, ed, #sbase, #slen` (R185). -/
def execExpWin (rd ra rb : BnIdx) (ed : EngIdx) (sbase slen : BitVec 16) (s : State) : Outcome :=
  finishCounted .expWin s <|
    withExp s rd ra rb ed (fun _ => false) (badWindow s.cfg sbase.toNat slen.toNat) fun a b m =>
      expInto s rd ed a b m
        (expWinRun s.cfg.W m s.scr sbase.toNat (wsel s.cfg (bitlen b.mag)) a.mag b.mag)

end Sys2Proof.Machine
end

