-- ==== Sys2Proof/Machine/Montgomery.lean ====
section
/-!
DEFINITION. The Montgomery engine commands (R150 to R164 of 41_montgomery.md).
-/

namespace Sys2Proof.Machine

/-- `ME_CREATE ed, #maxbits` (R157): the kernel set is chosen here (R44). -/
def execMeCreate (ed : EngIdx) (maxbits : BitVec 16) (s : State) : Outcome :=
  finishCounted .meCreate s <|
    if maxbits.toNat = 0 ∨ maxBits s.cfg < maxbits.toNat then .error .badArgument
    else
      .respond
        (s.setMe ed (.created { maxbits := maxbits, ksel := stepLookup s.cfg.ksel maxbits.toNat })) 0 []

/-- What `ME_INIT` does with a modulus register on an engine that was constructed (R158). -/
def meInitOn (s : State) (ed : EngIdx) (c : EngineCfg) (a : BigNum) : CmdResult :=
  if a.neg = true ∨ a.mag % 2 = 0 then .error .badArgument
  else if c.maxbits.toNat < bitlen a.mag then .error .outOfRange
  else .respond (s.setMe ed (.ready c (modulusOf s.cfg.W a.mag))) 0 []

/-- `ME_INIT ed, ra` (R158). -/
def execMeInit (ed : EngIdx) (ra : BnIdx) (s : State) : Outcome :=
  finishCounted .meInit s <|
    withA s ra fun a =>
      match s.meAt ed with
      | .none => .error .contextMismatch
      | .created c => meInitOn s ed c a
      | .ready c _ => meInitOn s ed c a

/-- The value `ME_GET` responds with: `(state << 62) | (ksel << 48) | (maxbits << 16) | modbits`, bits 61:56 and
47:32 zero (R159). -/
def meGetVal (state : BitVec 2) (c : EngineCfg) (modbits : BitVec 16) : BitVec 64 :=
  state ++ 0#6 ++ c.ksel ++ 0#16 ++ c.maxbits ++ modbits

/-- The payload of `ME_GET` for a `READY` engine: exactly `L` limbs, or the one limb of `n0` (R159). -/
def meGetPayload (W : Nat) (m : Modulus) (sel : BitVec 4) : Limbs :=
  match sel.toNat with
  | 0 => []
  | 1 => limbsOf W m.L.toNat m.M
  | 2 => limbsOf W m.L.toNat m.R
  | 3 => limbsOf W m.L.toNat m.RR
  | _ => limbsOf W 1 m.n0

/-- `ME_GET ed, #sel` (R159). -/
def execMeGet (ed : EngIdx) (sel : BitVec 4) (s : State) : Outcome :=
  finishCounted .meGet s <|
    if 4 < sel.toNat then .error .illegalCommand
    else
      match s.meAt ed with
      | .none => .error .contextMismatch
      | .created c =>
        if sel.toNat = 0 then .respond s (meGetVal 1 c 0) [] else .error .incompleteContext
      | .ready c m => .respond s (meGetVal 2 c m.modbits) (meGetPayload s.cfg.W m sel)

/-- Store the result of one Montgomery kernel with its event (R160 to R164). -/
def montInto (s : State) (rd : BnIdx) (ed : EngIdx) (m : Modulus) (ev : KEvent) (v : Nat) (sec : Bool) : CmdResult :=
  .respond ((s.kernel [ev] (kernelPasses (s.kselAt ed) m.L.toNat [ev])).writeBn rd v sec) 0 []

/-- `ME_ENC rd, ra, ed` (R160). -/
def execMeEnc (rd ra : BnIdx) (ed : EngIdx) (s : State) : Outcome :=
  finishCounted .meEnc s <|
    withMont s rd ra ed Modulus.M fun a m => montInto s rd ed m .mul (enc s.cfg.W m a.mag) a.sec

/-- `ME_DEC rd, ra, ed` (R161). -/
def execMeDec (rd ra : BnIdx) (ed : EngIdx) (s : State) : Outcome :=
  finishCounted .meDec s <|
    withMont s rd ra ed Modulus.M fun a m => montInto s rd ed m .red (dec s.cfg.W m a.mag) a.sec

/-- `ME_MUL rd, ra, rb, ed` (R162). -/
def execMeMul (rd ra rb : BnIdx) (ed : EngIdx) (s : State) : Outcome :=
  finishCounted .meMul s <|
    withMont2 s rd ra rb ed fun a b m =>
      montInto s rd ed m .mul (montMul s.cfg.W m a.mag b.mag) (a.sec || b.sec)

/-- `ME_SQR rd, ra, ed` (R163). -/
def execMeSqr (rd ra : BnIdx) (ed : EngIdx) (s : State) : Outcome :=
  finishCounted .meSqr s <|
    withMont s rd ra ed Modulus.M fun a m => montInto s rd ed m .sqr (montSqr s.cfg.W m a.mag) a.sec

/-- `ME_RED rd, ra, ed` (R164). -/
def execMeRed (rd ra : BnIdx) (ed : EngIdx) (s : State) : Outcome :=
  finishCounted .meRed s <|
    withMont s rd ra ed (redBound s.cfg.W) fun a m => montInto s rd ed m .red (montRed s.cfg.W m a.mag) a.sec

end Sys2Proof.Machine
end

