-- ==== Sys2Proof/Machine/System.lean ====
section
/-!
DEFINITION. The system commands (R225 to R229 of 44_system.md). They add nothing to any counter.
-/

namespace Sys2Proof.Machine

/-- `NOP` (R225). -/
def execNop (s : State) : Outcome := finishSystem .nop s (.respond s 0 [])

/-- `CSR_RD #csr` (R226). `STATUS` is read before this command's own status is written. -/
def execCsrRd (csr : BitVec 8) (s : State) : Outcome :=
  finishSystem .csrRd s <|
    match Csr.ofNum csr with
    | none => .error .illegalCommand
    | some c => .respond s (s.readCsr c) []

/-- `CSR_WR #csr, #imm` (R227). -/
def execCsrWr (csr : BitVec 8) (imm : BitVec 32) (s : State) : Outcome :=
  finishSystem .csrWr s <|
    match Csr.ofNum csr with
    | none => .error .illegalCommand
    | some c =>
      match s.writeCsr c imm with
      | none => .error .illegalCommand
      | some s' => .respond s' 0 []

/-- The scratch need of an operation, in limbs (R192, R229). -/
def scrNeedVal (c : Cfg) (sel : SizeSel) (modbits expbits : Nat) : Nat :=
  match sel with
  | .expBin => 0
  | .expCt => 0
  | .expWin => expWinNeed c (ceilDiv modbits c.W) expbits
  | .crtRecomb => 0

/-- `SCR_NEED #sel, #modbits, #expbits` (R229). -/
def execScrNeed (sel : SizeSel) (modbits expbits : BitVec 16) (s : State) : Outcome :=
  finishSystem .scrNeed s <|
    if modbits.toNat = 0 ∨ maxBits s.cfg < modbits.toNat ∨ expbits.toNat = 0 then .error .badArgument
    else .respond s (BitVec.ofNat 64 (scrNeedVal s.cfg sel modbits.toNat expbits.toNat)) []

end Sys2Proof.Machine
end

