-- ==== Sys2Proof/Machine/Dispatch.lean ====
section
/-! DEFINITION. The dispatch of commands to their meanings, one arm per constructor of Instr. -/

namespace Sys2Proof.Machine

def exec (i : Instr) (s : State) : Host.Outcome State Fault Refusal :=
  match i with
  | .nop => Sys2Proof.Machine.execNop s
  | .csrRd csr => Sys2Proof.Machine.execCsrRd csr s
  | .csrWr csr imm => Sys2Proof.Machine.execCsrWr csr imm s
  | .scrNeed sel modbits expbits => Sys2Proof.Machine.execScrNeed sel modbits expbits s
  | .bnCreate rd room => Sys2Proof.Machine.execBnCreate rd room s
  | .bnSet rd neg sec payload => Sys2Proof.Machine.execBnSet rd neg sec payload s
  | .bnGet ra => Sys2Proof.Machine.execBnGet ra s
  | .bnCopy rd ra => Sys2Proof.Machine.execBnCopy rd ra s
  | .bnCmp ra rb => Sys2Proof.Machine.execBnCmp ra rb s
  | .bnAdd rd ra rb => Sys2Proof.Machine.execBnAdd rd ra rb s
  | .bnSub rd ra rb => Sys2Proof.Machine.execBnSub rd ra rb s
  | .bnMul rd ra rb => Sys2Proof.Machine.execBnMul rd ra rb s
  | .bnMod rd ra rb => Sys2Proof.Machine.execBnMod rd ra rb s
  | .meCreate ed maxbits => Sys2Proof.Machine.execMeCreate ed maxbits s
  | .meInit ed ra => Sys2Proof.Machine.execMeInit ed ra s
  | .meGet ed sel => Sys2Proof.Machine.execMeGet ed sel s
  | .meEnc rd ra ed => Sys2Proof.Machine.execMeEnc rd ra ed s
  | .meDec rd ra ed => Sys2Proof.Machine.execMeDec rd ra ed s
  | .meMul rd ra rb ed => Sys2Proof.Machine.execMeMul rd ra rb ed s
  | .meSqr rd ra ed => Sys2Proof.Machine.execMeSqr rd ra ed s
  | .meRed rd ra ed => Sys2Proof.Machine.execMeRed rd ra ed s
  | .expBin rd ra rb ed => Sys2Proof.Machine.execExpBin rd ra rb ed s
  | .expCt rd ra rb ed => Sys2Proof.Machine.execExpCt rd ra rb ed s
  | .expWin rd ra rb ed sbase slen => Sys2Proof.Machine.execExpWin rd ra rb ed sbase slen s
  | .crtRecomb rd ra rb rc ed ee => Sys2Proof.Machine.execCrtRecomb rd ra rb rc ed ee s

end Sys2Proof.Machine
end

