-- ==== Sys2Proof/Machine/Fetch.lean ====
section
/-!
DEFINITION. Taking the next command off the stream (R90, R94, R97, R98), and the illegal commands the decoder rejects.
-/

namespace Sys2Proof.Machine

/-- A header the decoder rejects: `IllegalCommand` under the header's own `op` byte, its beats consumed
(R97, R98, R244, R94). -/
def execIllegal (op : BitVec 8) (s : State) : Outcome := .next (s.raise op .illegalCommand)

/-- Run a framed command from the state in which its beats are consumed. -/
def execFrame (f : Frame) (s : State) : Outcome :=
  match decode f.header f.payload with
  | .ok i => exec i { s with cmdStream := f.rest }
  | .error _ => execIllegal (hdrOp f.header) { s with cmdStream := f.rest }

/-- One step: run the next whole command. With none there CORE waits, holding all its state (R257, R277, R286). -/
def stepCommand (s : State) : Outcome :=
  match nextFrame s.cmdStream with
  | none => .next s
  | some f => execFrame f s

/-- Put the beats of the command with bits `w` at the front of the command stream (log entry 3). -/
def putNextCommand (s : State) (nbits w : Nat) : State :=
  { s with cmdStream := tableBeats nbits w ++ s.cmdStream }

end Sys2Proof.Machine
end

