-- ==== Sys2Proof/Machine/Step.lean ====
section
/-! DEFINITION. The step of the machine, and where the host places a command for the next step to run. -/

namespace Sys2Proof.Machine

/-- One command, one step (R287): `(state, command) -> (state', response)` of R90 on the next command of the stream. -/
def step (s : State) : Host.Outcome State Fault Refusal := stepCommand s

/-- `s` with the command whose bits are `w` next in the command stream, so that `step` runs exactly it. -/
def State.withFetchWord (s : State) (nbits w : Nat) : State := putNextCommand s nbits w

end Sys2Proof.Machine
end

