-- ==== Sys2Proof/Machine/Pseudo.lean ====
section
/-!
DEFINITION. The pseudo-commands of R105 to R112 of 30_encoding.md: sequences the host issues; CORE knows nothing of them.
-/

namespace Sys2Proof.Machine

/-- The host's choice of method for a secret exponent (R111, R112, R189). -/
inductive CtMethod where
  | sscm
  | windowed (sbase slen : BitVec 16)
  deriving DecidableEq, Repr

/-- The pseudo-commands of R105 to R112. -/
inductive Pseudo where
  | bnLi (rd : BnIdx) (room : BitVec 16) (neg sec : Bool) (limbs : List Beat)
  | cntClr
  | montMulmod (rd ra rb : BnIdx) (ed : EngIdx) (rt : BnIdx)
  | rsaEncrypt (rd rm rE : BnIdx) (eN : EngIdx)
  | rsaDecrypt1 (rd rc rD : BnIdx) (eN : EngIdx) (method : CtMethod)
  | rsaDecrypt2 (rd rc rdP rdQ rqInv rP rQ : BnIdx) (eP eQ : EngIdx) (rt1 rt2 : BnIdx) (methodP methodQ : CtMethod)
  deriving DecidableEq, Repr

/-- The exponentiation command of a method. -/
def ctExp (rd ra rb : BnIdx) (ed : EngIdx) : CtMethod → Instr
  | .sscm => .expCt rd ra rb ed
  | .windowed sbase slen => .expWin rd ra rb ed sbase slen

/-- The expansions of R105 to R112. -/
def expandPseudo : Pseudo → List Instr
  | .bnLi rd room neg sec limbs => [.bnCreate rd room, .bnSet rd neg sec limbs]
  | .cntClr =>
    [.csrWr 0x10 0, .csrWr 0x11 0, .csrWr 0x12 0, .csrWr 0x13 0, .csrWr 0x14 0, .csrWr 0x15 0]
  | .montMulmod rd ra rb ed rt =>
    [.meEnc rt ra ed, .meEnc rd rb ed, .meMul rd rt rd ed, .meDec rd rd ed]
  | .rsaEncrypt rd rm rE eN => [.expBin rd rm rE eN]
  | .rsaDecrypt1 rd rc rD eN method => [ctExp rd rc rD eN method]
  | .rsaDecrypt2 rd rc rdP rdQ rqInv rP rQ eP eQ rt1 rt2 methodP methodQ =>
    [.bnMod rt1 rc rP, ctExp rt1 rt1 rdP eP methodP,
     .bnMod rt2 rc rQ, ctExp rt2 rt2 rdQ eQ methodQ,
     .crtRecomb rd rt1 rt2 rqInv eP eQ]

/-- Issue commands in order, stopping "at the first response whose status is not `OK`" (section 7 of
30_encoding.md); `STATUS` then holds the status to report. -/
def issue : List Instr → State → Outcome
  | [], s => .next s
  | i :: rest, s =>
    match exec i s with
    | .next t => if t.status.extractLsb' 0 8 = Status.code .ok then issue rest t else .next t
    | .fault e => .fault e
    | .refused e => .refused e

end Sys2Proof.Machine
end

