-- ==== Sys2Proof/Safety.lean ====
section
/-!
DEFINITION. What claims speak of: a safe step, the invariant of a CORE instance, how a command answers, and the causes of each status (R242).
-/

namespace Sys2Proof.Machine

/-! ### Safe runs -/

/-- A step that neither faults nor is refused. -/
def SafeStep (s : State) : Prop := ∃ t, step s = .next t

/-! ### The invariant -/

/-- R32 for a register, with R31's bounds on `room`. -/
def BnReg.Wf (c : Cfg) : BnReg → Prop
  | .none => True
  | .valid b =>
    1 ≤ b.room.toNat ∧ b.room.toNat ≤ c.RMAX ∧ b.size c.W ≤ b.room.toNat ∧ (b.mag = 0 → b.neg = false)

/-- R41's bounds on what `ME_CREATE` fixes. -/
def EngineCfg.Wf (c : Cfg) (e : EngineCfg) : Prop :=
  1 ≤ e.maxbits.toNat ∧ e.maxbits.toNat ≤ maxBits c ∧ e.ksel = stepLookup c.ksel e.maxbits.toNat

/-- A modulus an engine can hold: odd, no wider than the engine's maximum, with its constants as R41 defines them. -/
def Modulus.Wf (c : Cfg) (e : EngineCfg) (m : Modulus) : Prop :=
  m.M % 2 = 1 ∧ bitlen m.M ≤ e.maxbits.toNat ∧ m = modulusOf c.W m.M

/-- R41 for an engine. -/
def Engine.Wf (c : Cfg) : Engine → Prop
  | .none => True
  | .created e => e.Wf c
  | .ready e m => e.Wf c ∧ m.Wf c e

/-- The scratch memory in canonical form, inside `SCR_LIMBS`, every cell a limb (R70). -/
def ScrWf (c : Cfg) (m : Memory) : Prop :=
  Memory.wf m = true ∧ ∀ x ∈ m, x.1 < c.scrLimbs ∧ x.2.toNat < 2 ^ c.W

/-- The statuses a command can answer (R241, R243). -/
abbrev Status.Raisable (st : Status) : Prop := st ≠ .insufficientEntropy ∧ st ≠ .internalError

/-- A response as R93 has it: an error carries nothing, and every payload element is a limb. -/
def Response.Wf (c : Cfg) (r : Response) : Prop :=
  r.status.Raisable ∧ (r.status ≠ .ok → r.val = 0 ∧ r.payload = []) ∧
    r.payload.length ≤ 65535 ∧ ∀ x ∈ r.payload, x.toNat < 2 ^ c.W

/-- `STATUS` holds a producible code and an opcode, its other bits zero (R52, R241). -/
def StatusWf (w : BitVec 64) : Prop := ∃ (op : BitVec 8) (st : Status), st.Raisable ∧ w = statusWord op st

/-- The invariant of a CORE instance: legal parameters, and every register, engine, scratch cell, `STATUS` and
response as the spec bounds it. -/
structure State.Inv (s : State) : Prop where
  cfg_legal    : CfgLegal s.cfg
  bn_wf        : ∀ r, (s.bnAt r).Wf s.cfg
  me_wf        : ∀ k, (s.meAt k).Wf s.cfg
  scr_wf       : ScrWf s.cfg s.scr
  status_wf    : StatusWf s.status
  responses_wf : ∀ r ∈ s.respStream, r.Wf s.cfg

/-! ### How a command answers -/

/-- `t` is the error entry of R244 from `s`: the response and `STATUS`, nothing else. -/
def Raised (s : State) (op : BitVec 8) (st : Status) (t : State) : Prop :=
  t = { s with
        status := (op.setWidth 64 <<< 8) ||| st.code.setWidth 64
        respStream := s.respStream ++ [{ status := st, op := op, val := 0, payload := [] }] }

/-- `exec i s` answers status `st`, by the error entry of R244. -/
def Raises (i : Instr) (s : State) (st : Status) : Prop :=
  ∃ t, exec i s = .next t ∧ Raised s i.op.code st t

/-- `t` carries one more response than `s`, `OK` with this value and payload, and `STATUS` says so (R52, R93). -/
def AnswersOk (s : State) (op : BitVec 8) (val : BitVec 64) (payload : Limbs) (t : State) : Prop :=
  t.status = op.setWidth 64 <<< 8 ∧
    t.respStream = s.respStream ++ [{ status := .ok, op := op, val := val, payload := payload }]

/-- Register `rd` of `t` holds `b` and every other register is as in `s`. -/
def WritesBn (s : State) (rd : BnIdx) (b : BigNum) (t : State) : Prop :=
  t.bnAt rd = .valid b ∧ ∀ r, r ≠ rd → t.bnAt r = s.bnAt r

/-- Engine `ed` of `t` holds `e` and every other engine is as in `s`. -/
def WritesMe (s : State) (ed : EngIdx) (e : Engine) (t : State) : Prop :=
  t.meAt ed = e ∧ ∀ k, k ≠ ed → t.meAt k = s.meAt k

/-- Every scratch limb reads in `t` as in `s`, and no access was made. -/
def KeepsScr (s t : State) : Prop :=
  (∀ a, Memory.read t.scr a = Memory.read s.scr a) ∧ t.scrTrace = s.scrTrace

/-- The parameters and the unread commands are as they were. -/
def KeepsInput (s t : State) : Prop := t.cfg = s.cfg ∧ t.cmdStream = s.cmdStream

/-- No event and no counter. -/
def CountsNothing (s t : State) : Prop := t.trace = s.trace ∧ t.cnt = s.cnt

/-- `evs` appended to `TRACE`, each event in its counter, and one command in `CNT_CMD`, modulo `2^64` (R23, R56). -/
def Counts (s : State) (evs : List KEvent) (mul sqr red sel add : Nat) (t : State) : Prop :=
  t.trace = s.trace ++ evs ∧
    t.cnt = { cmd := s.cnt.cmd + 1
              mul := s.cnt.mul + BitVec.ofNat 64 mul
              sqr := s.cnt.sqr + BitVec.ofNat 64 sqr
              red := s.cnt.red + BitVec.ofNat 64 red
              sel := s.cnt.sel + BitVec.ofNat 64 sel
              add := s.cnt.add + BitVec.ofNat 64 add }

/-- The events counted in `CNT_SEL` (R56). -/
def KEvent.inSel : KEvent → Bool
  | .sel _ => true
  | .mul => false
  | .sqr => false
  | .red => false
  | .add => false
  | .sub => false
  | .addm => false

/-- The events counted in `CNT_ADD` (R56). -/
def KEvent.inAdd : KEvent → Bool
  | .add => true
  | .sub => true
  | .addm => true
  | .mul => false
  | .sqr => false
  | .red => false
  | .sel _ => false

/-- What BN[rd] holds after `BN[rd] <- (v, sec)` (R19). -/
def bnHolding (room : BitVec 16) (v : Int) (sec : Bool) : BigNum where
  room := room
  neg  := decide (v < 0)
  sec  := sec
  mag  := v.natAbs

/-! ### The causes of each status (R242) -/

/-- The BigNumber registers a command names in its used `rd`, `ra`, `rb`, `rc` fields, less the `rd` of
`BN_CREATE`, which it does not look at (R120, R242). -/
def cmdRegs : Instr → List BnIdx
  | .nop => []
  | .csrRd _ => []
  | .csrWr _ _ => []
  | .scrNeed _ _ _ => []
  | .bnCreate _ _ => []
  | .bnSet rd _ _ _ => [rd]
  | .bnGet ra => [ra]
  | .bnCopy rd ra => [rd, ra]
  | .bnCmp ra rb => [ra, rb]
  | .bnAdd rd ra rb => [rd, ra, rb]
  | .bnSub rd ra rb => [rd, ra, rb]
  | .bnMul rd ra rb => [rd, ra, rb]
  | .bnMod rd ra rb => [rd, ra, rb]
  | .meCreate _ _ => []
  | .meInit _ ra => [ra]
  | .meGet _ _ => []
  | .meEnc rd ra _ => [rd, ra]
  | .meDec rd ra _ => [rd, ra]
  | .meMul rd ra rb _ => [rd, ra, rb]
  | .meSqr rd ra _ => [rd, ra]
  | .meRed rd ra _ => [rd, ra]
  | .expBin rd ra rb _ => [rd, ra, rb]
  | .expCt rd ra rb _ => [rd, ra, rb]
  | .expWin rd ra rb _ _ _ => [rd, ra, rb]
  | .crtRecomb rd ra rb rc _ _ => [rd, ra, rb, rc]

/-- The engines a command names that must have been constructed (R242): every named one but that of `ME_CREATE`. -/
def cmdEngines : Instr → List EngIdx
  | .meInit ed _ => [ed]
  | .meGet ed _ => [ed]
  | .meEnc _ _ ed => [ed]
  | .meDec _ _ ed => [ed]
  | .meMul _ _ _ ed => [ed]
  | .meSqr _ _ ed => [ed]
  | .meRed _ _ ed => [ed]
  | .expBin _ _ _ ed => [ed]
  | .expCt _ _ _ ed => [ed]
  | .expWin _ _ _ ed _ _ => [ed]
  | .crtRecomb _ _ _ _ ed ee => [ed, ee]
  | .nop => []
  | .csrRd _ => []
  | .csrWr _ _ => []
  | .scrNeed _ _ _ => []
  | .bnCreate _ _ => []
  | .bnSet _ _ _ _ => []
  | .bnGet _ => []
  | .bnCopy _ _ => []
  | .bnCmp _ _ => []
  | .bnAdd _ _ _ => []
  | .bnSub _ _ _ => []
  | .bnMul _ _ _ => []
  | .bnMod _ _ _ => []
  | .meCreate _ _ => []

/-- The engines a command needs `READY` (R242): every one it names, but that of `ME_INIT`, and that of `ME_GET`
with `sel = 0`. -/
def cmdReadyEngines : Instr → List EngIdx
  | .meInit _ _ => []
  | .meGet ed sel => if sel = 0 then [] else [ed]
  | i => cmdEngines i

/-- The `BadArgument` rows of R242. -/
def badArgumentCause (i : Instr) (s : State) : Prop :=
  match i with
  | .bnCreate _ room => room.toNat = 0 ∨ s.cfg.RMAX < room.toNat
  | .bnMod _ _ rb => ∃ b, s.bnAt rb = .valid b ∧ b.mag = 0
  | .meCreate _ maxbits => maxbits.toNat = 0 ∨ maxBits s.cfg < maxbits.toNat
  | .meInit _ ra => ∃ a, s.bnAt ra = .valid a ∧ (a.mag % 2 = 0 ∨ a.neg = true)
  | .expBin _ _ rb _ => ∃ b, s.bnAt rb = .valid b ∧ b.sec = true
  | .scrNeed _ modbits expbits =>
    modbits.toNat = 0 ∨ maxBits s.cfg < modbits.toNat ∨ expbits.toNat = 0
  | _ => False

/-- Register `r` holds a number that is negative or not below `bound`, a function of the modulus of the READY
engine `ed`. -/
def outsideModulus (s : State) (r : BnIdx) (ed : EngIdx) (bound : Modulus → Nat) : Prop :=
  ∃ b c m, s.bnAt r = .valid b ∧ s.meAt ed = .ready c m ∧ (b.neg = true ∨ bound m ≤ b.mag)

/-- The `OutOfRange` rows of R242. -/
def outOfRangeCause (i : Instr) (s : State) : Prop :=
  match i with
  | .bnMod _ _ rb => ∃ b, s.bnAt rb = .valid b ∧ b.neg = true
  | .meInit ed ra =>
    ∃ a, s.bnAt ra = .valid a ∧
      ((∃ c, s.meAt ed = .created c ∧ c.maxbits.toNat < bitlen a.mag) ∨
       (∃ c m, s.meAt ed = .ready c m ∧ c.maxbits.toNat < bitlen a.mag))
  | .meEnc _ ra ed => outsideModulus s ra ed Modulus.M
  | .meDec _ ra ed => outsideModulus s ra ed Modulus.M
  | .meMul _ ra rb ed => outsideModulus s ra ed Modulus.M ∨ outsideModulus s rb ed Modulus.M
  | .meSqr _ ra ed => outsideModulus s ra ed Modulus.M
  | .meRed _ ra ed => outsideModulus s ra ed fun m => m.M * 2 ^ (m.L.toNat * s.cfg.W)
  | .expBin _ ra _ ed => outsideModulus s ra ed Modulus.M
  | .expCt _ ra _ ed => outsideModulus s ra ed Modulus.M
  | .expWin _ ra _ ed _ _ => outsideModulus s ra ed Modulus.M
  | .crtRecomb _ ra rb rc ed ee =>
    outsideModulus s ra ed Modulus.M ∨ outsideModulus s rb ee Modulus.M ∨ outsideModulus s rc ed Modulus.M
  | _ => False

/-- Register `rd` has less room than `need` limbs. -/
def roomBelow (s : State) (rd : BnIdx) (need : Nat) : Prop := ∃ d, s.bnAt rd = .valid d ∧ d.room.toNat < need

/-- Register `rd` has less room than the modulus length of the READY engine `ed`. -/
def roomBelowEngine (s : State) (rd : BnIdx) (ed : EngIdx) : Prop :=
  ∃ c m, s.meAt ed = .ready c m ∧ roomBelow s rd m.L.toNat

/-- The `SizeError` rows of R242. -/
def sizeErrorCause (i : Instr) (s : State) : Prop :=
  match i with
  | .bnSet rd _ _ payload => roomBelow s rd (sig s.cfg.W (limbsVal s.cfg.W payload))
  | .bnCopy rd ra => ∃ a, s.bnAt ra = .valid a ∧ roomBelow s rd (a.size s.cfg.W)
  | .bnAdd rd ra rb =>
    ∃ a b, s.bnAt ra = .valid a ∧ s.bnAt rb = .valid b ∧
      roomBelow s rd (sig s.cfg.W (a.value + b.value).natAbs)
  | .bnSub rd ra rb =>
    ∃ a b, s.bnAt ra = .valid a ∧ s.bnAt rb = .valid b ∧
      roomBelow s rd (sig s.cfg.W (a.value - b.value).natAbs)
  | .bnMul rd ra rb =>
    ∃ a b, s.bnAt ra = .valid a ∧ s.bnAt rb = .valid b ∧
      roomBelow s rd (a.size s.cfg.W + b.size s.cfg.W)
  | .bnMod rd _ rb => ∃ b, s.bnAt rb = .valid b ∧ roomBelow s rd (b.size s.cfg.W)
  | .meEnc rd _ ed => roomBelowEngine s rd ed
  | .meDec rd _ ed => roomBelowEngine s rd ed
  | .meMul rd _ _ ed => roomBelowEngine s rd ed
  | .meSqr rd _ ed => roomBelowEngine s rd ed
  | .meRed rd _ ed => roomBelowEngine s rd ed
  | .expBin rd _ _ ed => roomBelowEngine s rd ed
  | .expCt rd _ _ ed => roomBelowEngine s rd ed
  | .expWin rd _ rb ed sbase slen =>
    roomBelowEngine s rd ed ∨ s.cfg.scrLimbs < sbase.toNat + slen.toNat ∨
      ∃ b c m, s.bnAt rb = .valid b ∧ s.meAt ed = .ready c m ∧
        slen.toNat < 2 ^ wsel s.cfg (bitlen b.mag) * m.L.toNat
  | .crtRecomb rd _ _ _ ed ee =>
    ∃ c m c' m', s.meAt ed = .ready c m ∧ s.meAt ee = .ready c' m' ∧
      roomBelow s rd (m.L.toNat + m'.L.toNat)
  | _ => False

/-- A cause of status `st` applies to command `i` in state `s` (R242). -/
def HasCause (i : Instr) (s : State) : Status → Prop
  | .illegalCommand => i.op ≠ .bnSet ∧ i.wf = false
  | .contextMismatch => (∃ r ∈ cmdRegs i, s.bnAt r = .none) ∨ (∃ k ∈ cmdEngines i, s.meAt k = .none)
  | .incompleteContext => ∃ k ∈ cmdReadyEngines i, ∃ c, s.meAt k = .created c
  | .badArgument => badArgumentCause i s
  | .outOfRange => outOfRangeCause i s
  | .sizeError => sizeErrorCause i s
  | .ok => False
  | .insufficientEntropy => False
  | .internalError => False

/-- The order of R245, `OK` last: "`OK` means no cause applied". -/
def Status.rank : Status → Nat
  | .illegalCommand => 1
  | .contextMismatch => 2
  | .incompleteContext => 3
  | .badArgument => 4
  | .outOfRange => 5
  | .sizeError => 6
  | .ok => 7
  | .insufficientEntropy => 8
  | .internalError => 9

end Sys2Proof.Machine
end

