-- ==== Sys2Proof/Certificates/Slice0/Obligations.lean ====
section
/-!
DEFINITION. The statements for the provers, one definition each, family by family.
-/

/-! ## The words the statements use -/

namespace Sys2Proof.Claims

open Sys2Proof.Machine

/-- The `match` and `mask` columns of R96, row by row. -/
def opcodeRows : List (Op × BitVec 64 × BitVec 64) :=
  [(.nop, 0x0000000000000000, 0xFFFFFFFFFFFFFFFF),
   (.csrRd, 0x0100000000000000, 0xFF00FFFFFFFFFFFF),
   (.csrWr, 0x0200000000000000, 0xFF00FFFF00000000),
   (.scrNeed, 0x0300000000000000, 0xFFFFFFFC00000000),
   (.bnCreate, 0x1000000000000000, 0xFF0FFFFFFFFF0000)] ++
  [(.bnSet, 0x1100000000000000, 0xFF0FFFFCFFFF0000),
   (.bnGet, 0x1200000000000000, 0xFFF0FFFFFFFFFFFF),
   (.bnCopy, 0x1300000000000000, 0xFF00FFFFFFFFFFFF),
   (.bnCmp, 0x1400000000000000, 0xFFF00FFFFFFFFFFF),
   (.bnAdd, 0x1500000000000000, 0xFF000FFFFFFFFFFF)] ++
  [(.bnSub, 0x1600000000000000, 0xFF000FFFFFFFFFFF),
   (.bnMul, 0x1700000000000000, 0xFF000FFFFFFFFFFF),
   (.bnMod, 0x1800000000000000, 0xFF000FFFFFFFFFFF),
   (.meCreate, 0x2000000000000000, 0xFFFFFF3FFFFF0000),
   (.meInit, 0x2100000000000000, 0xFFF0FF3FFFFFFFFF)] ++
  [(.meGet, 0x2200000000000000, 0xFFFFFF30FFFFFFFF),
   (.meEnc, 0x2300000000000000, 0xFF00FF3FFFFFFFFF),
   (.meDec, 0x2400000000000000, 0xFF00FF3FFFFFFFFF),
   (.meMul, 0x2500000000000000, 0xFF000F3FFFFFFFFF),
   (.meSqr, 0x2600000000000000, 0xFF00FF3FFFFFFFFF)] ++
  [(.meRed, 0x2700000000000000, 0xFF00FF3FFFFFFFFF),
   (.expBin, 0x3000000000000000, 0xFF000F3FFFFFFFFF),
   (.expCt, 0x3100000000000000, 0xFF000F3FFFFFFFFF),
   (.expWin, 0x3200000000000000, 0xFF000F3F00000000),
   (.crtRecomb, 0x4000000000000000, 0xFF00000FFFFFFFFF)]

/-- The control registers by number with what each reads in `s` (R50 to R56). -/
def csrView (s : State) : List (BitVec 8 × BitVec 64) :=
  [(0x00, 0x0000000000130007), (0x01, BitVec.ofNat 64 s.cfg.W), (0x02, BitVec.ofNat 64 s.cfg.LMAX),
   (0x03, BitVec.ofNat 64 s.cfg.RMAX), (0x04, BitVec.ofNat 64 s.cfg.scrLimbs),
   (0x05, BitVec.ofNat 64 s.cfg.WMAX), (0x06, 16), (0x07, 4), (0x08, s.status), (0x09, 0),
   (0x10, s.cnt.cmd), (0x11, s.cnt.mul), (0x12, s.cnt.sqr), (0x13, s.cnt.red), (0x14, s.cnt.sel),
   (0x15, s.cnt.add)]

/-- The five arithmetic commands: what each reads, its opcode, its counted event, and the number `T` of which it
writes `(T · Rinv) mod M` (R160 to R164). -/
inductive MontCommand (s : State) (m : Modulus) (rd : BnIdx) (ed : EngIdx) :
    Instr → BitVec 8 → KEvent → Nat → Bool → Prop where
  | enc (ra a) : s.bnAt ra = .valid a → a.neg = false → a.mag < m.M →
      MontCommand s m rd ed (.meEnc rd ra ed) 0x23 .mul (a.mag * m.RR) a.sec
  | dec (ra a) : s.bnAt ra = .valid a → a.neg = false → a.mag < m.M →
      MontCommand s m rd ed (.meDec rd ra ed) 0x24 .red a.mag a.sec
  | mul (ra rb a b) : s.bnAt ra = .valid a → s.bnAt rb = .valid b → a.neg = false → a.mag < m.M →
      b.neg = false → b.mag < m.M →
      MontCommand s m rd ed (.meMul rd ra rb ed) 0x25 .mul (a.mag * b.mag) (a.sec || b.sec)
  | sqr (ra a) : s.bnAt ra = .valid a → a.neg = false → a.mag < m.M →
      MontCommand s m rd ed (.meSqr rd ra ed) 0x26 .sqr (a.mag * a.mag) a.sec
  | red (ra a) : s.bnAt ra = .valid a → a.neg = false → a.mag < m.M * 2 ^ (m.L.toNat * s.cfg.W) →
      MontCommand s m rd ed (.meRed rd ra ed) 0x27 .red a.mag a.sec

/-- The base and destination checks of R180 pass. -/
def ExpReady (s : State) (rd ra rb : BnIdx) (ed : EngIdx) (d a b : BigNum) (m : Modulus) : Prop :=
  s.bnAt rd = .valid d ∧ s.bnAt ra = .valid a ∧ s.bnAt rb = .valid b ∧ (∃ c, s.meAt ed = .ready c m) ∧
    a.neg = false ∧ a.mag < m.M ∧ m.L.toNat ≤ d.room.toNat

/-- The window checks of R83 pass for this exponent and modulus. -/
def WindowFits (s : State) (b : BigNum) (m : Modulus) (sbase slen : BitVec 16) : Prop :=
  sbase.toNat + slen.toNat ≤ s.cfg.scrLimbs ∧
    2 ^ wsel s.cfg (bitlen b.mag) * m.L.toNat ≤ slen.toNat

/-- Commands one after another, each from the state the one before has left. -/
def runCommands : List Instr → State → Outcome
  | [], s => .next s
  | i :: rest, s =>
    match exec i s with
    | .next t => runCommands rest t
    | .fault e => .fault e
    | .refused e => .refused e

/-- How many of a list of events satisfy `p`, modulo `2^64`. -/
def countEvents (p : KEvent → Bool) (evs : List KEvent) : BitVec 64 := BitVec.ofNat 64 (evs.filter p).length

/-- What a soft reset leaves (R228, R275), and that the parameters and the unread beats are kept, which is the model's
choice (log entry 3; R280 points to it: beats sent ahead have the effect of beats sent after). What `SCR` holds is the
model's choice too (log entry 6), and is not said here. -/
def SoftResetDone (s t : State) : Prop :=
  AnswersOk s 0x02 0 [] t ∧ t.status = 0x0200 ∧ (∀ r, t.bnAt r = .none) ∧ (∀ k, t.meAt k = .none) ∧
    t.cnt = ⟨0, 0, 0, 0, 0, 0⟩ ∧ t.trace = [] ∧ KeepsInput s t

/-- When a cause of R242 applies, the command raises one that is first in the order of R245. -/
def RaisesFirstCause (i : Instr) (s : State) : Prop :=
  ∀ st, HasCause i s st → ∃ st', HasCause i s st' ∧ st'.rank ≤ st.rank ∧ Raises i s st'

/-- A register with its secrecy bit cleared. -/
def forgetSecBn : BnReg → BnReg
  | .none => .none
  | .valid b => .valid { b with sec := false }

/-- A state with every secrecy bit cleared. -/
def forgetSec (s : State) : State := { s with bn := s.bn.map forgetSecBn }

end Sys2Proof.Claims

open Sys2Proof Sys2Proof.Machine Sys2Proof.Claims

/-! ## Encoding, framing, fetch -/

/-- A few words written out field by field from R91 and R96 decode to the commands they stand for. -/
def Obligations.WordsWrittenFromTheSpecDecode : Prop :=
  decodeTableWord 64 0x0210000012345678 = some (.csrWr 0x10 0x12345678) ∧
  decodeTableWord 64 0x0300000200200011 = some (.scrNeed .expWin 32 17) ∧
  decodeTableWord 128 0x0000000000000005_11F0000300000001 = some (.bnSet 15 true true [5]) ∧
  decodeTableWord 64 0x15DEF00000000000 = some (.bnAdd 13 14 15) ∧
  decodeTableWord 64 0x220000C400000000 = some (.meGet 3 4) ∧
  decodeTableWord 64 0x321230C001000200 = some (.expWin 1 2 3 3 256 512) ∧
  decodeTableWord 64 0x4052341000000000 = some (.crtRecomb 5 2 3 4 0 1)

/-- Every command that has an encoding, with every operand at every value its field admits, comes back from its
own beats, whatever follows them in the stream. -/
def Obligations.EncodeThenDecodeGivesTheCommandBack : Prop :=
  ∀ (i : Instr) (rest : List Beat), i.encodable = true →
    nextFrame (encode i ++ rest) = some ⟨encodeHeader i, i.payload, rest⟩ ∧
      decode (encodeHeader i) i.payload = .ok i

/-- The other direction: whatever the decoder accepts, with the payload its header announces, is exactly the
encoding of the command it answers. So no accepted header has a one in an unused field (R97). -/
def Obligations.DecodeThenEncodeGivesTheBeatsBack : Prop :=
  ∀ (h : Beat) (payload : List Beat) (i : Instr), payload.length = payloadCount h →
    decode h payload = .ok i → encode i = h :: payload

/-- R96: "A header `h` selects the command iff `h AND mask = match`", for each row of its table; and a header that no
row matches selects none. -/
def Obligations.HeaderSelectsTheCommandOfItsRow : Prop :=
  (∀ o mt mk, (o, mt, mk) ∈ opcodeRows → ∀ (h : Beat) (payload : List Beat),
    (∃ i, decode h payload = .ok i ∧ i.op = o) ↔ h &&& mk = mt) ∧
  (∀ (h : Beat) (payload : List Beat), (∀ o mt mk, (o, mt, mk) ∈ opcodeRows → h &&& mk ≠ mt) →
    ∃ e, decode h payload = .error e)

/-- R94: every command is one beat long but `BN_SET`, which is `1 + imm_lo`; bits 63:56 and 15:0 of the header alone
decide it, and a step consumes exactly those beats, whether the command is legal, illegal or fails. That a soft reset too
leaves the beats after its own is the model's choice (log entry 3). -/
def Obligations.LengthIsDecidedByTheHeader : Prop :=
  (∀ (h : Beat) (rest : List Beat), h.extractLsb' 56 8 ≠ 0x11#8 →
    nextFrame (h :: rest) = some ⟨h, [], rest⟩) ∧
  (∀ (h : Beat) (payload rest : List Beat), h.extractLsb' 56 8 = 0x11#8 →
    payload.length = (h.extractLsb' 0 16).toNat →
      nextFrame (h :: (payload ++ rest)) = some ⟨h, payload, rest⟩) ∧
  (∀ (s : State) (h : Beat) (payload rest : List Beat), s.cmdStream = h :: (payload ++ rest) →
    payload.length = (if h.extractLsb' 56 8 = 0x11#8 then (h.extractLsb' 0 16).toNat else 0) →
      ∃ t, step s = .next t ∧ t.cmdStream = rest)

/-- A step runs the command whose beats stand first in the stream, and those beats are consumed. -/
def Obligations.StepRunsTheDecodedCommand : Prop :=
  ∀ (i : Instr) (s : State) (rest : List Beat), i.encodable = true → s.cmdStream = encode i ++ rest →
    step s = exec i { s with cmdStream := rest }

/-- R97, R98: a header that matches no row raises `IllegalCommand` under its own opcode byte; its beats (R94) are
consumed, and nothing else changes. -/
def Obligations.UnmatchedHeaderIsIllegal : Prop :=
  ∀ (s : State) (h : Beat) (payload rest : List Beat),
    s.cmdStream = h :: (payload ++ rest) →
    payload.length = (if h.extractLsb' 56 8 = 0x11#8 then (h.extractLsb' 0 16).toNat else 0) →
    (∀ o mt mk, (o, mt, mk) ∈ opcodeRows → h &&& mk ≠ mt) →
      ∃ t, step s = .next t ∧
        Raised { s with cmdStream := rest } (h.extractLsb' 56 8) .illegalCommand t

/-- With no whole command in the stream CORE waits and holds all its state (R257, R277, R286; the empty and the
short stream are the model's way of saying that the host has not sent it, log entry 3). -/
def Obligations.WaitsForAWholeCommand : Prop :=
  (∀ s : State, s.cmdStream = [] → step s = .next s) ∧
  (∀ (s : State) (h : Beat) (more : List Beat), s.cmdStream = h :: more → more.length < payloadCount h →
    step s = .next s)

/-- R93: the beats of a response, and that an error carries neither value nor payload. -/
def Obligations.ResponseBeatsFollowTheLayout : Prop :=
  (∀ (i : Instr) (s t : State) (r : Response), exec i s = .next t → t.respStream = s.respStream ++ [r] →
    r.op = i.op.code ∧ (r.status ≠ .ok → r.val = 0 ∧ r.payload = [])) ∧
  ∀ (W : Nat) (r : Response), 1 ≤ W → W ≤ 64 → r.payload.length < 65536 →
    ∃ b0 limbs, r.beats W = b0 :: r.val :: limbs ∧
      b0.extractLsb' 56 8 = r.status.code ∧ b0.extractLsb' 48 8 = r.op ∧ b0.extractLsb' 16 32 = 0 ∧
      (b0.extractLsb' 0 16).toNat = limbs.length ∧ limbs.length = r.payload.length ∧
      limbsVal W limbs = limbsVal W r.payload ∧ ∀ x ∈ limbs, x.toNat < 2 ^ W

/-! ## Reset -/

/-- R36, R46, R274: what reset leaves, for any parameters. -/
def Obligations.ResetLeavesNothingConstructed : Prop :=
  ∀ c : Cfg,
    (∀ r, (State.resetWith c).bnAt r = .none) ∧ (∀ k, (State.resetWith c).meAt k = .none) ∧
    (State.resetWith c).status = 0 ∧ (State.resetWith c).cnt = ⟨0, 0, 0, 0, 0, 0⟩ ∧
    (State.resetWith c).trace = [] ∧
    (State.resetWith c).readCsr .id = 0x0000000000130007 ∧
    (State.resetWith c).readCsr .cfgW = BitVec.ofNat 64 c.W ∧
    (State.resetWith c).readCsr .cfgLmax = BitVec.ofNat 64 c.LMAX ∧
    (State.resetWith c).readCsr .cfgRmax = BitVec.ofNat 64 c.RMAX ∧
    (State.resetWith c).readCsr .cfgScr = BitVec.ofNat 64 c.scrLimbs ∧
    (State.resetWith c).readCsr .cfgWmax = BitVec.ofNat 64 c.WMAX ∧
    (State.resetWith c).readCsr .cfgNbn = 16 ∧ (State.resetWith c).readCsr .cfgNeng = 4 ∧
    (State.resetWith c).readCsr .ctrl = 0

/-- The reset state of every legal instance, and the one the model starts from, meets the invariant. -/
def Obligations.ResetMeetsTheInvariant : Prop :=
  (∀ c : Cfg, CfgLegal c → (State.resetWith c).Inv) ∧ State.reset.Inv

/-! ## System commands -/

/-- R225: `NOP` writes `STATUS` and nothing else, and every other header with opcode byte 0 is `IllegalCommand`. -/
def Obligations.NopOnlyWritesStatus : Prop :=
  (∀ s : State, exec .nop s =
    .next { s with status := 0, respStream := s.respStream ++ [⟨.ok, 0x00, 0, []⟩] }) ∧
  (∀ (s : State) (h : Beat) (rest : List Beat), h.extractLsb' 56 8 = 0x00#8 → h ≠ 0 → s.cmdStream = h :: rest →
    ∃ t, step s = .next t ∧ Raised { s with cmdStream := rest } 0x00 .illegalCommand t)

/-- R226: a defined number answers the register as it stood before the command; any other is `IllegalCommand`. -/
def Obligations.CsrReadAnswersTheRegister : Prop :=
  ∀ s : State,
    (∀ n v, (n, v) ∈ csrView s →
      exec (.csrRd n) s =
        .next { s with status := 0x0100, respStream := s.respStream ++ [⟨.ok, 0x01, v, []⟩] }) ∧
    (∀ n : BitVec 8, n ∉ (csrView s).map Prod.fst → Raises (.csrRd n) s .illegalCommand)

/-- R227, R57: a counter takes the zero-extended immediate; `CTRL` resets on bit 0 and does nothing without it; every
number not writable is `IllegalCommand`. That the soft reset through `CTRL` keeps the unread beats (`SoftResetDone`) is
the model's choice (log entry 3). -/
def Obligations.CsrWriteSetsTheRegister : Prop :=
  ∀ (s : State) (imm : BitVec 32),
    (∀ n cnt, (n, cnt) ∈
        ([(0x10, { s.cnt with cmd := BitVec.ofNat 64 imm.toNat }),
          (0x11, { s.cnt with mul := BitVec.ofNat 64 imm.toNat }),
          (0x12, { s.cnt with sqr := BitVec.ofNat 64 imm.toNat }),
          (0x13, { s.cnt with red := BitVec.ofNat 64 imm.toNat }),
          (0x14, { s.cnt with sel := BitVec.ofNat 64 imm.toNat }),
          (0x15, { s.cnt with add := BitVec.ofNat 64 imm.toNat })] : List (BitVec 8 × Counters)) →
      exec (.csrWr n imm) s =
        .next { s with cnt := cnt, status := 0x0200, respStream := s.respStream ++ [⟨.ok, 0x02, 0, []⟩] }) ∧
    (imm.getLsbD 0 = false →
      exec (.csrWr 0x09 imm) s =
        .next { s with status := 0x0200, respStream := s.respStream ++ [⟨.ok, 0x02, 0, []⟩] }) ∧
    (imm.getLsbD 0 = true → ∃ t, exec (.csrWr 0x09 imm) s = .next t ∧ SoftResetDone s t) ∧
    (∀ n : BitVec 8, ¬(n = 0x09 ∨ 0x10 ≤ n.toNat ∧ n.toNat ≤ 0x15) → Raises (.csrWr n imm) s .illegalCommand)

/-- R228, R275: from any state a soft reset destroys every register and engine, zeroes the counters, empties the trace,
and completes with `STATUS = 0x0200`; the control registers then read what R274 gives, `STATUS` apart. That it keeps the unread
beats (`SoftResetDone`) is the model's choice (log entry 3); what it leaves in `SCR` (log entry 6) is not said. -/
def Obligations.SoftResetDestroysEveryContext : Prop :=
  ∀ (s : State) (imm : BitVec 32), imm.getLsbD 0 = true →
    ∃ t, exec (.csrWr 0x09 imm) s = .next t ∧ SoftResetDone s t ∧
      ∀ c : Csr, c ≠ .status → t.readCsr c = (State.resetWith s.cfg).readCsr c

/-- R229: the sizing function, its errors, and that it changes nothing but the answer. -/
def Obligations.ScrNeedIsThePureSizingFunction : Prop :=
  (∀ (s : State) (h : Beat) (rest : List Beat), h.extractLsb' 56 8 = 0x03#8 → 3 < (h.extractLsb' 32 4).toNat →
    s.cmdStream = h :: rest →
      ∃ t, step s = .next t ∧ Raised { s with cmdStream := rest } 0x03 .illegalCommand t) ∧
  ∀ (s : State) (sel : SizeSel) (modbits expbits : BitVec 16),
    ((modbits.toNat = 0 ∨ s.cfg.LMAX * s.cfg.W < modbits.toNat ∨ expbits.toNat = 0) →
      Raises (.scrNeed sel modbits expbits) s .badArgument) ∧
    (1 ≤ modbits.toNat → modbits.toNat ≤ s.cfg.LMAX * s.cfg.W → 1 ≤ expbits.toNat →
      exec (.scrNeed sel modbits expbits) s =
        .next { s with
          status := 0x0300
          respStream := s.respStream ++
            [⟨.ok, 0x03,
              if sel = .expWin then
                BitVec.ofNat 64 (2 ^ wsel s.cfg expbits.toNat * ((modbits.toNat + s.cfg.W - 1) / s.cfg.W))
              else 0, []⟩] })

/-! ## BigNumber commands -/

/-- R121. -/
def Obligations.BnCreateConstructsZero : Prop :=
  ∀ (s : State) (rd : BnIdx) (room : BitVec 16),
    ((room.toNat = 0 ∨ s.cfg.RMAX < room.toNat) → Raises (.bnCreate rd room) s .badArgument) ∧
    (1 ≤ room.toNat → room.toNat ≤ s.cfg.RMAX →
      ∃ t, exec (.bnCreate rd room) s = .next t ∧ AnswersOk s 0x10 0 [] t ∧
        WritesBn s rd ⟨room, false, false, 0⟩ t ∧
        t.me = s.me ∧ KeepsScr s t ∧ KeepsInput s t ∧ Counts s [] 0 0 0 0 0 t)

/-- R122: the payload's value, its leading zero limbs dropped, or `SizeError` and nothing written. -/
def Obligations.BnSetLoadsThePayload : Prop :=
  ∀ (s : State) (rd : BnIdx) (neg sec : Bool) (payload : List Beat),
    (s.bnAt rd = .none → Raises (.bnSet rd neg sec payload) s .contextMismatch) ∧
    ∀ d, s.bnAt rd = .valid d →
      (d.room.toNat < sig s.cfg.W (limbsVal s.cfg.W payload) →
        Raises (.bnSet rd neg sec payload) s .sizeError) ∧
      (sig s.cfg.W (limbsVal s.cfg.W payload) ≤ d.room.toNat →
        ∃ t, exec (.bnSet rd neg sec payload) s = .next t ∧ AnswersOk s 0x11 0 [] t ∧
          WritesBn s rd
            (bnHolding d.room (if neg then -(limbsVal s.cfg.W payload : Int) else limbsVal s.cfg.W payload) sec) t ∧
          t.me = s.me ∧ KeepsScr s t ∧ KeepsInput s t ∧ Counts s [] 0 0 0 0 0 t)

/-- R16: the value of a payload is `Σ v[i]·2^(W·i)`, limb `i` being bits `W−1:0` of beat `i` (R92), and a number
below `2^(W·n)` has exactly one `n`-limb vector with that value. -/
def Obligations.LimbVectorsHaveUniqueValues : Prop :=
  ∀ W : Nat, 1 ≤ W → W ≤ 64 →
    (∀ v : Limbs, limbsVal W v =
      ((List.range v.length).map fun i => (v.getD i 0).toNat % 2 ^ W * 2 ^ (W * i)).sum) ∧
    (∀ (n x : Nat), x < 2 ^ (W * n) →
      (limbsOf W n x).length = n ∧ limbsVal W (limbsOf W n x) = x ∧
        ∀ v : Limbs, v.length = n → (∀ y ∈ v, y.toNat < 2 ^ W) → limbsVal W v = x → v = limbsOf W n x)

/-- R123. -/
def Obligations.BnGetReportsTheRegister : Prop :=
  ∀ (s : State) (ra : BnIdx),
    (s.bnAt ra = .none → Raises (.bnGet ra) s .contextMismatch) ∧
    ∀ a, s.Inv → s.bnAt ra = .valid a →
      ∃ payload : Limbs,
        exec (.bnGet ra) s =
          .next { s with
            status := 0x1200
            cnt := { s.cnt with cmd := s.cnt.cmd + 1 }
            respStream := s.respStream ++
              [⟨.ok, 0x12,
                BitVec.ofNat 64 ((if a.neg then 2 ^ 63 else 0) + (if a.sec then 2 ^ 62 else 0)
                  + a.room.toNat * 2 ^ 16 + sig s.cfg.W a.mag), payload⟩] } ∧
        payload.length = sig s.cfg.W a.mag ∧ limbsVal s.cfg.W payload = a.mag ∧
        ∀ x ∈ payload, x.toNat < 2 ^ s.cfg.W

/-- R124. -/
def Obligations.BnCopyCopiesValueSignAndSecrecy : Prop :=
  ∀ (s : State) (rd ra : BnIdx),
    ((s.bnAt rd = .none ∨ s.bnAt ra = .none) → Raises (.bnCopy rd ra) s .contextMismatch) ∧
    ∀ d a, s.bnAt rd = .valid d → s.bnAt ra = .valid a →
      (d.room.toNat < sig s.cfg.W a.mag → Raises (.bnCopy rd ra) s .sizeError) ∧
      (sig s.cfg.W a.mag ≤ d.room.toNat →
        ∃ t, exec (.bnCopy rd ra) s = .next t ∧ AnswersOk s 0x13 0 [] t ∧
          WritesBn s rd (bnHolding d.room a.value a.sec) t ∧
          t.me = s.me ∧ KeepsScr s t ∧ KeepsInput s t ∧ Counts s [] 0 0 0 0 0 t)

/-- R125: magnitudes only. -/
def Obligations.BnCmpComparesMagnitudes : Prop :=
  ∀ (s : State) (ra rb : BnIdx),
    ((s.bnAt ra = .none ∨ s.bnAt rb = .none) → Raises (.bnCmp ra rb) s .contextMismatch) ∧
    ∀ a b, s.bnAt ra = .valid a → s.bnAt rb = .valid b →
      ∃ t, exec (.bnCmp ra rb) s = .next t ∧
        AnswersOk s 0x14 (if a.mag = b.mag then 0 else if b.mag < a.mag then 1 else 0xFFFFFFFFFFFFFFFF) [] t ∧
        t.bn = s.bn ∧ t.me = s.me ∧ KeepsScr s t ∧ KeepsInput s t ∧ Counts s [] 0 0 0 0 0 t

/-- R126 and R127 in one shape: the exact signed sum or difference, or `SizeError` when it does not fit. -/
def Obligations.BnAddAndSubAreExact : Prop :=
  ∀ (s : State) (rd ra rb : BnIdx) (i : Instr) (op : BitVec 8) (f : Int → Int → Int),
    ((i = .bnAdd rd ra rb ∧ op = 0x15 ∧ f = (· + ·)) ∨ (i = .bnSub rd ra rb ∧ op = 0x16 ∧ f = (· - ·))) →
    ((s.bnAt rd = .none ∨ s.bnAt ra = .none ∨ s.bnAt rb = .none) → Raises i s .contextMismatch) ∧
    ∀ d a b, s.bnAt rd = .valid d → s.bnAt ra = .valid a → s.bnAt rb = .valid b →
      (d.room.toNat < sig s.cfg.W (f a.value b.value).natAbs → Raises i s .sizeError) ∧
      (sig s.cfg.W (f a.value b.value).natAbs ≤ d.room.toNat →
        ∃ t, exec i s = .next t ∧ AnswersOk s op 0 [] t ∧
          WritesBn s rd (bnHolding d.room (f a.value b.value) (a.sec || b.sec)) t ∧
          t.me = s.me ∧ KeepsScr s t ∧ KeepsInput s t ∧ Counts s [.add] 0 0 0 0 1 t)

/-- R128: the product, when the `size_a + size_b` limbs the multiplier produces fit. -/
def Obligations.BnMulIsTheSignedProduct : Prop :=
  ∀ (s : State) (rd ra rb : BnIdx),
    ((s.bnAt rd = .none ∨ s.bnAt ra = .none ∨ s.bnAt rb = .none) →
      Raises (.bnMul rd ra rb) s .contextMismatch) ∧
    ∀ d a b, s.bnAt rd = .valid d → s.bnAt ra = .valid a → s.bnAt rb = .valid b →
      (d.room.toNat < sig s.cfg.W a.mag + sig s.cfg.W b.mag → Raises (.bnMul rd ra rb) s .sizeError) ∧
      (sig s.cfg.W a.mag + sig s.cfg.W b.mag ≤ d.room.toNat →
        ∃ t, exec (.bnMul rd ra rb) s = .next t ∧ AnswersOk s 0x17 0 [] t ∧
          WritesBn s rd (bnHolding d.room (a.value * b.value) (a.sec || b.sec)) t ∧
          t.me = s.me ∧ KeepsScr s t ∧ KeepsInput s t ∧ Counts s [] 0 0 0 0 0 t)

/-- R129: the residue `v` with `0 ≤ v < mag(rb)` that differs from the dividend by a multiple of `mag(rb)`. -/
def Obligations.BnModIsTheFloorResidue : Prop :=
  ∀ (s : State) (rd ra rb : BnIdx),
    ((s.bnAt rd = .none ∨ s.bnAt ra = .none ∨ s.bnAt rb = .none) →
      Raises (.bnMod rd ra rb) s .contextMismatch) ∧
    ∀ d a b, s.bnAt rd = .valid d → s.bnAt ra = .valid a → s.bnAt rb = .valid b →
      (b.mag = 0 → Raises (.bnMod rd ra rb) s .badArgument) ∧
      (b.mag ≠ 0 → b.neg = true → Raises (.bnMod rd ra rb) s .outOfRange) ∧
      (b.mag ≠ 0 → b.neg = false → d.room.toNat < sig s.cfg.W b.mag →
        Raises (.bnMod rd ra rb) s .sizeError) ∧
      (b.mag ≠ 0 → b.neg = false → sig s.cfg.W b.mag ≤ d.room.toNat →
        ∃ (t : State) (v : Nat), exec (.bnMod rd ra rb) s = .next t ∧ AnswersOk s 0x18 0 [] t ∧
          v < b.mag ∧ (b.mag : Int) ∣ a.value - v ∧
          WritesBn s rd ⟨d.room, false, a.sec || b.sec, v⟩ t ∧
          t.me = s.me ∧ KeepsScr s t ∧ KeepsInput s t ∧ Counts s [] 0 0 0 0 0 t)

/-- R130: the limb-level adder/subtractor, with its carry, its borrow and its compare, gives the exact signed sum. -/
def Obligations.AdderUnitGivesTheExactSignedSum : Prop :=
  ∀ (W : Nat) (na nb : Bool) (a b : Nat), 1 ≤ W → W ≤ 64 →
    signedAdd W na a nb b = (if na then -(a : Int) else a) + (if nb then -(b : Int) else b)

/-- R32: the invariants of a `VALID` register, in every state that meets the invariant and after every step from one. -/
def Obligations.ValidRegistersStayNormalised : Prop :=
  ∀ (s t : State) (r : BnIdx) (b : BigNum), s.Inv → (t = s ∨ step s = .next t) → t.bnAt r = .valid b →
    (b.limbs t.cfg.W).length = b.room.toNat ∧ limbsVal t.cfg.W (b.limbs t.cfg.W) = b.mag ∧
    1 ≤ b.size t.cfg.W ∧ b.size t.cfg.W ≤ b.room.toNat ∧
    (∀ i, b.size t.cfg.W ≤ i → (b.limbs t.cfg.W).getD i 0 = 0) ∧
    (b.mag ≠ 0 → (b.limbs t.cfg.W).getD (b.size t.cfg.W - 1) 0 ≠ 0) ∧
    (b.mag = 0 → b.size t.cfg.W = 1 ∧ b.neg = false)

/-! ## Montgomery engine commands -/

/-- R157. -/
def Obligations.MeCreateConstructsAnEngine : Prop :=
  ∀ (s : State) (ed : EngIdx) (maxbits : BitVec 16),
    ((maxbits.toNat = 0 ∨ s.cfg.LMAX * s.cfg.W < maxbits.toNat) →
      Raises (.meCreate ed maxbits) s .badArgument) ∧
    (1 ≤ maxbits.toNat → maxbits.toNat ≤ s.cfg.LMAX * s.cfg.W →
      ∃ t, exec (.meCreate ed maxbits) s = .next t ∧ AnswersOk s 0x20 0 [] t ∧
        WritesMe s ed (.created ⟨maxbits, stepLookup s.cfg.ksel maxbits.toNat⟩) t ∧
        t.bn = s.bn ∧ KeepsScr s t ∧ KeepsInput s t ∧ Counts s [] 0 0 0 0 0 t)

/-- R158, for a constructed engine, bound or not: the modulus and its constants, each by the property that defines
it. `W` is a legal limb width. -/
def Obligations.MeInitBindsTheModulus : Prop :=
  ∀ (s : State) (ed : EngIdx) (ra : BnIdx), 1 ≤ s.cfg.W →
    ((s.bnAt ra = .none ∨ s.meAt ed = .none) → Raises (.meInit ed ra) s .contextMismatch) ∧
    ∀ a c, s.bnAt ra = .valid a → (s.meAt ed = .created c ∨ ∃ m, s.meAt ed = .ready c m) →
      ((a.neg = true ∨ a.mag % 2 = 0) → Raises (.meInit ed ra) s .badArgument) ∧
      (a.neg = false → a.mag % 2 = 1 → c.maxbits.toNat < bitlen a.mag →
        Raises (.meInit ed ra) s .outOfRange) ∧
      (a.neg = false → a.mag % 2 = 1 → bitlen a.mag ≤ c.maxbits.toNat →
        ∃ t m, exec (.meInit ed ra) s = .next t ∧ AnswersOk s 0x21 0 [] t ∧ WritesMe s ed (.ready c m) t ∧
          m.M = a.mag ∧ m.modbits.toNat = bitlen a.mag ∧ m.L.toNat = sig s.cfg.W a.mag ∧
          m.R = 2 ^ (sig s.cfg.W a.mag * s.cfg.W) % a.mag ∧ m.RR = m.R * m.R % a.mag ∧
          a.mag * m.n0 % 2 ^ s.cfg.W = 2 ^ s.cfg.W - 1 ∧ m.n0 < 2 ^ s.cfg.W ∧
          t.bn = s.bn ∧ KeepsScr s t ∧ KeepsInput s t ∧ Counts s [] 0 0 0 0 0 t)

/-- R159: what `ME_GET` answers in each state of the engine, for every value of its selector. -/
def Obligations.MeGetReportsTheEngine : Prop :=
  ∀ (s : State) (ed : EngIdx) (sel : BitVec 4),
    (4 < sel.toNat → Raises (.meGet ed sel) s .illegalCommand) ∧
    (sel.toNat ≤ 4 → s.meAt ed = .none → Raises (.meGet ed sel) s .contextMismatch) ∧
    (∀ c, s.meAt ed = .created c → 1 ≤ sel.toNat → sel.toNat ≤ 4 →
      Raises (.meGet ed sel) s .incompleteContext) ∧
    (∀ c, s.meAt ed = .created c → sel = 0 →
      exec (.meGet ed sel) s =
        .next { s with
          status := 0x2200
          cnt := { s.cnt with cmd := s.cnt.cmd + 1 }
          respStream := s.respStream ++
            [⟨.ok, 0x22,
              BitVec.ofNat 64 (2 ^ 62 + c.ksel.toNat * 2 ^ 48 + c.maxbits.toNat * 2 ^ 16), []⟩] }) ∧
    (∀ c m payload, s.meAt ed = .ready c m →
      (sel, payload) ∈
        ([(0, []), (1, limbsOf s.cfg.W m.L.toNat m.M), (2, limbsOf s.cfg.W m.L.toNat m.R),
          (3, limbsOf s.cfg.W m.L.toNat m.RR), (4, limbsOf s.cfg.W 1 m.n0)] : List (BitVec 4 × Limbs)) →
      exec (.meGet ed sel) s =
        .next { s with
          status := 0x2200
          cnt := { s.cnt with cmd := s.cnt.cmd + 1 }
          respStream := s.respStream ++
            [⟨.ok, 0x22,
              BitVec.ofNat 64 (2 * 2 ^ 62 + c.ksel.toNat * 2 ^ 48 + c.maxbits.toNat * 2 ^ 16 + m.modbits.toNat),
              payload⟩] })

/-- R160 to R164. Where the checks of R150 pass, the result is the `v` in `[0, M)` with `v · 2^(L·W) ≡ T (mod M)`, that is
`(T · Rinv) mod M`; where one fails, the first in the order of R245 is raised. -/
def Obligations.MontgomeryCommandsComputeTheirKernel : Prop :=
  (∀ (i : Instr) (s : State), i.op ∈ [.meEnc, .meDec, .meMul, .meSqr, .meRed] → RaisesFirstCause i s) ∧
  ∀ (s : State) (rd : BnIdx) (ed : EngIdx) (d : BigNum) (c : EngineCfg) (m : Modulus)
    (i : Instr) (op : BitVec 8) (ev : KEvent) (T : Nat) (sec : Bool),
    s.Inv → s.bnAt rd = .valid d → s.meAt ed = .ready c m → m.L.toNat ≤ d.room.toNat →
    MontCommand s m rd ed i op ev T sec →
      ∃ (t : State) (v : Nat), exec i s = .next t ∧ AnswersOk s op 0 [] t ∧
        v < m.M ∧ v * 2 ^ (m.L.toNat * s.cfg.W) % m.M = T % m.M ∧
        WritesBn s rd ⟨d.room, false, sec, v⟩ t ∧
        t.me = s.me ∧ KeepsScr s t ∧ KeepsInput s t ∧
        Counts s [ev] (if ev = .mul then 1 else 0) (if ev = .sqr then 1 else 0) (if ev = .red then 1 else 0) 0 0 t

/-- R165, and `MontRed` of a product is `MontMul` (R164): the laws of the kernels of a READY engine. -/
def Obligations.KernelLawsOfAReadyEngine : Prop :=
  ∀ (s : State) (ed : EngIdx) (c : EngineCfg) (m : Modulus) (x y : Nat),
    s.Inv → s.meAt ed = .ready c m → x < m.M → y < m.M →
      dec s.cfg.W m (enc s.cfg.W m x) = x ∧
      dec s.cfg.W m (montMul s.cfg.W m (enc s.cfg.W m x) (enc s.cfg.W m y)) = x * y % m.M ∧
      montMul s.cfg.W m x m.R = x ∧
      montSqr s.cfg.W m x = montMul s.cfg.W m x x ∧
      montRed s.cfg.W m (x * y) = montMul s.cfg.W m x y ∧
      enc s.cfg.W m x = x * 2 ^ (m.L.toNat * s.cfg.W) % m.M

/-- R107: the four commands of `MONT_MULMOD` leave the ordinary product `x·y mod M` in `rd`, when the temporary is
neither the destination nor the second source (it is written before that source is read). -/
def Obligations.MontMulmodGivesTheOrdinaryProduct : Prop :=
  ∀ (s : State) (rd ra rb rt : BnIdx) (ed : EngIdx) (d a b u : BigNum) (c : EngineCfg) (m : Modulus),
    s.Inv → s.bnAt rd = .valid d → s.bnAt ra = .valid a → s.bnAt rb = .valid b → s.bnAt rt = .valid u →
    s.meAt ed = .ready c m → rt ≠ rd → rt ≠ rb →
    a.neg = false → a.mag < m.M → b.neg = false → b.mag < m.M →
    m.L.toNat ≤ d.room.toNat → m.L.toNat ≤ u.room.toNat →
      ∃ t, issue (expandPseudo (.montMulmod rd ra rb ed rt)) s = .next t ∧
        t.bnAt rd = .valid ⟨d.room, false, a.sec || b.sec, a.mag * b.mag % m.M⟩ ∧
        (∀ r, r ≠ rd → r ≠ rt → t.bnAt r = s.bnAt r) ∧ t.me = s.me

/-! ## Exponentiation commands -/

/-- R188: "`EXP_BIN` with `BN[rb].sec = 1` raises `BadArgument`", whenever its contexts are there and complete; the base's
`sec` bit does not matter, and `EXP_CT` and `EXP_WIN` accept any. -/
def Obligations.SecrecyDecidesWhichMethodIsLegal : Prop :=
  (∀ (s : State) (rd ra rb : BnIdx) (ed : EngIdx) (d a b : BigNum) (c : EngineCfg) (m : Modulus),
    s.bnAt rd = .valid d → s.bnAt ra = .valid a → s.bnAt rb = .valid b → s.meAt ed = .ready c m →
    b.sec = true → Raises (.expBin rd ra rb ed) s .badArgument) ∧
  (∀ (s : State) (rd ra rb : BnIdx) (ed : EngIdx) (sbase slen : BitVec 16) (d a b : BigNum) (m : Modulus),
    ExpReady s rd ra rb ed d a b m →
      (b.sec = false → ∃ t, exec (.expBin rd ra rb ed) s = .next t ∧ AnswersOk s 0x30 0 [] t) ∧
      (∃ t, exec (.expCt rd ra rb ed) s = .next t ∧ AnswersOk s 0x31 0 [] t) ∧
      (WindowFits s b m sbase slen →
        ∃ t, exec (.expWin rd ra rb ed sbase slen) s = .next t ∧ AnswersOk s 0x32 0 [] t))

/-- R183: the value, the trace and the counts of the binary method. -/
def Obligations.ExpBinIsTheBinaryMethod : Prop :=
  (∀ (s : State) (rd ra rb : BnIdx) (ed : EngIdx), RaisesFirstCause (.expBin rd ra rb ed) s) ∧
  ∀ (s : State) (rd ra rb : BnIdx) (ed : EngIdx) (d a b : BigNum) (m : Modulus),
    s.Inv → ExpReady s rd ra rb ed d a b m → b.sec = false → 1 ≤ a.mag → 1 ≤ b.mag →
      ∃ t, exec (.expBin rd ra rb ed) s = .next t ∧ AnswersOk s 0x30 0 [] t ∧
        WritesBn s rd ⟨d.room, false, a.sec, a.mag ^ b.mag % m.M⟩ t ∧
        t.me = s.me ∧ KeepsScr s t ∧ KeepsInput s t ∧
        Counts s
          (.mul :: ((List.range (bitlen b.mag)).reverse.flatMap fun i =>
              if b.mag.testBit i then [.sqr, .mul] else [.sqr]) ++ [.red])
          (1 + popcount (bitlen b.mag) b.mag) (bitlen b.mag) 1 0 0 t

/-- R184: the value, the trace and the counts of the constant-time method, for any secrecy. -/
def Obligations.ExpCtIsTheConstantTimeMethod : Prop :=
  (∀ (s : State) (rd ra rb : BnIdx) (ed : EngIdx), RaisesFirstCause (.expCt rd ra rb ed) s) ∧
  ∀ (s : State) (rd ra rb : BnIdx) (ed : EngIdx) (d a b : BigNum) (m : Modulus),
    s.Inv → ExpReady s rd ra rb ed d a b m → 1 ≤ a.mag → 1 ≤ b.mag →
      ∃ t, exec (.expCt rd ra rb ed) s = .next t ∧ AnswersOk s 0x31 0 [] t ∧
        WritesBn s rd ⟨d.room, false, a.sec || b.sec, a.mag ^ b.mag % m.M⟩ t ∧
        t.me = s.me ∧ KeepsScr s t ∧ KeepsInput s t ∧
        Counts s (.mul :: (List.replicate (bitlen b.mag) [.sqr, .sel 2, .mul]).flatten ++ [.red])
          (1 + bitlen b.mag) (bitlen b.mag) 1 (bitlen b.mag) 0 t

/-- R185 with R190, R193 and R195: the value, the trace and the counts of the windowed method, and that the table's
limbs, and no others, are left zero. `g` is the number of groups. -/
def Obligations.ExpWinIsTheWindowedMethod : Prop :=
  (∀ (s : State) (rd ra rb : BnIdx) (ed : EngIdx) (sbase slen : BitVec 16),
    RaisesFirstCause (.expWin rd ra rb ed sbase slen) s) ∧
  ∀ (s : State) (rd ra rb : BnIdx) (ed : EngIdx) (sbase slen : BitVec 16) (d a b : BigNum) (m : Modulus)
    (w g : Nat),
    s.Inv → ExpReady s rd ra rb ed d a b m → WindowFits s b m sbase slen → 1 ≤ a.mag → 1 ≤ b.mag →
    w = wsel s.cfg (bitlen b.mag) → g = (bitlen b.mag + w - 1) / w →
      ∃ t, exec (.expWin rd ra rb ed sbase slen) s = .next t ∧ AnswersOk s 0x32 0 [] t ∧
        WritesBn s rd ⟨d.room, false, a.sec || b.sec, a.mag ^ b.mag % m.M⟩ t ∧
        t.me = s.me ∧ KeepsInput s t ∧
        (∀ x, Memory.read t.scr x =
          if sbase.toNat ≤ x ∧ x < sbase.toNat + 2 ^ w * m.L.toNat then 0 else Memory.read s.scr x) ∧
        Counts s
          (List.replicate (2 ^ w - 1) .mul ++
            (List.replicate g (List.replicate w .sqr ++ [.sel (2 ^ w), .mul])).flatten ++ [.red])
          (2 ^ w - 1 + g) (g * w) 1 g 0 t

/-- R194, R83: the scratch accesses of `EXP_WIN`. The table writes cover exactly the window's `need` limbs (in an
order the model has chosen, log entry 8, of which nothing is said here); then one ascending sweep of all of them
per group, whatever the exponent's bits; then the wipe. -/
def Obligations.ExpWinSweepsTheWholeTable : Prop :=
  ∀ (s : State) (rd ra rb : BnIdx) (ed : EngIdx) (sbase slen : BitVec 16) (d a b : BigNum) (m : Modulus)
    (w need : Nat),
    ExpReady s rd ra rb ed d a b m → WindowFits s b m sbase slen → 1 ≤ a.mag → 1 ≤ b.mag →
    w = wsel s.cfg (bitlen b.mag) → need = 2 ^ w * m.L.toNat →
      ∃ t ws, exec (.expWin rd ra rb ed sbase slen) s = .next t ∧
        ws.Perm ((List.range need).map fun i => ScrAccess.write (sbase.toNat + i)) ∧
        t.scrTrace = s.scrTrace ++ ws ++
          (List.replicate ((bitlen b.mag + w - 1) / w)
            ((List.range need).map fun i => ScrAccess.read (sbase.toNat + i))).flatten ++
          (List.range need).map fun i => ScrAccess.write (sbase.toNat + i)

/-- R193, R194, R22: on a memory holding the interleaved table, the oblivious lookup of slot `k` is entry `k`. -/
def Obligations.LookupReturnsTheEntry : Prop :=
  ∀ (W L sbase w k : Nat) (T : List Nat) (mem : Memory), 1 ≤ W → W ≤ 64 → k < 2 ^ w → T.length = 2 ^ w →
    (∀ x ∈ T, x < 2 ^ (W * L)) → Memory.wf mem = true →
      lookupVal W L (Memory.writeAll mem (tableWrites W L sbase w T)) sbase w k = T.getD k 0

/-- R22: the masked select is a select, with the same operations either way. -/
def Obligations.MaskedSelectIsSelect : Prop :=
  ∀ (W : Nat) (c : Bool) (u v : Limbs), 1 ≤ W → W ≤ 64 → u.length = v.length →
    (∀ x ∈ u, x.toNat < 2 ^ W) → (∀ x ∈ v, x.toNat < 2 ^ W) →
      ctSelect W c u v = if c then u else v

/-- R186, R181: the three methods write one value, for every exponent and base below the modulus: `R` when `E = 0`,
`0` when `E > 0` and `X = 0`, `X^E mod M` otherwise. -/
def Obligations.TheThreeMethodsAgree : Prop :=
  ∀ (s : State) (rd ra rb : BnIdx) (ed : EngIdx) (sbase slen : BitVec 16) (d a b : BigNum) (m : Modulus)
    (v : Nat),
    s.Inv → ExpReady s rd ra rb ed d a b m →
    v = (if b.mag = 0 then m.R else if a.mag = 0 then 0 else a.mag ^ b.mag % m.M) →
      (b.sec = false → ∃ t, exec (.expBin rd ra rb ed) s = .next t ∧ AnswersOk s 0x30 0 [] t ∧
        WritesBn s rd ⟨d.room, false, a.sec || b.sec, v⟩ t) ∧
      (∃ t, exec (.expCt rd ra rb ed) s = .next t ∧ AnswersOk s 0x31 0 [] t ∧
        WritesBn s rd ⟨d.room, false, a.sec || b.sec, v⟩ t) ∧
      (WindowFits s b m sbase slen →
        ∃ t, exec (.expWin rd ra rb ed sbase slen) s = .next t ∧ AnswersOk s 0x32 0 [] t ∧
          WritesBn s rd ⟨d.room, false, a.sec || b.sec, v⟩ t)

/-- R181: "In a special case no kernel runs: no event is appended, no counter but `CNT_CMD` changes, and `SCR` is
not touched." -/
def Obligations.SpecialCasesRunNoKernel : Prop :=
  ∀ (s : State) (rd ra rb : BnIdx) (ed : EngIdx) (sbase slen : BitVec 16) (d a b : BigNum) (m : Modulus)
    (i : Instr) (op : BitVec 8),
    ExpReady s rd ra rb ed d a b m → (b.mag = 0 ∨ a.mag = 0) →
    ((i = .expBin rd ra rb ed ∧ op = 0x30 ∧ b.sec = false) ∨ (i = .expCt rd ra rb ed ∧ op = 0x31) ∨
      (i = .expWin rd ra rb ed sbase slen ∧ op = 0x32 ∧ WindowFits s b m sbase slen)) →
      ∃ t, exec i s = .next t ∧ AnswersOk s op 0 [] t ∧
        WritesBn s rd ⟨d.room, false, a.sec || b.sec, if b.mag = 0 then m.R else 0⟩ t ∧
        t.me = s.me ∧ KeepsScr s t ∧ KeepsInput s t ∧ Counts s [] 0 0 0 0 0 t

/-- R187: there are functions of `(X = 0, n, w, L, sbase)` alone that give the events appended, the scratch accesses
and the amount added to every counter, for every completed `EXP_CT` and `EXP_WIN` (for `EXP_CT`, `w` and `sbase`
do not matter). They do not see the values of `X`, `E` or `M`. The record of accesses is the model's own, and the order of
the table writes in it the model's choice (log entry 8). -/
def Obligations.OperationCountsAreInvariant : Prop :=
  ∃ (evCt evWin : Bool → Nat → Nat → Nat → Nat → List KEvent)
    (accWin : Bool → Nat → Nat → Nat → Nat → List ScrAccess)
    (mul sqr red sel : Bool → Bool → Nat → Nat → Nat → Nat → Nat),
    (∀ (s : State) (rd ra rb : BnIdx) (ed : EngIdx) (d a b : BigNum) (m : Modulus) (w sbase : Nat),
      ExpReady s rd ra rb ed d a b m →
        ∃ t, exec (.expCt rd ra rb ed) s = .next t ∧ t.scrTrace = s.scrTrace ∧
          Counts s (evCt (a.mag = 0) (bitlen b.mag) w m.L.toNat sbase)
            (mul false (a.mag = 0) (bitlen b.mag) w m.L.toNat sbase)
            (sqr false (a.mag = 0) (bitlen b.mag) w m.L.toNat sbase)
            (red false (a.mag = 0) (bitlen b.mag) w m.L.toNat sbase)
            (sel false (a.mag = 0) (bitlen b.mag) w m.L.toNat sbase) 0 t) ∧
    (∀ (s : State) (rd ra rb : BnIdx) (ed : EngIdx) (sbase slen : BitVec 16) (d a b : BigNum) (m : Modulus)
      (w : Nat),
      ExpReady s rd ra rb ed d a b m → WindowFits s b m sbase slen → w = wsel s.cfg (bitlen b.mag) →
        ∃ t, exec (.expWin rd ra rb ed sbase slen) s = .next t ∧
          t.scrTrace = s.scrTrace ++ accWin (a.mag = 0) (bitlen b.mag) w m.L.toNat sbase.toNat ∧
          Counts s (evWin (a.mag = 0) (bitlen b.mag) w m.L.toNat sbase.toNat)
            (mul true (a.mag = 0) (bitlen b.mag) w m.L.toNat sbase.toNat)
            (sqr true (a.mag = 0) (bitlen b.mag) w m.L.toNat sbase.toNat)
            (red true (a.mag = 0) (bitlen b.mag) w m.L.toNat sbase.toNat)
            (sel true (a.mag = 0) (bitlen b.mag) w m.L.toNat sbase.toNat) 0 t)

/-- R196: with `w = 1`, `EXP_WIN` is `EXP_CT` in its registers, its trace and its counters. -/
def Obligations.WindowOfWidthOneIsTheConstantTimeMethod : Prop :=
  ∀ (s : State) (rd ra rb : BnIdx) (ed : EngIdx) (sbase slen : BitVec 16) (d a b : BigNum) (m : Modulus),
    s.Inv → ExpReady s rd ra rb ed d a b m → WindowFits s b m sbase slen →
    wsel s.cfg (bitlen b.mag) = 1 →
      ∃ t t', exec (.expWin rd ra rb ed sbase slen) s = .next t ∧ exec (.expCt rd ra rb ed) s = .next t' ∧
        t.bn = t'.bn ∧ t.me = t'.me ∧ t.trace = t'.trace ∧ t.cnt = t'.cnt

/-! ## CRT recombination -/

/-- R211 with R213: the value of the formula, the fixed trace and counts, for every input that passes R210. -/
def Obligations.CrtRecombComputesItsFormula : Prop :=
  (∀ (s : State) (rd ra rb rc : BnIdx) (ed ee : EngIdx), RaisesFirstCause (.crtRecomb rd ra rb rc ed ee) s) ∧
  ∀ (s : State) (rd ra rb rc : BnIdx) (ed ee : EngIdx) (d a b q : BigNum) (cp cq : EngineCfg) (mp mq : Modulus),
    s.Inv → s.bnAt rd = .valid d → s.bnAt ra = .valid a → s.bnAt rb = .valid b → s.bnAt rc = .valid q →
    s.meAt ed = .ready cp mp → s.meAt ee = .ready cq mq →
    a.neg = false → a.mag < mp.M → b.neg = false → b.mag < mq.M → q.neg = false → q.mag < mp.M →
    mp.L.toNat + mq.L.toNat ≤ d.room.toNat →
      ∃ (t : State) (y : Nat), exec (.crtRecomb rd ra rb rc ed ee) s = .next t ∧ AnswersOk s 0x40 0 [] t ∧
        (y : Int) = b.mag + ((a.mag - b.mag : Int) * q.mag % mp.M) * mq.M ∧ y < mp.M * mq.M ∧
        WritesBn s rd ⟨d.room, false, a.sec || b.sec || q.sec, y⟩ t ∧
        t.me = s.me ∧ KeepsScr s t ∧ KeepsInput s t ∧
        Counts s [.sub, .addm, .mul, .mul, .add] 2 0 0 0 3 t

/-- R212: when `gcd(P, Q) = 1` and `qInv·Q ≡ 1 (mod P)`, the value is the unique `y` below `P·Q` with the two given
residues; and when `P`, `Q` are primes and the exponents reduce `D`, it is `c^D mod (P·Q)`. The exponents
`D`, `dP`, `dQ` are taken positive: with a zero exponent the congruence fails where the prime divides `c`. -/
def Obligations.CrtRecombinationIsCorrect : Prop :=
  ∀ (s : State) (ed ee : EngIdx) (cp cq : EngineCfg) (mp mq : Modulus) (xp xq qInv : Nat),
    s.Inv → s.meAt ed = .ready cp mp → s.meAt ee = .ready cq mq →
    xp < mp.M → xq < mq.M → qInv < mp.M → Nat.gcd mp.M mq.M = 1 → qInv * mq.M % mp.M = 1 % mp.M →
      (crtValue s.cfg.W mp mq xp xq qInv < mp.M * mq.M ∧
        crtValue s.cfg.W mp mq xp xq qInv % mp.M = xp ∧ crtValue s.cfg.W mp mq xp xq qInv % mq.M = xq ∧
        ∀ y, y < mp.M * mq.M → y % mp.M = xp → y % mq.M = xq → y = crtValue s.cfg.W mp mq xp xq qInv) ∧
      (∀ c dP dQ D, Nat.Prime mp.M → Nat.Prime mq.M → 1 ≤ D → 1 ≤ dP → 1 ≤ dQ →
        dP % (mp.M - 1) = D % (mp.M - 1) → dQ % (mq.M - 1) = D % (mq.M - 1) →
        xp = c ^ dP % mp.M → xq = c ^ dQ % mq.M →
          crtValue s.cfg.W mp mq xp xq qInv = c ^ D % (mp.M * mq.M))

/-! ## The scratch memory -/

/-- R70: "`MemRead(a, 1)` returns `SCR[a]`; `MemWrite(a, 1, v)` sets `SCR[a] <- v`", and no other limb; "Only `EXP_WIN`
reaches `SCR`". For the soft reset, which clause 2 takes in, R273 leaves what `SCR` holds unspecified, and that it is
kept is the model's choice (log entry 6). -/
def Obligations.ScratchReadsBackWhatWasWritten : Prop :=
  (∀ (m : Memory) (a b : Nat) (v : Limb), Memory.wf m = true →
    Memory.read (Memory.write m a v) b = if b = a then v else Memory.read m b) ∧
  (∀ (i : Instr) (s t : State), exec i s = .next t → i.op ≠ .expWin → t.scr = s.scr)

/-! ## The whole machine -/

/-- The invariant of a CORE instance is kept by every step, from every state that meets it. -/
def Obligations.StepKeepsTheInvariant : Prop :=
  ∀ s t : State, s.Inv → step s = .next t → t.Inv

/-- Every step of every state is safe: no fault and no refusal (93_implementation_defined.md, end of part 2). -/
def Obligations.EveryStepIsSafe : Prop := ∀ s : State, SafeStep s

/-- R240, R52, R90: every command answers with exactly one response, under its own opcode, and `STATUS` records its
code and opcode; the unread beats and the parameters are left alone. That a soft reset too leaves the unread beats alone
is the model's choice (log entry 3; R280 points to it). -/
def Obligations.EveryCommandAnswersOnce : Prop :=
  ∀ (i : Instr) (s : State), ∃ t r, exec i s = .next t ∧
    t.respStream = s.respStream ++ [r] ∧ r.op = i.op.code ∧
    t.status.toNat = i.op.code.toNat * 256 + r.status.code.toNat ∧ KeepsInput s t

/-- R242, R245: the status answered is the first, in the order of R245, of the causes that apply, and `OK` exactly
when none does. -/
def Obligations.StatusIsTheFirstCauseThatApplies : Prop :=
  ∀ (i : Instr) (s : State), ∃ t r, exec i s = .next t ∧ t.respStream = s.respStream ++ [r] ∧
    (r.status = .ok ∨ HasCause i s r.status) ∧ ∀ st, HasCause i s st → r.status.rank ≤ st.rank

/-- R244, R249: a command that answers an error has changed nothing but `STATUS` and the response stream. -/
def Obligations.ErrorsChangeNothingButStatus : Prop :=
  ∀ (i : Instr) (s t : State) (r : Response), exec i s = .next t → t.respStream = s.respStream ++ [r] →
    r.status ≠ .ok → Raised s i.op.code r.status t

/-- R243: no step produces `InsufficientEntropy` or `InternalError`. -/
def Obligations.EntropyAndInternalErrorsAreNeverRaised : Prop :=
  ∀ (s t : State) (rs : List Response), step s = .next t → t.respStream = s.respStream ++ rs →
    ∀ r ∈ rs, r.status ≠ .insufficientEntropy ∧ r.status ≠ .internalError

/-- R78, R280: commands standing in the stream are executed one at a time, to completion, in order; the result is as
if each had been sent after the response to the one before, and the responses come in command order, one each. That the
commands sent ahead stand in the state is the model's way of holding the stream (log entry 3). -/
def Obligations.CommandsRunInOrder : Prop :=
  ∀ (is : List Instr) (s : State) (rest : List Beat), (∀ i ∈ is, i.encodable = true) →
    s.cmdStream = is.flatMap encode ++ rest →
      Host.Core.run Sys2Proof.core is.length s = runCommands is { s with cmdStream := rest } ∧
      ∃ (t : State) (rs : List Response), Host.Core.run Sys2Proof.core is.length s = .next t ∧
        t.cmdStream = rest ∧ t.respStream = s.respStream ++ rs ∧ rs.map (·.op) = is.map (·.op.code)

/-- R56, R23: outside `CSR_WR`, every command appends to `TRACE` and adds to each counter exactly the events it
appended that belong to it; `CNT_CMD` gains one for an `OK` command outside the system family; an error and a command of
the system family add nothing. -/
def Obligations.CountersCountTheTrace : Prop :=
  ∀ (i : Instr) (s : State), i.op ≠ .csrWr →
    ∃ t r evs, exec i s = .next t ∧ t.respStream = s.respStream ++ [r] ∧ t.trace = s.trace ++ evs ∧
      t.cnt.mul = s.cnt.mul + countEvents (· == .mul) evs ∧
      t.cnt.sqr = s.cnt.sqr + countEvents (· == .sqr) evs ∧
      t.cnt.red = s.cnt.red + countEvents (· == .red) evs ∧
      t.cnt.sel = s.cnt.sel + countEvents KEvent.inSel evs ∧
      t.cnt.add = s.cnt.add + countEvents KEvent.inAdd evs ∧
      t.cnt.cmd = s.cnt.cmd +
        (if r.status = .ok ∧ i.op ≠ .nop ∧ i.op ≠ .csrRd ∧ i.op ≠ .scrNeed then 1 else 0) ∧
      (r.status ≠ .ok ∨ i.op ∈ [.nop, .csrRd, .scrNeed] → evs = [])

/-- R45: no command but `ME_CREATE`, `ME_INIT` and the soft reset writes any field of an engine. -/
def Obligations.OnlyEngineCommandsWriteEngines : Prop :=
  ∀ (i : Instr) (s t : State), exec i s = .next t → i.op ≠ .meCreate → i.op ≠ .meInit →
    (∀ imm, i = .csrWr 0x09 imm → imm.getLsbD 0 = false) → t.me = s.me

/-- R35, R44: outside a soft reset, `room` changes only by `BN_CREATE` of that register, and an engine's `maxbits` and
`ksel` only by `ME_CREATE` of that engine. -/
def Obligations.RoomAndKernelSetAreFixedAtConstruction : Prop :=
  ∀ (i : Instr) (s t : State), exec i s = .next t →
    (∀ imm, i = .csrWr 0x09 imm → imm.getLsbD 0 = false) →
      (∀ r b, s.bnAt r = .valid b → (∀ room, i ≠ .bnCreate r room) →
        ∃ b', t.bnAt r = .valid b' ∧ b'.room = b.room) ∧
      (∀ k c, (s.meAt k = .created c ∨ ∃ m, s.meAt k = .ready c m) → (∀ mb, i ≠ .meCreate k mb) →
        t.meAt k = .created c ∨ ∃ m, t.meAt k = .ready c m)

/-- R34, R252: the `sec` bit "is read by `EXP_BIN` alone" and "reported by `BN_GET`": every other command does the same
whatever the `sec` bits are, up to the `sec` bits it leaves. -/
def Obligations.SecrecySteersOnlyExpBin : Prop :=
  ∀ (i : Instr) (s : State), i.op ≠ .expBin → i.op ≠ .bnGet →
    ∃ t t', exec i s = .next t ∧ exec i (forgetSec s) = .next t' ∧ forgetSec t' = forgetSec t

/-- R60, R75: "No response of any command depends on what `SCR` held when the command began"; nor does anything else
but `SCR` itself. -/
def Obligations.NothingDependsOnOldScratch : Prop :=
  ∀ (i : Instr) (s : State) (m m' : Memory), Memory.wf m = true → Memory.wf m' = true →
    ∃ t t', exec i { s with scr := m } = .next t ∧ exec i { s with scr := m' } = .next t' ∧
      t' = { t with scr := t'.scr }

/-! ## Limb-level work -/

/-- R213: "The limb-level work is a function of `LP` and `LQ` alone", on the kernel set of the engine of `P`, which R151
lets `cfg.limbops` depend on: every input that passes R210 runs the same passes, at lengths made of `LP` and `LQ`, and
their work is the sum said here. The same of the kernels R187 speaks of: a completed Montgomery command, `EXP_CT` or
`EXP_WIN` does its kernel counts times `cfg.limbops`, none in a special case of R181. That `limbTrace` records the passes, and the lengths of the `rem`
and of the last add, are the model's (log entry 18); so are a `limbops` term for selects and lookups, and what the other
passes cost, an adder pass the `n` limb steps of R20 (log entry 10). -/
def Obligations.LimbLevelWorkIsAFunctionOfLengths : Prop :=
  (∀ (s : State) (rd ra rb rc : BnIdx) (ed ee : EngIdx) (d a b q : BigNum) (cp cq : EngineCfg) (mp mq : Modulus)
    (LP LQ : Nat),
    s.bnAt rd = .valid d → s.bnAt ra = .valid a → s.bnAt rb = .valid b → s.bnAt rc = .valid q →
    s.meAt ed = .ready cp mp → s.meAt ee = .ready cq mq →
    a.neg = false → a.mag < mp.M → b.neg = false → b.mag < mq.M → q.neg = false → q.mag < mp.M →
    LP = mp.L.toNat → LQ = mq.L.toNat → LP + LQ ≤ d.room.toNat →
      ∃ t, exec (.crtRecomb rd ra rb rc ed ee) s = .next t ∧
        Counts s [.sub, .addm, .mul, .mul, .add] 2 0 0 0 3 t ∧
        t.limbTrace = s.limbTrace ++
          [.rem LQ LP, .adder LP, .adder LP, .kernel cp.ksel .mul LP, .kernel cp.ksel .mul LP, .mul LP LQ,
            .adder (LP + LQ)] ∧
        limbWork t.limbTrace = limbWork s.limbTrace + Config.remLimbops LQ LP + 2 * LP +
          2 * Config.limbops cp.ksel .mul LP + Config.mulLimbops LP LQ + (LP + LQ)) ∧
  (∀ (s : State) (rd : BnIdx) (ed : EngIdx) (d : BigNum) (c : EngineCfg) (m : Modulus) (i : Instr) (op : BitVec 8)
    (ev : KEvent) (k : Config.Kernel) (T : Nat) (sec : Bool),
    s.bnAt rd = .valid d → s.meAt ed = .ready c m → m.L.toNat ≤ d.room.toNat → MontCommand s m rd ed i op ev T sec →
    (ev, k) ∈ ([(.mul, .mul), (.sqr, .sqr), (.red, .red)] : List (KEvent × Config.Kernel)) →
      ∃ t, exec i s = .next t ∧
        limbWork t.limbTrace = limbWork s.limbTrace + Config.limbops c.ksel k m.L.toNat) ∧
  (∀ (s : State) (rd ra rb : BnIdx) (ed : EngIdx) (sbase slen : BitVec 16) (d a b : BigNum) (m : Modulus),
    ExpReady s rd ra rb ed d a b m → (b.mag = 0 ∨ a.mag = 0) →
      (∃ t, exec (.expCt rd ra rb ed) s = .next t ∧ t.limbTrace = s.limbTrace) ∧
      (WindowFits s b m sbase slen →
        ∃ t, exec (.expWin rd ra rb ed sbase slen) s = .next t ∧ t.limbTrace = s.limbTrace)) ∧
  ∀ (s : State) (rd ra rb : BnIdx) (ed : EngIdx) (sbase slen : BitVec 16) (d a b : BigNum) (c : EngineCfg)
    (m : Modulus) (n w g L : Nat),
    ExpReady s rd ra rb ed d a b m → s.meAt ed = .ready c m → 1 ≤ a.mag → 1 ≤ b.mag →
    n = bitlen b.mag → w = wsel s.cfg n → g = (n + w - 1) / w → L = m.L.toNat →
      (∃ t, exec (.expCt rd ra rb ed) s = .next t ∧
        limbWork t.limbTrace = limbWork s.limbTrace + (1 + n) * Config.limbops c.ksel .mul L +
          n * Config.limbops c.ksel .sqr L + n * Config.limbops c.ksel (.sel 2) L + Config.limbops c.ksel .red L) ∧
      (WindowFits s b m sbase slen →
        ∃ t, exec (.expWin rd ra rb ed sbase slen) s = .next t ∧
          limbWork t.limbTrace = limbWork s.limbTrace + (2 ^ w - 1 + g) * Config.limbops c.ksel .mul L +
            g * w * Config.limbops c.ksel .sqr L + g * Config.limbops c.ksel (.sel (2 ^ w)) L +
            Config.limbops c.ksel .red L)
end

