-- ==== Sys2Proof/Laws/Arith.lean ====
section
/-!
SUPPORT. Laws of sizes, limb vectors, masks and the adder/subtractor (00_scope.md).
-/

namespace Sys2Proof.Machine

/-! ### Sizes -/

@[simp] theorem bitlen_zero : bitlen 0 = 0 := rfl

theorem bitlen_le_iff (x n : Nat) : bitlen x ≤ n ↔ x < 2 ^ n := by
  unfold bitlen
  split
  · next h => subst h; simp
  · next h => rw [Nat.succ_le_iff, Nat.log2_lt h]

theorem lt_two_pow_bitlen (x : Nat) : x < 2 ^ bitlen x := (bitlen_le_iff x _).1 le_rfl

theorem bitlen_pos {x : Nat} (h : x ≠ 0) : 1 ≤ bitlen x := by unfold bitlen; simp [h]

@[simp] theorem sig_zero (W : Nat) : sig W 0 = 1 := rfl

theorem ceilDiv_le_iff {W : Nat} (hW : 1 ≤ W) (x n : Nat) : ceilDiv x W ≤ n ↔ x ≤ W * n := by
  unfold ceilDiv
  rw [← Nat.lt_succ_iff, Nat.div_lt_iff_lt_mul hW, Nat.succ_mul, Nat.mul_comm n W]
  omega

/-- `sig` is the least positive number of limbs a number fits (R17). -/
theorem sig_le_iff {W : Nat} (hW : 1 ≤ W) (x n : Nat) : sig W x ≤ n ↔ 1 ≤ n ∧ x < 2 ^ (W * n) := by
  unfold sig
  split
  · next h => subst h; simp
  · next h =>
    rw [ceilDiv_le_iff hW, bitlen_le_iff]
    constructor
    · intro hx
      refine ⟨?_, hx⟩
      by_contra hn
      have : n = 0 := by omega
      subst this
      simp at hx
      exact h hx
    · exact And.right

theorem sig_pos {W : Nat} (hW : 1 ≤ W) (x : Nat) : 1 ≤ sig W x := ((sig_le_iff hW x _).1 le_rfl).1

theorem lt_two_pow_sig {W : Nat} (hW : 1 ≤ W) (x : Nat) : x < 2 ^ (W * sig W x) :=
  ((sig_le_iff hW x _).1 le_rfl).2

theorem sig_mono {W : Nat} (hW : 1 ≤ W) {x y : Nat} (h : x ≤ y) : sig W x ≤ sig W y :=
  (sig_le_iff hW _ _).2 ⟨sig_pos hW y, lt_of_le_of_lt h (lt_two_pow_sig hW y)⟩

/-- A number is at least the weight of its top limb. -/
theorem two_pow_le_of_sig {W : Nat} (hW : 1 ≤ W) {x : Nat} (h : x ≠ 0) : 2 ^ (W * (sig W x - 1)) ≤ x := by
  by_contra hc
  have hs := sig_pos hW x
  by_cases h1 : sig W x = 1
  · rw [h1] at hc; simp at hc; exact h hc
  · have := (sig_le_iff hW x (sig W x - 1)).2 ⟨by omega, by omega⟩
    omega

theorem sig_le_bitlen {W : Nat} (hW : 1 ≤ W) {x : Nat} (h : x ≠ 0) : sig W x ≤ bitlen x := by
  refine (sig_le_iff hW _ _).2 ⟨bitlen_pos h, lt_of_lt_of_le (lt_two_pow_bitlen x) ?_⟩
  exact Nat.pow_le_pow_right (by omega) (Nat.le_mul_of_pos_left _ hW)

theorem wsel_pos (c : Cfg) (n : Nat) : 1 ≤ wsel c n := le_max_left _ _

theorem two_le_two_pow {w : Nat} (h : 1 ≤ w) : 2 ≤ 2 ^ w := by
  calc 2 = 2 ^ 1 := rfl
    _ ≤ 2 ^ w := Nat.pow_le_pow_right (by omega) h

/-! ### Limbs -/

theorem limbVal_lt (W : Nat) (x : Limb) : limbVal W x < 2 ^ W := Nat.mod_lt _ (by positivity)

theorem limbVal_of_lt {W : Nat} {x : Limb} (h : x.toNat < 2 ^ W) : limbVal W x = x.toNat := Nat.mod_eq_of_lt h

@[simp] theorem limbsVal_nil (W : Nat) : limbsVal W [] = 0 := rfl
@[simp] theorem limbsVal_cons (W : Nat) (x : Limb) (v : Limbs) :
    limbsVal W (x :: v) = limbVal W x + 2 ^ W * limbsVal W v := rfl

theorem limbsVal_lt (W : Nat) (v : Limbs) : limbsVal W v < 2 ^ (W * v.length) := by
  induction v with
  | nil => simp
  | cons x v ih =>
    have hx := limbVal_lt W x
    simp only [limbsVal_cons, List.length_cons]
    rw [Nat.mul_succ, Nat.pow_add]
    nlinarith

theorem limbAt_toNat {W : Nat} (hW : W ≤ 64) (x i : Nat) : (limbAt W x i).toNat = x / 2 ^ (W * i) % 2 ^ W := by
  unfold limbAt
  rw [BitVec.toNat_ofNat]
  apply Nat.mod_eq_of_lt
  exact lt_of_lt_of_le (Nat.mod_lt _ (by positivity)) (Nat.pow_le_pow_right (by omega) hW)

theorem limbAt_lt {W : Nat} (hW : W ≤ 64) (x i : Nat) : (limbAt W x i).toNat < 2 ^ W := by
  rw [limbAt_toNat hW]; exact Nat.mod_lt _ (by positivity)

@[simp] theorem length_limbsOf (W n x : Nat) : (limbsOf W n x).length = n := by simp [limbsOf]

theorem limbsOf_zero (W x : Nat) : limbsOf W 0 x = [] := rfl

theorem limbsOf_succ (W n x : Nat) : limbsOf W (n + 1) x = limbAt W x 0 :: limbsOf W n (x / 2 ^ W) := by
  unfold limbsOf
  rw [List.range_succ_eq_map, List.map_cons, List.map_map]
  congr 1
  apply List.map_congr_left
  intro i _
  simp only [Function.comp, limbAt, Nat.div_div_eq_div_mul, ← Nat.pow_add]
  rw [show W * Nat.succ i = W + W * i by rw [Nat.mul_succ, Nat.add_comm]]

theorem limbsOf_lt {W : Nat} (hW : W ≤ 64) (n x : Nat) : ∀ y ∈ limbsOf W n x, y.toNat < 2 ^ W := by
  intro y hy
  obtain ⟨i, _, rfl⟩ := List.mem_map.1 hy
  exact limbAt_lt hW x i

/-- `limbs_n` keeps the low `n` limbs. -/
theorem limbsVal_limbsOf {W : Nat} (hW : W ≤ 64) (n x : Nat) : limbsVal W (limbsOf W n x) = x % 2 ^ (W * n) := by
  induction n generalizing x with
  | zero => simp [limbsOf_zero, Nat.mod_one]
  | succ n ih =>
    rw [limbsOf_succ, limbsVal_cons, ih, limbVal_of_lt (limbAt_lt hW x 0), limbAt_toNat hW]
    simp only [Nat.mul_zero, Nat.pow_zero, Nat.div_one]
    rw [Nat.mul_succ, Nat.add_comm (W * n), Nat.pow_add, Nat.mod_mul]

theorem limbsVal_limbsOf_of_lt {W : Nat} (hW : W ≤ 64) {n x : Nat} (h : x < 2 ^ (W * n)) :
    limbsVal W (limbsOf W n x) = x := by rw [limbsVal_limbsOf hW, Nat.mod_eq_of_lt h]

/-- A vector of true limbs is the limb vector of its value. -/
theorem limbsOf_limbsVal {W : Nat} (hW : W ≤ 64) (v : Limbs) (hv : ∀ x ∈ v, x.toNat < 2 ^ W) :
    limbsOf W v.length (limbsVal W v) = v := by
  induction v with
  | nil => rfl
  | cons x v ih =>
    have hx : x.toNat < 2 ^ W := hv x (by simp)
    rw [List.length_cons, limbsOf_succ, limbsVal_cons, limbVal_of_lt hx]
    congr 1
    · apply BitVec.eq_of_toNat_eq
      rw [limbAt_toNat hW]
      simp [Nat.add_mul_mod_self_left, Nat.mod_eq_of_lt hx]
    · rw [Nat.add_mul_div_left _ _ (by positivity), Nat.div_eq_of_lt hx, Nat.zero_add]
      exact ih fun y hy => hv y (by simp [hy])

theorem getD_limbsOf {W n x i : Nat} (hi : i < n) : (limbsOf W n x).getD i 0 = limbAt W x i := by
  simp [limbsOf, List.getD, hi]

/-! ### Masks -/

theorem maskW_true_and {W : Nat} (hW : W ≤ 64) {x : Limb} (h : x.toNat < 2 ^ W) : x &&& maskW W true = x := by
  apply BitVec.eq_of_toNat_eq
  have hp : 2 ^ W ≤ 2 ^ 64 := Nat.pow_le_pow_right (by omega) hW
  have h0 : 0 < 2 ^ W := by positivity
  simp only [maskW, if_true, BitVec.toNat_and, BitVec.toNat_ofNat]
  rw [Nat.mod_eq_of_lt (a := 2 ^ W - 1) (by omega), Nat.and_two_pow_sub_one_eq_mod, Nat.mod_eq_of_lt h]

theorem and_maskW_false (W : Nat) (x : Limb) : x &&& maskW W false = 0 := by simp [maskW]

theorem and_not_maskW_false (W : Nat) (x : Limb) : x &&& ~~~maskW W false = x := by
  have : ~~~maskW W false = BitVec.allOnes 64 := by simp [maskW]
  rw [this, BitVec.and_allOnes]

theorem and_not_maskW_true {W : Nat} (hW : W ≤ 64) {x : Limb} (h : x.toNat < 2 ^ W) :
    x &&& ~~~maskW W true = 0 := by
  rw [← maskW_true_and hW h, BitVec.and_assoc, BitVec.and_not_self]
  exact BitVec.and_zero

end Sys2Proof.Machine
end

