-- ==== Sys2Proof/Laws/Kernels.lean ====
section
/-!
SUPPORT. The inverses the kernels use are inverses, what each kernel's result is, free of them, and what a READY engine's constants are (R41, R152 to R156); sums of limb-level work.
-/

namespace Sys2Proof.Machine

theorem invPow2_spec {a : Nat} (ha : a % 2 = 1) (k : Nat) :
    invPow2 a k < 2 ^ k ∧ a * invPow2 a k ≡ 1 [MOD 2 ^ k] := by
  induction k with
  | zero => exact ⟨by simp [invPow2], Nat.modEq_one⟩
  | succ k ih =>
    obtain ⟨hlt, hmod⟩ := ih
    have h1 : 1 % 2 ^ (k + 1) = 1 := Nat.mod_eq_of_lt (two_le_two_pow (by omega))
    have hp : 2 ^ (k + 1) = 2 ^ k * 2 := Nat.pow_succ ..
    simp only [invPow2]
    split
    · next h => exact ⟨by omega, h.trans h1.symm⟩
    · next h =>
      refine ⟨by omega, ?_⟩
      set x := invPow2 a k
      obtain ⟨t, ht⟩ := (Nat.modEq_iff_dvd.1 hmod)
      have hodd : ¬ (2 : Int) ∣ t := by
        rintro ⟨u, rfl⟩
        have : a * x ≡ 1 [MOD 2 ^ (k + 1)] :=
          Nat.modEq_iff_dvd.2 ⟨u, by rw [ht]; push_cast [hp]; ring⟩
        exact h (Eq.trans this h1)
      refine Nat.modEq_iff_dvd.2 ⟨(t - a) / 2, ?_⟩
      have hta : (t - a : Int) = 2 * ((t - a) / 2) := by omega
      calc ((1 : Nat) : Int) - ((a * (x + 2 ^ k) : Nat) : Int)
          = (((1 : Nat) : Int) - ((a * x : Nat) : Int)) - a * 2 ^ k := by push_cast; ring
        _ = 2 ^ k * (t - a) := by rw [ht]; push_cast; ring
        _ = 2 ^ k * (2 * ((t - a) / 2)) := by rw [← hta]
        _ = ((2 ^ (k + 1) : Nat) : Int) * ((t - a) / 2) := by push_cast [hp]; ring

/-- The property that defines `n0` (R41): `M · n0 ≡ −1 (mod 2^W)`. -/
theorem montN0_spec {W M : Nat} (hW : 1 ≤ W) (hM : M % 2 = 1) :
    M * montN0 W M % 2 ^ W = 2 ^ W - 1 ∧ montN0 W M < 2 ^ W := by
  have hd : 2 ∣ 2 ^ W := dvd_pow_self 2 (by omega)
  have h2 := two_le_two_pow hW
  obtain ⟨hlt, hinv⟩ := invPow2_spec (a := M % 2 ^ W) (by rw [Nat.mod_mod_of_dvd _ hd, hM]) W
  refine ⟨?_, Nat.mod_lt _ (by positivity)⟩
  unfold montN0
  set x := invPow2 (M % 2 ^ W) W
  have hMx : M * x ≡ 1 [MOD 2 ^ W] := ((Nat.mod_modEq M (2 ^ W)).symm.mul_right x).trans hinv
  have hsum : M * (2 ^ W - x) + M * x ≡ (2 ^ W - 1) + M * x [MOD 2 ^ W] := by
    have e1 : M * (2 ^ W - x) + M * x = M * 2 ^ W := by rw [← Nat.mul_add]; congr 1; omega
    have e2 : (2 ^ W - 1) + M * x ≡ (2 ^ W - 1) + 1 [MOD 2 ^ W] := Nat.ModEq.add_left _ hMx
    have e3 : (2 ^ W - 1) + 1 = 2 ^ W := by omega
    rw [e1]
    refine Nat.ModEq.trans ?_ e2.symm
    rw [e3]
    simp [Nat.ModEq]
  have := Nat.ModEq.add_right_cancel' _ hsum
  rw [Nat.mul_mod, Nat.mod_mod, ← Nat.mul_mod, this, Nat.mod_eq_of_lt (by omega)]

/-- `2^(L·W) · Rinv ≡ 1 (mod M)` for an odd modulus: what `Rinv` is named for. -/
theorem rInv_spec (W : Nat) {m : Modulus} (hM : m.M % 2 = 1) :
    2 ^ (m.L.toNat * W) * rInv W m ≡ 1 [MOD m.M] := by
  have h2 : 2 * ((m.M + 1) / 2) ≡ 1 [MOD m.M] := by
    have : 2 * ((m.M + 1) / 2) = m.M + 1 := by omega
    rw [this]; simp [Nat.ModEq]
  calc 2 ^ (m.L.toNat * W) * rInv W m
      ≡ 2 ^ (m.L.toNat * W) * ((m.M + 1) / 2) ^ (m.L.toNat * W) [MOD m.M] :=
        (Nat.mod_modEq _ _).mul_left _
    _ = (2 * ((m.M + 1) / 2)) ^ (m.L.toNat * W) := by rw [Nat.mul_pow]
    _ ≡ 1 ^ (m.L.toNat * W) [MOD m.M] := h2.pow _
    _ = 1 := Nat.one_pow _

theorem Modulus.M_pos {m : Modulus} (hM : m.M % 2 = 1) : 0 < m.M := by omega

/-- `2^(L·W)` may be cancelled modulo an odd modulus. -/
theorem pow_cancel (W : Nat) {m : Modulus} (hM : m.M % 2 = 1) {u v : Nat}
    (h : u * 2 ^ (m.L.toNat * W) ≡ v * 2 ^ (m.L.toNat * W) [MOD m.M]) : u ≡ v [MOD m.M] := by
  have hi := rInv_spec W hM
  have e (w : Nat) : w ≡ w * 2 ^ (m.L.toNat * W) * rInv W m [MOD m.M] := by
    rw [Nat.mul_assoc]; simpa using (hi.symm.mul_left w)
  exact (e u).trans ((h.mul_right _).trans (e v).symm)

/-- `MontRed` gives the `v < M` with `v · 2^(L·W) ≡ T (mod M)` (R154). -/
theorem montRed_spec (W : Nat) {m : Modulus} (hM : m.M % 2 = 1) (T : Nat) :
    montRed W m T < m.M ∧ montRed W m T * 2 ^ (m.L.toNat * W) ≡ T [MOD m.M] := by
  refine ⟨Nat.mod_lt _ (Modulus.M_pos hM), ?_⟩
  calc montRed W m T * 2 ^ (m.L.toNat * W)
      ≡ T * rInv W m * 2 ^ (m.L.toNat * W) [MOD m.M] := (Nat.mod_modEq _ _).mul_right _
    _ = T * (2 ^ (m.L.toNat * W) * rInv W m) := by ring
    _ ≡ T * 1 [MOD m.M] := (rInv_spec W hM).mul_left _
    _ = T := Nat.mul_one _

/-- The three kernels are one reduction (R152, R153). -/
theorem montMul_eq_montRed (W : Nat) (m : Modulus) (a b : Nat) : montMul W m a b = montRed W m (a * b) := rfl
theorem montSqr_eq_montRed (W : Nat) (m : Modulus) (a : Nat) : montSqr W m a = montRed W m (a * a) := rfl
theorem enc_eq_montRed (W : Nat) (m : Modulus) (x : Nat) : enc W m x = montRed W m (x * m.RR) := rfl
theorem dec_eq_montRed (W : Nat) (m : Modulus) (x : Nat) : dec W m x = montRed W m x := rfl

/-- A number below `M` that meets the defining congruence is the reduction. -/
theorem montRed_unique (W : Nat) {m : Modulus} (hM : m.M % 2 = 1) {T v : Nat} (hv : v < m.M)
    (h : v * 2 ^ (m.L.toNat * W) ≡ T [MOD m.M]) : montRed W m T = v := by
  obtain ⟨hlt, hspec⟩ := montRed_spec W hM T
  exact Nat.ModEq.eq_of_lt_of_lt (pow_cancel W hM (hspec.trans h.symm)) hlt hv

/-! ### A READY engine -/

theorem CfgLegal.W_pos {c : Cfg} (h : CfgLegal c) : 1 ≤ c.W := by have := h.W_legal; omega
theorem CfgLegal.W_le {c : Cfg} (h : CfgLegal c) : c.W ≤ 64 := by have := h.W_legal; omega

/-- What the invariant says of a READY engine's modulus, in numbers. -/
structure ReadyFacts (W : Nat) (e : EngineCfg) (m : Modulus) : Prop where
  odd     : m.M % 2 = 1
  bits    : bitlen m.M ≤ e.maxbits.toNat
  modbits : m.modbits.toNat = bitlen m.M
  length  : m.L.toNat = sig W m.M
  L_pos   : 1 ≤ m.L.toNat
  M_lt    : m.M < 2 ^ (m.L.toNat * W)
  R_eq    : m.R = 2 ^ (m.L.toNat * W) % m.M
  RR_eq   : m.RR = m.R * m.R % m.M
  n0_eq   : m.n0 = montN0 W m.M

theorem modulusOf_facts {c : Cfg} (hc : CfgLegal c) {e : EngineCfg} (he : e.Wf c) {M : Nat} (hM : M % 2 = 1)
    (hb : bitlen M ≤ e.maxbits.toNat) : ReadyFacts c.W e (modulusOf c.W M) := by
  have hW := hc.W_pos
  have h16 : bitlen M < 65536 := by have := he.2.1; have := hc.maxbits; omega
  have hs := sig_le_bitlen hW (x := M) (by omega)
  have hL : (modulusOf c.W M).L.toNat = sig c.W M := by
    simp only [modulusOf, BitVec.toNat_ofNat]; exact Nat.mod_eq_of_lt (by omega)
  refine ⟨hM, hb, ?_, hL, ?_, ?_, ?_, rfl, rfl⟩
  · simp only [modulusOf, BitVec.toNat_ofNat]; exact Nat.mod_eq_of_lt (by omega)
  · rw [hL]; exact sig_pos hW M
  · rw [hL, Nat.mul_comm]; exact lt_two_pow_sig hW M
  · rw [hL]; rfl

theorem State.Inv.ready {s : State} (h : s.Inv) {k : EngIdx} {e : EngineCfg} {m : Modulus}
    (hk : s.meAt k = .ready e m) : ReadyFacts s.cfg.W e m := by
  have hw := h.me_wf k
  rw [hk] at hw
  obtain ⟨he, hodd, hb, hm⟩ := hw
  rw [hm]
  exact modulusOf_facts h.cfg_legal he hodd hb

theorem State.Inv.reg {s : State} (h : s.Inv) {r : BnIdx} {b : BigNum} (hr : s.bnAt r = .valid b) :
    1 ≤ b.room.toNat ∧ b.room.toNat ≤ s.cfg.RMAX ∧ sig s.cfg.W b.mag ≤ b.room.toNat ∧
      (b.mag = 0 → b.neg = false) := by
  have hw := h.bn_wf r
  rw [hr] at hw
  exact hw

/-! ### The kernel laws (R165) -/

namespace ReadyFacts

variable {W : Nat} {e : EngineCfg} {m : Modulus}

/-- `R ≡ 2^(L·W)` and it is below `M`. -/
theorem R_mod (h : ReadyFacts W e m) : m.R ≡ 2 ^ (m.L.toNat * W) [MOD m.M] := by
  rw [h.R_eq]; exact Nat.mod_modEq _ _

theorem R_lt (h : ReadyFacts W e m) : m.R < m.M := by
  rw [h.R_eq]; exact Nat.mod_lt _ (Modulus.M_pos h.odd)

/-- `Enc` multiplies by `2^(L·W)` (R155). -/
theorem enc_eq (h : ReadyFacts W e m) (x : Nat) : enc W m x = x * 2 ^ (m.L.toNat * W) % m.M := by
  rw [enc_eq_montRed]
  refine montRed_unique W h.odd (Nat.mod_lt _ (Modulus.M_pos h.odd)) ?_
  calc x * 2 ^ (m.L.toNat * W) % m.M * 2 ^ (m.L.toNat * W)
      ≡ x * 2 ^ (m.L.toNat * W) * 2 ^ (m.L.toNat * W) [MOD m.M] := (Nat.mod_modEq _ _).mul_right _
    _ = x * (2 ^ (m.L.toNat * W) * 2 ^ (m.L.toNat * W)) := Nat.mul_assoc ..
    _ ≡ x * (m.R * m.R) [MOD m.M] := (h.R_mod.mul h.R_mod).symm.mul_left _
    _ ≡ x * m.RR [MOD m.M] := by rw [h.RR_eq]; exact (Nat.mod_modEq _ _).symm.mul_left _

theorem enc_lt (h : ReadyFacts W e m) (x : Nat) : enc W m x < m.M := (montRed_spec W h.odd _).1

/-- `MontMul` on encoded numbers is encoded multiplication. -/
theorem montMul_enc (h : ReadyFacts W e m) (x y : Nat) :
    montMul W m (enc W m x) (enc W m y) = enc W m (x * y) := by
  rw [montMul_eq_montRed, h.enc_eq, h.enc_eq, h.enc_eq]
  refine montRed_unique W h.odd (Nat.mod_lt _ (Modulus.M_pos h.odd)) ?_
  calc x * y * 2 ^ (m.L.toNat * W) % m.M * 2 ^ (m.L.toNat * W)
      ≡ x * y * 2 ^ (m.L.toNat * W) * 2 ^ (m.L.toNat * W) [MOD m.M] := (Nat.mod_modEq _ _).mul_right _
    _ = x * 2 ^ (m.L.toNat * W) * (y * 2 ^ (m.L.toNat * W)) := by ring
    _ ≡ _ [MOD m.M] := ((Nat.mod_modEq _ _).mul (Nat.mod_modEq _ _)).symm

/-- `Enc` sees its operand modulo `M`. -/
theorem enc_mod (h : ReadyFacts W e m) (x : Nat) : enc W m (x % m.M) = enc W m x := by
  rw [h.enc_eq, h.enc_eq]; exact (Nat.mod_modEq _ _).mul_right _

theorem R_eq_enc (h : ReadyFacts W e m) : m.R = enc W m 1 := by rw [h.enc_eq, h.R_eq, Nat.one_mul]

/-- `Dec` undoes `Enc`. -/
theorem dec_enc (h : ReadyFacts W e m) (x : Nat) : dec W m (enc W m x) = x % m.M := by
  rw [dec_eq_montRed, h.enc_eq]
  refine montRed_unique W h.odd (Nat.mod_lt _ (Modulus.M_pos h.odd)) ?_
  exact ((Nat.mod_modEq _ _).mul_right _).trans (Nat.mod_modEq _ _).symm

theorem montMul_R (h : ReadyFacts W e m) {x : Nat} (hx : x < m.M) : montMul W m x m.R = x := by
  rw [montMul_eq_montRed]
  exact montRed_unique W h.odd hx (h.R_mod.mul_left _).symm

/-- A product with an unencoded number is the plain product (R107, R211). -/
theorem montMul_enc_left (h : ReadyFacts W e m) (x y : Nat) : montMul W m (enc W m x) y = x * y % m.M := by
  rw [montMul_eq_montRed, h.enc_eq]
  refine montRed_unique W h.odd (Nat.mod_lt _ (Modulus.M_pos h.odd)) ?_
  calc x * y % m.M * 2 ^ (m.L.toNat * W)
      ≡ x * y * 2 ^ (m.L.toNat * W) [MOD m.M] := (Nat.mod_modEq _ _).mul_right _
    _ = x * 2 ^ (m.L.toNat * W) * y := by ring
    _ ≡ _ [MOD m.M] := ((Nat.mod_modEq _ _).mul_right _).symm

end ReadyFacts

/-! ### Limb-level work (R187, R213, log entry 10) -/

@[simp] theorem limbWork_nil : limbWork [] = 0 := rfl

@[simp] theorem limbWork_cons (p : LimbOp) (ps : List LimbOp) : limbWork (p :: ps) = p.cost + limbWork ps := by
  simp [limbWork]

/-- The work of two runs of passes one after the other is the sum of theirs. -/
@[simp] theorem limbWork_append (ps qs : List LimbOp) : limbWork (ps ++ qs) = limbWork ps + limbWork qs := by
  simp [limbWork]

@[simp] theorem kernelPasses_append (ksel : BitVec 8) (L : Nat) (evs evs' : List KEvent) :
    kernelPasses ksel L (evs ++ evs') = kernelPasses ksel L evs ++ kernelPasses ksel L evs' := by
  simp [kernelPasses]

/-- An event's kernel does the work `cfg.limbops` gives it; an event that invokes none has none to do. -/
theorem limbWork_kernelPasses_cons (ksel : BitVec 8) (L : Nat) (ev : KEvent) (evs : List KEvent) :
    limbWork (kernelPasses ksel L (ev :: evs)) =
      (match ev.kernel with
        | some k => Config.limbops ksel k L
        | none => 0) + limbWork (kernelPasses ksel L evs) := by
  cases ev <;> simp [kernelPasses, KEvent.kernel, LimbOp.cost]

/-- Equal runs of events one after the other do equal work each. -/
theorem limbWork_kernelPasses_replicate (ksel : BitVec 8) (L n : Nat) (evs : List KEvent) :
    limbWork (kernelPasses ksel L (List.replicate n evs).flatten) = n * limbWork (kernelPasses ksel L evs) := by
  induction n with
  | zero => simp [kernelPasses]
  | succ n ih => simp [List.replicate_succ, ih, Nat.succ_mul, Nat.add_comm]

end Sys2Proof.Machine
end

