-- ==== Sys2Proof/Laws/Memory.lean ====
section
/-!
SUPPORT. Every operation of the scratch memory keeps its canonical form, and what a memory reads after it.
-/

namespace Sys2Proof.Machine

/-! ### The canonical form -/

@[simp] theorem Memory.wfFrom_nil (lo : Option Nat) : Memory.wfFrom lo [] = true := rfl

/-- `lo` is below `k`, or there is no bound. -/
def belowOpt (lo : Option Nat) (k : Nat) : Prop := ∀ l, lo = some l → l < k

theorem Memory.wfFrom_cons (lo : Option Nat) (k : Nat) (v : Limb) (rest : Memory) :
    Memory.wfFrom lo ((k, v) :: rest) = true ↔
      belowOpt lo k ∧ v ≠ Memory.blank ∧ Memory.wfFrom (some k) rest = true := by
  cases lo <;> simp [Memory.wfFrom, belowOpt, and_assoc]

theorem Memory.wfFrom_weaken {lo lo' : Option Nat} {m : Memory} (h : Memory.wfFrom lo m = true)
    (hlo : ∀ k, belowOpt lo k → belowOpt lo' k) : Memory.wfFrom lo' m = true := by
  cases m with
  | nil => rfl
  | cons x rest =>
    obtain ⟨k, v⟩ := x
    rw [Memory.wfFrom_cons] at h ⊢
    exact ⟨hlo k h.1, h.2⟩

/-- An address not above the bound is not listed. -/
theorem Memory.read_of_le {m : Memory} {l a : Nat} (h : Memory.wfFrom (some l) m = true) (ha : a ≤ l) :
    Memory.read m a = Memory.blank := by
  induction m generalizing l with
  | nil => rfl
  | cons x rest ih =>
    obtain ⟨k, v⟩ := x
    rw [Memory.wfFrom_cons] at h
    have hk : l < k := h.1 l rfl
    simp only [Memory.read]
    rw [if_neg (by omega)]
    exact ih h.2.2 (by omega)

theorem Memory.wfFrom_write {lo : Option Nat} {m : Memory} (h : Memory.wfFrom lo m = true) {a : Nat}
    (ha : belowOpt lo a) (v : Limb) : Memory.wfFrom lo (Memory.write m a v) = true := by
  induction m generalizing lo with
  | nil =>
    unfold Memory.write
    split
    · rfl
    · next hv => exact (Memory.wfFrom_cons _ _ _ _).2 ⟨ha, hv, rfl⟩
  | cons x rest ih =>
    obtain ⟨k, u⟩ := x
    have hk := h
    rw [Memory.wfFrom_cons] at h
    unfold Memory.write
    split
    · next hak =>
      split
      · exact hk
      · next hv =>
        refine (Memory.wfFrom_cons _ _ _ _).2 ⟨ha, hv, (Memory.wfFrom_cons _ _ _ _).2 ⟨?_, h.2⟩⟩
        intro l hl; cases hl; exact hak
    · split
      · next hak =>
        subst hak
        split
        · refine Memory.wfFrom_weaken h.2.2 fun j hj l hl => lt_trans (ha l hl) (hj a rfl)
        · next hv => exact (Memory.wfFrom_cons _ _ _ _).2 ⟨h.1, hv, h.2.2⟩
      · next h1 h2 =>
        refine (Memory.wfFrom_cons _ _ _ _).2 ⟨h.1, h.2.1, ih h.2.2 ?_⟩
        intro l hl; cases hl; omega

/-- `MemWrite` keeps the canonical form. -/
theorem Memory.wf_write {m : Memory} (h : Memory.wf m = true) (a : Nat) (v : Limb) :
    Memory.wf (Memory.write m a v) = true :=
  Memory.wfFrom_write h (by intro l hl; cases hl) v

/-- A run of writes keeps the canonical form. -/
theorem Memory.wf_writeAll {m : Memory} (h : Memory.wf m = true) (ws : List (Nat × Limb)) :
    Memory.wf (Memory.writeAll m ws) = true := by
  induction ws generalizing m with
  | nil => exact h
  | cons w ws ih => exact ih (Memory.wf_write h w.1 w.2)

/-- The reset memory is canonical. -/
theorem Memory.wf_nil : Memory.wf [] = true := rfl

/-! ### Reads -/

theorem Memory.read_write_from {lo : Option Nat} {m : Memory} (h : Memory.wfFrom lo m = true) (a b : Nat) (v : Limb) :
    Memory.read (Memory.write m a v) b = if b = a then v else Memory.read m b := by
  induction m generalizing lo with
  | nil =>
    unfold Memory.write
    by_cases hv : v = Memory.blank
    · simp [hv, Memory.read]
    · simp [hv, Memory.read]
  | cons x rest ih =>
    obtain ⟨k, u⟩ := x
    rw [Memory.wfFrom_cons] at h
    unfold Memory.write
    by_cases h1 : a < k
    · rw [if_pos h1]
      by_cases hv : v = Memory.blank
      · rw [if_pos hv]
        by_cases hb : b = a
        · subst hb
          rw [if_pos rfl, hv]
          simp only [Memory.read]
          rw [if_neg (by omega)]
          exact Memory.read_of_le h.2.2 (by omega)
        · rw [if_neg hb]
      · rw [if_neg hv]; simp only [Memory.read]
    · rw [if_neg h1]
      by_cases h2 : a = k
      · subst h2
        rw [if_pos rfl]
        by_cases hv : v = Memory.blank
        · rw [if_pos hv]
          by_cases hb : b = a
          · subst hb
            rw [if_pos rfl, hv]
            exact Memory.read_of_le h.2.2 le_rfl
          · simp [Memory.read, hb]
        · rw [if_neg hv]
          by_cases hb : b = a <;> simp [Memory.read, hb]
      · rw [if_neg h2]
        simp only [Memory.read]
        by_cases hb : b = k
        · subst hb
          rw [if_pos rfl, if_neg (fun h => h2 h.symm), if_pos rfl]
        · rw [if_neg hb, if_neg hb]
          exact ih h.2.2

/-- After writes to addresses other than `b`, `b` reads as before. -/
theorem Memory.read_writeAll_other {m : Memory} (h : Memory.wf m = true) (ws : List (Nat × Limb)) {b : Nat}
    (hb : ∀ w ∈ ws, w.1 ≠ b) : Memory.read (Memory.writeAll m ws) b = Memory.read m b := by
  induction ws generalizing m with
  | nil => rfl
  | cons w ws ih =>
    show Memory.read (Memory.writeAll (Memory.write m w.1 w.2) ws) b = _
    rw [ih (Memory.wf_write h _ _) fun x hx => hb x (by simp [hx]), Memory.read_write_from h,
      if_neg (Ne.symm (hb w (by simp)))]

/-- After writes that agree on what `b` gets, `b` reads that. -/
theorem Memory.read_writeAll_same {m : Memory} (h : Memory.wf m = true) (ws : List (Nat × Limb)) {b : Nat} {v : Limb}
    (hmem : ∃ w ∈ ws, w.1 = b) (hv : ∀ w ∈ ws, w.1 = b → w.2 = v) :
    Memory.read (Memory.writeAll m ws) b = v := by
  induction ws generalizing m with
  | nil => simp at hmem
  | cons w ws ih =>
    show Memory.read (Memory.writeAll (Memory.write m w.1 w.2) ws) b = _
    by_cases hin : ∃ x ∈ ws, x.1 = b
    · exact ih (Memory.wf_write h _ _) hin fun x hx => hv x (by simp [hx])
    · rw [Memory.read_writeAll_other (Memory.wf_write h _ _) ws
        (fun x hx hxb => hin ⟨x, hx, hxb⟩), Memory.read_write_from h]
      obtain ⟨x, hx, hxb⟩ := hmem
      have hw : x = w := by
        rcases List.mem_cons.1 hx with h1 | h1
        · exact h1
        · exact absurd ⟨x, h1, hxb⟩ hin
      subst hw
      rw [if_pos hxb.symm, hv x (by simp) hxb]

/-! ### Bounds -/

/-- A cell after a write is a cell from before or the one written. -/
theorem Memory.mem_write {m : Memory} {a : Nat} {v : Limb} {x : Nat × Limb} (h : x ∈ Memory.write m a v) :
    x ∈ m ∨ x = (a, v) := by
  induction m with
  | nil =>
    unfold Memory.write at h
    split at h <;> simp_all
  | cons y rest ih =>
    obtain ⟨k, u⟩ := y
    unfold Memory.write at h
    split at h
    · split at h
      · exact .inl h
      · rcases List.mem_cons.1 h with h | h
        · exact .inr h
        · exact .inl h
    · split at h
      · split at h
        · exact .inl (by simp [h])
        · rcases List.mem_cons.1 h with h | h
          · exact .inr h
          · exact .inl (by simp [h])
      · rcases List.mem_cons.1 h with h | h
        · exact .inl (by simp [h])
        · rcases ih h with h | h
          · exact .inl (by simp [h])
          · exact .inr h

theorem Memory.mem_writeAll {ws : List (Nat × Limb)} {m : Memory} {x : Nat × Limb}
    (h : x ∈ Memory.writeAll m ws) : x ∈ m ∨ x ∈ ws := by
  induction ws generalizing m with
  | nil => exact .inl h
  | cons w ws ih =>
    rcases ih (m := Memory.write m w.1 w.2) h with h | h
    · rcases Memory.mem_write h with h | h
      · exact .inl h
      · exact .inr (by simp [h])
    · exact .inr (by simp [h])

/-- Two canonical memories that read the same everywhere are equal. -/
theorem Memory.ext_from {lo lo' : Option Nat} {m m' : Memory} (h : Memory.wfFrom lo m = true)
    (h' : Memory.wfFrom lo' m' = true) (hr : ∀ a, Memory.read m a = Memory.read m' a) : m = m' := by
  induction m generalizing lo lo' m' with
  | nil =>
    cases m' with
    | nil => rfl
    | cons y r =>
      obtain ⟨k, v⟩ := y
      rw [Memory.wfFrom_cons] at h'
      have := hr k
      simp [Memory.read] at this
      exact absurd this.symm h'.2.1
  | cons x r ih =>
    obtain ⟨k, u⟩ := x
    rw [Memory.wfFrom_cons] at h
    cases m' with
    | nil =>
      have := hr k
      simp [Memory.read] at this
      exact absurd this h.2.1
    | cons y r' =>
      obtain ⟨k', v⟩ := y
      rw [Memory.wfFrom_cons] at h'
      have hkk : k = k' := by
        rcases Nat.lt_trichotomy k k' with hlt | heq | hgt
        · have := hr k
          simp only [Memory.read, if_true] at this
          rw [if_neg (by omega), Memory.read_of_le h'.2.2 (by omega)] at this
          exact absurd this h.2.1
        · exact heq
        · have := hr k'
          simp only [Memory.read, if_true] at this
          rw [if_neg (by omega), Memory.read_of_le h.2.2 (by omega)] at this
          exact absurd this.symm h'.2.1
      subst hkk
      have huv : u = v := by simpa [Memory.read] using hr k
      subst huv
      congr 1
      apply ih h.2.2 h'.2.2
      intro a
      by_cases hak : a = k
      · subst hak
        rw [Memory.read_of_le h.2.2 le_rfl, Memory.read_of_le h'.2.2 le_rfl]
      · simpa [Memory.read, hak] using hr a

theorem Memory.ext {m m' : Memory} (h : Memory.wf m = true) (h' : Memory.wf m' = true)
    (hr : ∀ a, Memory.read m a = Memory.read m' a) : m = m' := Memory.ext_from h h' hr

end Sys2Proof.Machine
end

