-- ==== Sys2Proof/Laws/State.lean ====
section
/-!
SUPPORT. One lemma per field and per update of the state, so that no later proof unfolds a record update.
-/

namespace Sys2Proof.Machine

/-! ### `setBn` -/

@[simp] theorem State.setBn_cfg (s : State) (r : BnIdx) (x : BnReg) : (s.setBn r x).cfg = s.cfg := rfl
@[simp] theorem State.setBn_bn (s : State) (r : BnIdx) (x : BnReg) : (s.setBn r x).bn = s.bn.set r.toNat x r.isLt := rfl
@[simp] theorem State.setBn_me (s : State) (r : BnIdx) (x : BnReg) : (s.setBn r x).me = s.me := rfl
@[simp] theorem State.setBn_scr (s : State) (r : BnIdx) (x : BnReg) : (s.setBn r x).scr = s.scr := rfl
@[simp] theorem State.setBn_status (s : State) (r : BnIdx) (x : BnReg) : (s.setBn r x).status = s.status := rfl
@[simp] theorem State.setBn_cnt (s : State) (r : BnIdx) (x : BnReg) : (s.setBn r x).cnt = s.cnt := rfl
@[simp] theorem State.setBn_trace (s : State) (r : BnIdx) (x : BnReg) : (s.setBn r x).trace = s.trace := rfl
@[simp] theorem State.setBn_scrTrace (s : State) (r : BnIdx) (x : BnReg) : (s.setBn r x).scrTrace = s.scrTrace := rfl
@[simp] theorem State.setBn_limbTrace (s : State) (r : BnIdx) (x : BnReg) : (s.setBn r x).limbTrace = s.limbTrace := rfl
@[simp] theorem State.setBn_cmdStream (s : State) (r : BnIdx) (x : BnReg) : (s.setBn r x).cmdStream = s.cmdStream := rfl
@[simp] theorem State.setBn_respStream (s : State) (r : BnIdx) (x : BnReg) : (s.setBn r x).respStream = s.respStream := rfl

/-! ### `setMe` -/

@[simp] theorem State.setMe_cfg (s : State) (k : EngIdx) (x : Engine) : (s.setMe k x).cfg = s.cfg := rfl
@[simp] theorem State.setMe_bn (s : State) (k : EngIdx) (x : Engine) : (s.setMe k x).bn = s.bn := rfl
@[simp] theorem State.setMe_me (s : State) (k : EngIdx) (x : Engine) : (s.setMe k x).me = s.me.set k.toNat x k.isLt := rfl
@[simp] theorem State.setMe_scr (s : State) (k : EngIdx) (x : Engine) : (s.setMe k x).scr = s.scr := rfl
@[simp] theorem State.setMe_status (s : State) (k : EngIdx) (x : Engine) : (s.setMe k x).status = s.status := rfl
@[simp] theorem State.setMe_cnt (s : State) (k : EngIdx) (x : Engine) : (s.setMe k x).cnt = s.cnt := rfl
@[simp] theorem State.setMe_trace (s : State) (k : EngIdx) (x : Engine) : (s.setMe k x).trace = s.trace := rfl
@[simp] theorem State.setMe_scrTrace (s : State) (k : EngIdx) (x : Engine) : (s.setMe k x).scrTrace = s.scrTrace := rfl
@[simp] theorem State.setMe_limbTrace (s : State) (k : EngIdx) (x : Engine) : (s.setMe k x).limbTrace = s.limbTrace := rfl
@[simp] theorem State.setMe_cmdStream (s : State) (k : EngIdx) (x : Engine) : (s.setMe k x).cmdStream = s.cmdStream := rfl
@[simp] theorem State.setMe_respStream (s : State) (k : EngIdx) (x : Engine) : (s.setMe k x).respStream = s.respStream := rfl

/-! ### `kernel` -/

@[simp] theorem State.kernel_cfg (s : State) (evs : List KEvent) (ops : List LimbOp) : (s.kernel evs ops).cfg = s.cfg := rfl
@[simp] theorem State.kernel_bn (s : State) (evs : List KEvent) (ops : List LimbOp) : (s.kernel evs ops).bn = s.bn := rfl
@[simp] theorem State.kernel_me (s : State) (evs : List KEvent) (ops : List LimbOp) : (s.kernel evs ops).me = s.me := rfl
@[simp] theorem State.kernel_scr (s : State) (evs : List KEvent) (ops : List LimbOp) : (s.kernel evs ops).scr = s.scr := rfl
@[simp] theorem State.kernel_status (s : State) (evs : List KEvent) (ops : List LimbOp) : (s.kernel evs ops).status = s.status := rfl
@[simp] theorem State.kernel_cnt (s : State) (evs : List KEvent) (ops : List LimbOp) : (s.kernel evs ops).cnt = s.cnt.addEvents evs := rfl
@[simp] theorem State.kernel_trace (s : State) (evs : List KEvent) (ops : List LimbOp) : (s.kernel evs ops).trace = s.trace ++ evs := rfl
@[simp] theorem State.kernel_scrTrace (s : State) (evs : List KEvent) (ops : List LimbOp) : (s.kernel evs ops).scrTrace = s.scrTrace := rfl
@[simp] theorem State.kernel_limbTrace (s : State) (evs : List KEvent) (ops : List LimbOp) : (s.kernel evs ops).limbTrace = s.limbTrace ++ ops := rfl
@[simp] theorem State.kernel_cmdStream (s : State) (evs : List KEvent) (ops : List LimbOp) : (s.kernel evs ops).cmdStream = s.cmdStream := rfl
@[simp] theorem State.kernel_respStream (s : State) (evs : List KEvent) (ops : List LimbOp) : (s.kernel evs ops).respStream = s.respStream := rfl

/-! ### `countCmd` -/

@[simp] theorem State.countCmd_cfg (s : State) : (s.countCmd).cfg = s.cfg := rfl
@[simp] theorem State.countCmd_bn (s : State) : (s.countCmd).bn = s.bn := rfl
@[simp] theorem State.countCmd_me (s : State) : (s.countCmd).me = s.me := rfl
@[simp] theorem State.countCmd_scr (s : State) : (s.countCmd).scr = s.scr := rfl
@[simp] theorem State.countCmd_status (s : State) : (s.countCmd).status = s.status := rfl
@[simp] theorem State.countCmd_cnt (s : State) : (s.countCmd).cnt = { s.cnt with cmd := s.cnt.cmd + 1 } := rfl
@[simp] theorem State.countCmd_trace (s : State) : (s.countCmd).trace = s.trace := rfl
@[simp] theorem State.countCmd_scrTrace (s : State) : (s.countCmd).scrTrace = s.scrTrace := rfl
@[simp] theorem State.countCmd_limbTrace (s : State) : (s.countCmd).limbTrace = s.limbTrace := rfl
@[simp] theorem State.countCmd_cmdStream (s : State) : (s.countCmd).cmdStream = s.cmdStream := rfl
@[simp] theorem State.countCmd_respStream (s : State) : (s.countCmd).respStream = s.respStream := rfl

/-! ### `scrDone` -/

@[simp] theorem State.scrDone_cfg (s : State) (m : Memory) (acc : List ScrAccess) : (s.scrDone m acc).cfg = s.cfg := rfl
@[simp] theorem State.scrDone_bn (s : State) (m : Memory) (acc : List ScrAccess) : (s.scrDone m acc).bn = s.bn := rfl
@[simp] theorem State.scrDone_me (s : State) (m : Memory) (acc : List ScrAccess) : (s.scrDone m acc).me = s.me := rfl
@[simp] theorem State.scrDone_scr (s : State) (m : Memory) (acc : List ScrAccess) : (s.scrDone m acc).scr = m := rfl
@[simp] theorem State.scrDone_status (s : State) (m : Memory) (acc : List ScrAccess) : (s.scrDone m acc).status = s.status := rfl
@[simp] theorem State.scrDone_cnt (s : State) (m : Memory) (acc : List ScrAccess) : (s.scrDone m acc).cnt = s.cnt := rfl
@[simp] theorem State.scrDone_trace (s : State) (m : Memory) (acc : List ScrAccess) : (s.scrDone m acc).trace = s.trace := rfl
@[simp] theorem State.scrDone_scrTrace (s : State) (m : Memory) (acc : List ScrAccess) : (s.scrDone m acc).scrTrace = s.scrTrace ++ acc := rfl
@[simp] theorem State.scrDone_limbTrace (s : State) (m : Memory) (acc : List ScrAccess) : (s.scrDone m acc).limbTrace = s.limbTrace := rfl
@[simp] theorem State.scrDone_cmdStream (s : State) (m : Memory) (acc : List ScrAccess) : (s.scrDone m acc).cmdStream = s.cmdStream := rfl
@[simp] theorem State.scrDone_respStream (s : State) (m : Memory) (acc : List ScrAccess) : (s.scrDone m acc).respStream = s.respStream := rfl

/-! ### `complete` -/

@[simp] theorem State.complete_cfg (s : State) (op : BitVec 8) (st : Status) (v : BitVec 64) (p : Limbs) : (s.complete op st v p).cfg = s.cfg := rfl
@[simp] theorem State.complete_bn (s : State) (op : BitVec 8) (st : Status) (v : BitVec 64) (p : Limbs) : (s.complete op st v p).bn = s.bn := rfl
@[simp] theorem State.complete_me (s : State) (op : BitVec 8) (st : Status) (v : BitVec 64) (p : Limbs) : (s.complete op st v p).me = s.me := rfl
@[simp] theorem State.complete_scr (s : State) (op : BitVec 8) (st : Status) (v : BitVec 64) (p : Limbs) : (s.complete op st v p).scr = s.scr := rfl
@[simp] theorem State.complete_status (s : State) (op : BitVec 8) (st : Status) (v : BitVec 64) (p : Limbs) : (s.complete op st v p).status = statusWord op st := rfl
@[simp] theorem State.complete_cnt (s : State) (op : BitVec 8) (st : Status) (v : BitVec 64) (p : Limbs) : (s.complete op st v p).cnt = s.cnt := rfl
@[simp] theorem State.complete_trace (s : State) (op : BitVec 8) (st : Status) (v : BitVec 64) (p : Limbs) : (s.complete op st v p).trace = s.trace := rfl
@[simp] theorem State.complete_scrTrace (s : State) (op : BitVec 8) (st : Status) (v : BitVec 64) (p : Limbs) : (s.complete op st v p).scrTrace = s.scrTrace := rfl
@[simp] theorem State.complete_limbTrace (s : State) (op : BitVec 8) (st : Status) (v : BitVec 64) (p : Limbs) : (s.complete op st v p).limbTrace = s.limbTrace := rfl
@[simp] theorem State.complete_cmdStream (s : State) (op : BitVec 8) (st : Status) (v : BitVec 64) (p : Limbs) : (s.complete op st v p).cmdStream = s.cmdStream := rfl
@[simp] theorem State.complete_respStream (s : State) (op : BitVec 8) (st : Status) (v : BitVec 64) (p : Limbs) : (s.complete op st v p).respStream = s.respStream ++ [⟨st, op, v, p⟩] := rfl

/-! ### `raise` -/

@[simp] theorem State.raise_cfg (s : State) (op : BitVec 8) (st : Status) : (s.raise op st).cfg = s.cfg := rfl
@[simp] theorem State.raise_bn (s : State) (op : BitVec 8) (st : Status) : (s.raise op st).bn = s.bn := rfl
@[simp] theorem State.raise_me (s : State) (op : BitVec 8) (st : Status) : (s.raise op st).me = s.me := rfl
@[simp] theorem State.raise_scr (s : State) (op : BitVec 8) (st : Status) : (s.raise op st).scr = s.scr := rfl
@[simp] theorem State.raise_status (s : State) (op : BitVec 8) (st : Status) : (s.raise op st).status = statusWord op st := rfl
@[simp] theorem State.raise_cnt (s : State) (op : BitVec 8) (st : Status) : (s.raise op st).cnt = s.cnt := rfl
@[simp] theorem State.raise_trace (s : State) (op : BitVec 8) (st : Status) : (s.raise op st).trace = s.trace := rfl
@[simp] theorem State.raise_scrTrace (s : State) (op : BitVec 8) (st : Status) : (s.raise op st).scrTrace = s.scrTrace := rfl
@[simp] theorem State.raise_limbTrace (s : State) (op : BitVec 8) (st : Status) : (s.raise op st).limbTrace = s.limbTrace := rfl
@[simp] theorem State.raise_cmdStream (s : State) (op : BitVec 8) (st : Status) : (s.raise op st).cmdStream = s.cmdStream := rfl
@[simp] theorem State.raise_respStream (s : State) (op : BitVec 8) (st : Status) : (s.raise op st).respStream = s.respStream ++ [⟨st, op, 0, []⟩] := rfl

/-! ### `softReset` -/

@[simp] theorem State.softReset_cfg (s : State) : (s.softReset).cfg = s.cfg := rfl
@[simp] theorem State.softReset_bn (s : State) : (s.softReset).bn = Vector.replicate 16 .none := rfl
@[simp] theorem State.softReset_me (s : State) : (s.softReset).me = Vector.replicate 4 .none := rfl
@[simp] theorem State.softReset_scr (s : State) : (s.softReset).scr = s.scr := rfl
@[simp] theorem State.softReset_status (s : State) : (s.softReset).status = 0 := rfl
@[simp] theorem State.softReset_cnt (s : State) : (s.softReset).cnt = Counters.zero := rfl
@[simp] theorem State.softReset_trace (s : State) : (s.softReset).trace = [] := rfl
@[simp] theorem State.softReset_scrTrace (s : State) : (s.softReset).scrTrace = [] := rfl
@[simp] theorem State.softReset_limbTrace (s : State) : (s.softReset).limbTrace = [] := rfl
@[simp] theorem State.softReset_cmdStream (s : State) : (s.softReset).cmdStream = s.cmdStream := rfl
@[simp] theorem State.softReset_respStream (s : State) : (s.softReset).respStream = s.respStream := rfl

/-! ### `writeBn` -/

@[simp] theorem State.writeBn_cfg (s : State) (r : BnIdx) (v : Int) (sec : Bool) :
    (s.writeBn r v sec).cfg = s.cfg := by
  unfold State.writeBn; split <;> rfl

@[simp] theorem State.writeBn_me (s : State) (r : BnIdx) (v : Int) (sec : Bool) :
    (s.writeBn r v sec).me = s.me := by
  unfold State.writeBn; split <;> rfl

@[simp] theorem State.writeBn_scr (s : State) (r : BnIdx) (v : Int) (sec : Bool) :
    (s.writeBn r v sec).scr = s.scr := by
  unfold State.writeBn; split <;> rfl

@[simp] theorem State.writeBn_status (s : State) (r : BnIdx) (v : Int) (sec : Bool) :
    (s.writeBn r v sec).status = s.status := by
  unfold State.writeBn; split <;> rfl

@[simp] theorem State.writeBn_cnt (s : State) (r : BnIdx) (v : Int) (sec : Bool) :
    (s.writeBn r v sec).cnt = s.cnt := by
  unfold State.writeBn; split <;> rfl

@[simp] theorem State.writeBn_trace (s : State) (r : BnIdx) (v : Int) (sec : Bool) :
    (s.writeBn r v sec).trace = s.trace := by
  unfold State.writeBn; split <;> rfl

@[simp] theorem State.writeBn_scrTrace (s : State) (r : BnIdx) (v : Int) (sec : Bool) :
    (s.writeBn r v sec).scrTrace = s.scrTrace := by
  unfold State.writeBn; split <;> rfl

@[simp] theorem State.writeBn_limbTrace (s : State) (r : BnIdx) (v : Int) (sec : Bool) :
    (s.writeBn r v sec).limbTrace = s.limbTrace := by
  unfold State.writeBn; split <;> rfl

@[simp] theorem State.writeBn_cmdStream (s : State) (r : BnIdx) (v : Int) (sec : Bool) :
    (s.writeBn r v sec).cmdStream = s.cmdStream := by
  unfold State.writeBn; split <;> rfl

@[simp] theorem State.writeBn_respStream (s : State) (r : BnIdx) (v : Int) (sec : Bool) :
    (s.writeBn r v sec).respStream = s.respStream := by
  unfold State.writeBn; split <;> rfl

/-! ### Reading registers and engines after an update -/

@[simp] theorem State.bnAt_setBn (s : State) (r r' : BnIdx) (x : BnReg) :
    (s.setBn r x).bnAt r' = if r' = r then x else s.bnAt r' := by
  simp [State.bnAt, State.setBn, Vector.getElem_set, BitVec.toNat_inj, eq_comm]

@[simp] theorem State.meAt_setMe (s : State) (k k' : EngIdx) (x : Engine) :
    (s.setMe k x).meAt k' = if k' = k then x else s.meAt k' := by
  simp [State.meAt, State.setMe, Vector.getElem_set, BitVec.toNat_inj, eq_comm]

/-- A register file is known by its sixteen registers. -/
theorem State.bn_ext {s t : State} (h : ∀ r, s.bnAt r = t.bnAt r) : s.bn = t.bn := by
  apply Vector.ext
  intro i hi
  have := h (BitVec.ofNat 4 i)
  simpa [State.bnAt, Nat.mod_eq_of_lt hi] using this

/-- The engine file is known by its four engines. -/
theorem State.me_ext {s t : State} (h : ∀ k, s.meAt k = t.meAt k) : s.me = t.me := by
  apply Vector.ext
  intro i hi
  have := h (BitVec.ofNat 2 i)
  simpa [State.meAt, Nat.mod_eq_of_lt hi] using this

/-- A write to a `VALID` register puts the value there and touches no other. -/
theorem State.bnAt_writeBn (s : State) (r r' : BnIdx) (v : Int) (sec : Bool) {b : BigNum}
    (h : s.bnAt r = .valid b) :
    (s.writeBn r v sec).bnAt r' = if r' = r then .valid (b.put v sec) else s.bnAt r' := by
  simp [State.writeBn, h]

/-- Registers and engines read the same after any update of the other fields. -/
@[simp] theorem State.meAt_setBn (s : State) (r : BnIdx) (x : BnReg) (k : EngIdx) :
    (s.setBn r x).meAt k = s.meAt k := rfl
@[simp] theorem State.meAt_writeBn (s : State) (r : BnIdx) (v : Int) (sec : Bool) (k : EngIdx) :
    (s.writeBn r v sec).meAt k = s.meAt k := by
  unfold State.meAt; simp
@[simp] theorem State.bnAt_setMe (s : State) (k : EngIdx) (x : Engine) (r : BnIdx) :
    (s.setMe k x).bnAt r = s.bnAt r := rfl

@[simp] theorem State.bnAt_kernel (s : State) (evs : List KEvent) (ops : List LimbOp) (r : BnIdx) : (s.kernel evs ops).bnAt r = s.bnAt r := rfl
@[simp] theorem State.meAt_kernel (s : State) (evs : List KEvent) (ops : List LimbOp) (k : EngIdx) : (s.kernel evs ops).meAt k = s.meAt k := rfl
@[simp] theorem State.bnAt_countCmd (s : State) (r : BnIdx) : (s.countCmd).bnAt r = s.bnAt r := rfl
@[simp] theorem State.meAt_countCmd (s : State) (k : EngIdx) : (s.countCmd).meAt k = s.meAt k := rfl
@[simp] theorem State.bnAt_scrDone (s : State) (m : Memory) (acc : List ScrAccess) (r : BnIdx) : (s.scrDone m acc).bnAt r = s.bnAt r := rfl
@[simp] theorem State.meAt_scrDone (s : State) (m : Memory) (acc : List ScrAccess) (k : EngIdx) : (s.scrDone m acc).meAt k = s.meAt k := rfl
@[simp] theorem State.bnAt_complete (s : State) (op : BitVec 8) (st : Status) (v : BitVec 64) (p : Limbs) (r : BnIdx) : (s.complete op st v p).bnAt r = s.bnAt r := rfl
@[simp] theorem State.meAt_complete (s : State) (op : BitVec 8) (st : Status) (v : BitVec 64) (p : Limbs) (k : EngIdx) : (s.complete op st v p).meAt k = s.meAt k := rfl
@[simp] theorem State.bnAt_raise (s : State) (op : BitVec 8) (st : Status) (r : BnIdx) : (s.raise op st).bnAt r = s.bnAt r := rfl
@[simp] theorem State.meAt_raise (s : State) (op : BitVec 8) (st : Status) (k : EngIdx) : (s.raise op st).meAt k = s.meAt k := rfl
@[simp] theorem State.bnAt_softReset (s : State) (r : BnIdx) : s.softReset.bnAt r = .none := by
  simp [State.bnAt]
@[simp] theorem State.meAt_softReset (s : State) (k : EngIdx) : s.softReset.meAt k = .none := by
  simp [State.meAt]

/-- Consuming input leaves registers and engines. -/
@[simp] theorem State.bnAt_cmdStream (s : State) (q : List Beat) (r : BnIdx) :
    ({ s with cmdStream := q } : State).bnAt r = s.bnAt r := rfl
@[simp] theorem State.meAt_cmdStream (s : State) (q : List Beat) (k : EngIdx) :
    ({ s with cmdStream := q } : State).meAt k = s.meAt k := rfl

/-! ### The reset state -/

@[simp] theorem State.bnAt_resetWith (c : Cfg) (r : BnIdx) : (State.resetWith c).bnAt r = .none := by
  simp [State.bnAt, State.resetWith]
@[simp] theorem State.meAt_resetWith (c : Cfg) (k : EngIdx) : (State.resetWith c).meAt k = .none := by
  simp [State.meAt, State.resetWith]

/-- The status word, as the shift and OR of R52. -/
theorem statusWord_eq (op : BitVec 8) (st : Status) :
    statusWord op st = (op.setWidth 64 <<< 8) ||| st.code.setWidth 64 := by
  unfold statusWord
  generalize st.code = c
  apply BitVec.eq_of_getLsbD_eq
  intro i hi
  simp only [BitVec.getLsbD_append, BitVec.getLsbD_or, BitVec.getLsbD_shiftLeft, BitVec.getLsbD_setWidth, BitVec.getLsbD_zero]
  have hc : 8 ≤ i → c.getLsbD i = false := fun h => BitVec.getLsbD_of_ge c i h
  have ho : 8 ≤ i - 8 → op.getLsbD (i - 8) = false := fun h => BitVec.getLsbD_of_ge op _ h
  by_cases h1 : i < 8
  · simp [h1, hi]
  · by_cases h2 : i - 8 < 8
    · simp [h1, h2, hi, hc (by omega)]; omega
    · simp [h1, h2, hi, hc (by omega), ho (by omega)]

end Sys2Proof.Machine
end

