-- ==== Sys2Proof/Laws/Ops.lean ====
section
/-!
SUPPORT. How a command ends and what its operand checks come to: one lemma per outcome of each shared operation.
-/

namespace Sys2Proof.Machine

/-! ### The two ends of a command (R52, R56, R93, R244) -/

@[simp] theorem finishCounted_error (o : Op) (s : State) (st : Status) :
    finishCounted o s (.error st) = .next (s.raise o.code st) := rfl
@[simp] theorem finishSystem_error (o : Op) (s : State) (st : Status) :
    finishSystem o s (.error st) = .next (s.raise o.code st) := rfl
@[simp] theorem finishCounted_respond (o : Op) (s s' : State) (val : BitVec 64) (p : Limbs) :
    finishCounted o s (.respond s' val p) = .next (s'.countCmd.complete o.code .ok val p) := rfl
@[simp] theorem finishSystem_respond (o : Op) (s s' : State) (val : BitVec 64) (p : Limbs) :
    finishSystem o s (.respond s' val p) = .next (s'.complete o.code .ok val p) := rfl

/-- The error entry is the one of R244. -/
theorem raised_raise (s : State) (op : BitVec 8) (st : Status) : Raised s op st (s.raise op st) := by
  simp [Raised, State.raise, State.complete, statusWord_eq]

/-- The `OK` status word is the opcode byte shifted (R52). -/
theorem statusWord_ok (op : BitVec 8) : statusWord op .ok = op.setWidth 64 <<< 8 := by
  rw [statusWord_eq]; simp [Status.code]

/-- A completed command answers from the state it has made. -/
theorem answersOk_complete {s s' : State} (h : s'.respStream = s.respStream) (op : BitVec 8) (val : BitVec 64)
    (p : Limbs) : AnswersOk s op val p (s'.complete op .ok val p) := by
  simp [AnswersOk, State.complete, statusWord_ok, h]

/-! ### Events and counters (R23, R56) -/

@[simp] theorem Counters.addEvents_nil (c : Counters) : c.addEvents [] = c := rfl
@[simp] theorem Counters.addEvents_cons (c : Counters) (e : KEvent) (evs : List KEvent) :
    c.addEvents (e :: evs) = (c.addEvent e).addEvents evs := rfl
@[simp] theorem Counters.addEvents_append (c : Counters) (evs evs' : List KEvent) :
    c.addEvents (evs ++ evs') = (c.addEvents evs).addEvents evs' := by
  simp [Counters.addEvents, List.foldl_append]

/-- Each counter gains the number of its events; `cmd` gains none (R59). -/
theorem Counters.addEvents_eq (c : Counters) (evs : List KEvent) :
    c.addEvents evs =
      { cmd := c.cmd
        mul := c.mul + BitVec.ofNat 64 (evs.countP (· == .mul))
        sqr := c.sqr + BitVec.ofNat 64 (evs.countP (· == .sqr))
        red := c.red + BitVec.ofNat 64 (evs.countP (· == .red))
        sel := c.sel + BitVec.ofNat 64 (evs.countP KEvent.inSel)
        add := c.add + BitVec.ofNat 64 (evs.countP KEvent.inAdd) } := by
  induction evs generalizing c with
  | nil => simp
  | cons e evs ih =>
    rw [Counters.addEvents_cons, ih]
    cases e <;> simp [Counters.addEvent, KEvent.inSel, KEvent.inAdd, List.countP_cons, BitVec.ofNat_add, BitVec.add_assoc] <;>
      ac_rfl

@[simp] theorem State.kernel_nil (s : State) : s.kernel [] [] = s := by simp [State.kernel]

/-- A READY engine's kernel set. -/
theorem State.kselAt_ready {s : State} {k : EngIdx} {c : EngineCfg} {m : Modulus} (h : s.meAt k = .ready c m) :
    s.kselAt k = c.ksel := by simp [State.kselAt, h]

/-! ### A completed command -/

@[simp] theorem bnHolding_nat (room : BitVec 16) (v : Nat) (sec : Bool) :
    bnHolding room (v : Int) sec = ⟨room, false, sec, v⟩ := by
  simp [bnHolding]

/-- A command that performs `evs` by the limb-level `passes` and writes one register, said whole. -/
theorem completed_writeBn {s : State} {rd : BnIdx} {d : BigNum} (v : Int) (sec : Bool) (hd : s.bnAt rd = .valid d)
    (evs : List KEvent) (passes : List LimbOp) (op : BitVec 8) {t : State}
    (ht : t = (((s.kernel evs passes).writeBn rd v sec).countCmd).complete op .ok 0 []) :
    AnswersOk s op 0 [] t ∧ WritesBn s rd (bnHolding d.room v sec) t ∧ t.me = s.me ∧ KeepsScr s t ∧
      KeepsInput s t ∧ t.limbTrace = s.limbTrace ++ passes ∧
      Counts s evs (evs.countP (· == .mul)) (evs.countP (· == .sqr)) (evs.countP (· == .red))
        (evs.countP KEvent.inSel) (evs.countP KEvent.inAdd) t := by
  subst ht
  have hd' : (s.kernel evs passes).bnAt rd = .valid d := hd
  refine ⟨answersOk_complete (by simp) _ _ _, ⟨?_, ?_⟩, by simp, ⟨by simp, by simp⟩, ⟨by simp, by simp⟩,
    by simp, by simp, ?_⟩
  · simp [State.bnAt_writeBn _ _ _ _ _ hd', BigNum.put, bnHolding]
  · intro r hr; simp [State.bnAt_writeBn _ _ _ _ _ hd', hr]
  · simp [Counters.addEvents_eq]

/-- A command that writes one engine, said whole. -/
theorem completed_setMe {s : State} (ed : EngIdx) (x : Engine) (op : BitVec 8) {t : State}
    (ht : t = ((s.setMe ed x).countCmd).complete op .ok 0 []) :
    AnswersOk s op 0 [] t ∧ WritesMe s ed x t ∧ t.bn = s.bn ∧ KeepsScr s t ∧ KeepsInput s t ∧
      Counts s [] 0 0 0 0 0 t := by
  subst ht
  refine ⟨answersOk_complete (by simp) _ _ _, ⟨by simp, ?_⟩, by simp, ⟨by simp, by simp⟩, ⟨by simp, by simp⟩,
    by simp, by simp⟩
  intro k hk; simp [hk]

/-! ### Operand checks (R120, R150, R180, R210) -/

section Checks

variable {s : State} {rd ra rb rc : BnIdx} {ed ee : EngIdx} {d a b c : BigNum} {e e' : EngineCfg} {m m' : Modulus}

theorem withA_valid (h : s.bnAt ra = .valid a) (k : BigNum → CmdResult) : withA s ra k = k a := by
  simp [withA, h]
theorem withA_none (h : s.bnAt ra = .none) (k : BigNum → CmdResult) : withA s ra k = .error .contextMismatch := by
  simp [withA, h]

theorem withDA_valid (hd : s.bnAt rd = .valid d) (ha : s.bnAt ra = .valid a) (k : BigNum → BigNum → CmdResult) :
    withDA s rd ra k = k d a := by simp [withDA, hd, ha]
theorem withDA_none (h : s.bnAt rd = .none ∨ s.bnAt ra = .none) (k : BigNum → BigNum → CmdResult) :
    withDA s rd ra k = .error .contextMismatch := by
  unfold withDA
  cases hd : s.bnAt rd <;> cases ha : s.bnAt ra <;> simp_all

theorem withDAB_valid (hd : s.bnAt rd = .valid d) (ha : s.bnAt ra = .valid a) (hb : s.bnAt rb = .valid b)
    (k : BigNum → BigNum → BigNum → CmdResult) : withDAB s rd ra rb k = k d a b := by
  simp [withDAB, withDA_valid hd ha, hb]
theorem withDAB_none (h : s.bnAt rd = .none ∨ s.bnAt ra = .none ∨ s.bnAt rb = .none)
    (k : BigNum → BigNum → BigNum → CmdResult) : withDAB s rd ra rb k = .error .contextMismatch := by
  unfold withDAB withDA
  cases hd : s.bnAt rd <;> cases ha : s.bnAt ra <;> cases hb : s.bnAt rb <;> simp_all

theorem withReady_ready (h : s.meAt ed = .ready e m) (k : Modulus → CmdResult) : withReady s ed k = k m := by
  simp [withReady, h]

theorem withReady2_ready (h : s.meAt ed = .ready e m) (h' : s.meAt ee = .ready e' m')
    (k : Modulus → Modulus → CmdResult) : withReady2 s ed ee k = k m m' := by
  simp [withReady2, h, h']

/-- In range means not negative and below the bound. -/
theorem BigNum.inRange_iff (b : BigNum) (n : Nat) : b.inRange n = true ↔ b.neg = false ∧ b.mag < n := by
  simp [BigNum.inRange]

theorem withMont_ok (hd : s.bnAt rd = .valid d) (ha : s.bnAt ra = .valid a) (he : s.meAt ed = .ready e m)
    {bound : Modulus → Nat} (hr : a.inRange (bound m) = true) (hroom : m.L.toNat ≤ d.room.toNat)
    (k : BigNum → Modulus → CmdResult) : withMont s rd ra ed bound k = k a m := by
  simp [withMont, withDA_valid hd ha, withReady_ready he, hr, Nat.not_lt.2 hroom]

theorem withMont2_ok (hd : s.bnAt rd = .valid d) (ha : s.bnAt ra = .valid a) (hb : s.bnAt rb = .valid b)
    (he : s.meAt ed = .ready e m) (hra : a.inRange m.M = true) (hrb : b.inRange m.M = true)
    (hroom : m.L.toNat ≤ d.room.toNat) (k : BigNum → BigNum → Modulus → CmdResult) :
    withMont2 s rd ra rb ed k = k a b m := by
  simp [withMont2, withDAB_valid hd ha hb, withReady_ready he, hra, hrb, Nat.not_lt.2 hroom]

theorem withExp_ok (hd : s.bnAt rd = .valid d) (ha : s.bnAt ra = .valid a) (hb : s.bnAt rb = .valid b)
    (he : s.meAt ed = .ready e m) {badE : BigNum → Bool} {badW : BigNum → Modulus → Bool} (hE : badE b = false)
    (hra : a.inRange m.M = true) (hroom : m.L.toNat ≤ d.room.toNat) (hw : badW b m = false)
    (k : BigNum → BigNum → Modulus → CmdResult) : withExp s rd ra rb ed badE badW k = k a b m := by
  simp [withExp, withDAB_valid hd ha hb, withReady_ready he, hra, hE, hw, Nat.not_lt.2 hroom]

theorem withCrt_ok (hd : s.bnAt rd = .valid d) (ha : s.bnAt ra = .valid a) (hb : s.bnAt rb = .valid b)
    (hc : s.bnAt rc = .valid c) (he : s.meAt ed = .ready e m) (he' : s.meAt ee = .ready e' m')
    (hra : a.inRange m.M = true) (hrb : b.inRange m'.M = true) (hrc : c.inRange m.M = true)
    (hroom : m.L.toNat + m'.L.toNat ≤ d.room.toNat)
    (k : BigNum → BigNum → BigNum → Modulus → Modulus → CmdResult) :
    withCrt s rd ra rb rc ed ee k = k a b c m m' := by
  simp [withCrt, withDAB_valid hd ha hb, withA_valid hc, withReady2_ready he he', hra, hrb, hrc, Nat.not_lt.2 hroom]

end Checks

/-! ### Any predicate on the result of a check -/

/-- Everything a register check can do. -/
theorem withA_cases {P : CmdResult → Prop} {s : State} {ra : BnIdx} {k : BigNum → CmdResult}
    (h0 : s.bnAt ra = .none → P (.error .contextMismatch)) (h : ∀ a, s.bnAt ra = .valid a → P (k a)) :
    P (withA s ra k) := by
  unfold withA; split
  · exact h _ ‹_›
  · exact h0 ‹_›

theorem withDA_cases {P : CmdResult → Prop} {s : State} {rd ra : BnIdx} {k : BigNum → BigNum → CmdResult}
    (h0 : s.bnAt rd = .none ∨ s.bnAt ra = .none → P (.error .contextMismatch))
    (h : ∀ d a, s.bnAt rd = .valid d → s.bnAt ra = .valid a → P (k d a)) : P (withDA s rd ra k) := by
  unfold withDA; split
  · exact h _ _ ‹_› ‹_›
  · exact h0 (.inl ‹_›)
  · exact h0 (.inr ‹_›)

theorem withDAB_cases {P : CmdResult → Prop} {s : State} {rd ra rb : BnIdx} {k : BigNum → BigNum → BigNum → CmdResult}
    (h0 : s.bnAt rd = .none ∨ s.bnAt ra = .none ∨ s.bnAt rb = .none → P (.error .contextMismatch))
    (h : ∀ d a b, s.bnAt rd = .valid d → s.bnAt ra = .valid a → s.bnAt rb = .valid b → P (k d a b)) :
    P (withDAB s rd ra rb k) := by
  unfold withDAB
  refine withDA_cases (fun h' => h0 (by tauto)) fun d a hd ha => ?_
  split
  · exact h _ _ _ hd ha ‹_›
  · exact h0 (.inr (.inr ‹_›))

theorem withReady_cases {P : CmdResult → Prop} {s : State} {ed : EngIdx} {k : Modulus → CmdResult}
    (h0 : s.meAt ed = .none → P (.error .contextMismatch))
    (h1 : ∀ e, s.meAt ed = .created e → P (.error .incompleteContext))
    (h : ∀ e m, s.meAt ed = .ready e m → P (k m)) : P (withReady s ed k) := by
  unfold withReady; split
  · exact h0 ‹_›
  · exact h1 _ ‹_›
  · exact h _ _ ‹_›

theorem withReady2_cases {P : CmdResult → Prop} {s : State} {ed ee : EngIdx} {k : Modulus → Modulus → CmdResult}
    (h0 : s.meAt ed = .none ∨ s.meAt ee = .none → P (.error .contextMismatch))
    (h1 : s.meAt ed ≠ .none → s.meAt ee ≠ .none →
      ((∃ e, s.meAt ed = .created e) ∨ ∃ e, s.meAt ee = .created e) → P (.error .incompleteContext))
    (h : ∀ e m e' m', s.meAt ed = .ready e m → s.meAt ee = .ready e' m' → P (k m m')) :
    P (withReady2 s ed ee k) := by
  unfold withReady2
  cases hd : s.meAt ed <;> cases he : s.meAt ee <;> simp_all

/-! ### The same with one premise for every error: what a command does when its checks pass -/

theorem withMont_cases {P : CmdResult → Prop} {s : State} {rd ra : BnIdx} {ed : EngIdx} {bound : Modulus → Nat}
    {k : BigNum → Modulus → CmdResult} (h0 : ∀ st, st.Raisable → st ≠ .ok → P (.error st))
    (h : ∀ d a e m, s.bnAt rd = .valid d → s.bnAt ra = .valid a → s.meAt ed = .ready e m →
      a.neg = false → a.mag < bound m → m.L.toNat ≤ d.room.toNat → P (k a m)) : P (withMont s rd ra ed bound k) := by
  unfold withMont
  refine withDA_cases (fun _ => h0 _ (by decide) (by decide)) fun d a hd ha => ?_
  refine withReady_cases (fun _ => h0 _ (by decide) (by decide)) (fun _ _ => h0 _ (by decide) (by decide)) fun e m he => ?_
  split
  · exact h0 _ (by decide) (by decide)
  · next hr =>
    split
    · exact h0 _ (by decide) (by decide)
    · next hroom =>
      obtain ⟨hn, hl⟩ := (BigNum.inRange_iff _ _).1 (by simpa using hr)
      exact h d a e m hd ha he hn hl (Nat.not_lt.1 hroom)

theorem withMont2_cases {P : CmdResult → Prop} {s : State} {rd ra rb : BnIdx} {ed : EngIdx}
    {k : BigNum → BigNum → Modulus → CmdResult} (h0 : ∀ st, st.Raisable → st ≠ .ok → P (.error st))
    (h : ∀ d a b e m, s.bnAt rd = .valid d → s.bnAt ra = .valid a → s.bnAt rb = .valid b → s.meAt ed = .ready e m →
      a.neg = false → a.mag < m.M → b.neg = false → b.mag < m.M → m.L.toNat ≤ d.room.toNat → P (k a b m)) :
    P (withMont2 s rd ra rb ed k) := by
  unfold withMont2
  refine withDAB_cases (fun _ => h0 _ (by decide) (by decide)) fun d a b hd ha hb => ?_
  refine withReady_cases (fun _ => h0 _ (by decide) (by decide)) (fun _ _ => h0 _ (by decide) (by decide)) fun e m he => ?_
  split
  · exact h0 _ (by decide) (by decide)
  · next hr =>
    split
    · exact h0 _ (by decide) (by decide)
    · next hroom =>
      simp only [Bool.not_eq_true', Bool.not_eq_false, Bool.and_eq_true, BigNum.inRange_iff] at hr
      exact h d a b e m hd ha hb he hr.1.1 hr.1.2 hr.2.1 hr.2.2 (Nat.not_lt.1 hroom)

theorem withExp_cases {P : CmdResult → Prop} {s : State} {rd ra rb : BnIdx} {ed : EngIdx} {badE : BigNum → Bool}
    {badW : BigNum → Modulus → Bool} {k : BigNum → BigNum → Modulus → CmdResult}
    (h0 : ∀ st, st.Raisable → st ≠ .ok → P (.error st))
    (h : ∀ d a b e m, s.bnAt rd = .valid d → s.bnAt ra = .valid a → s.bnAt rb = .valid b → s.meAt ed = .ready e m →
      badE b = false → a.neg = false → a.mag < m.M → m.L.toNat ≤ d.room.toNat → badW b m = false → P (k a b m)) :
    P (withExp s rd ra rb ed badE badW k) := by
  unfold withExp
  refine withDAB_cases (fun _ => h0 _ (by decide) (by decide)) fun d a b hd ha hb => ?_
  refine withReady_cases (fun _ => h0 _ (by decide) (by decide)) (fun _ _ => h0 _ (by decide) (by decide)) fun e m he => ?_
  split
  · exact h0 _ (by decide) (by decide)
  · next hE =>
    split
    · exact h0 _ (by decide) (by decide)
    · next hr =>
      split
      · exact h0 _ (by decide) (by decide)
      · next hroom =>
        split
        · exact h0 _ (by decide) (by decide)
        · next hw =>
          simp only [Bool.not_eq_true', Bool.not_eq_false, BigNum.inRange_iff] at hr
          exact h d a b e m hd ha hb he (by simpa using hE) hr.1 hr.2 (Nat.not_lt.1 hroom) (by simpa using hw)

theorem withCrt_cases {P : CmdResult → Prop} {s : State} {rd ra rb rc : BnIdx} {ed ee : EngIdx}
    {k : BigNum → BigNum → BigNum → Modulus → Modulus → CmdResult} (h0 : ∀ st, st.Raisable → st ≠ .ok → P (.error st))
    (h : ∀ d a b c e p e' q, s.bnAt rd = .valid d → s.bnAt ra = .valid a → s.bnAt rb = .valid b →
      s.bnAt rc = .valid c → s.meAt ed = .ready e p → s.meAt ee = .ready e' q →
      a.neg = false → a.mag < p.M → b.neg = false → b.mag < q.M → c.neg = false → c.mag < p.M →
      p.L.toNat + q.L.toNat ≤ d.room.toNat → P (k a b c p q)) : P (withCrt s rd ra rb rc ed ee k) := by
  unfold withCrt
  refine withDAB_cases (fun _ => h0 _ (by decide) (by decide)) fun d a b hd ha hb => ?_
  refine withA_cases (fun _ => h0 _ (by decide) (by decide)) fun c hc => ?_
  refine withReady2_cases (fun _ => h0 _ (by decide) (by decide)) (fun _ _ _ => h0 _ (by decide) (by decide)) fun e p e' q he he' => ?_
  split
  · exact h0 _ (by decide) (by decide)
  · next hr =>
    split
    · exact h0 _ (by decide) (by decide)
    · next hroom =>
      simp only [Bool.not_eq_true', Bool.not_eq_false, Bool.and_eq_true, BigNum.inRange_iff] at hr
      exact h d a b c e p e' q hd ha hb hc he he' hr.1.1.1 hr.1.1.2 hr.1.2.1 hr.1.2.2 hr.2.1 hr.2.2
        (Nat.not_lt.1 hroom)

end Sys2Proof.Machine
end

