-- ==== Sys2Proof/Laws/Exponentiation.lean ====
section
/-!
SUPPORT. The three exponentiation loops: their values, their events, and the scratch memory of the windowed one (R183 to R195).
-/

namespace Sys2Proof.Machine

/-! ### Masked select and lookup (R22, R194) -/

/-- The masked select is a select on true limbs (R22). -/
theorem ctSelect_eq {W : Nat} (hW : W ≤ 64) (c : Bool) {u v : Limbs} (hl : u.length = v.length)
    (hu : ∀ x ∈ u, x.toNat < 2 ^ W) (hv : ∀ x ∈ v, x.toNat < 2 ^ W) : ctSelect W c u v = if c then u else v := by
  induction u generalizing v with
  | nil =>
    cases v with
    | nil => cases c <;> rfl
    | cons y v => simp at hl
  | cons x u ih =>
    cases v with
    | nil => simp at hl
    | cons y v =>
      have := ih (v := v) (by simpa using hl) (fun z hz => hu z (by simp [hz])) fun z hz => hv z (by simp [hz])
      unfold ctSelect at this ⊢
      rw [List.zipWith_cons_cons, this]
      cases c
      · rw [and_maskW_false, and_not_maskW_false]; simp
      · rw [maskW_true_and hW (hu x (by simp)), and_not_maskW_true hW (hv y (by simp))]; simp

/-- An OR over slots of which one is not masked out. -/
theorem foldl_or_one (n k : Nat) (f : Nat → Limb) (z : Limb) :
    (List.range n).foldl (fun acc s => acc ||| (if s = k then f s else 0)) z = if k < n then z ||| f k else z := by
  induction n with
  | zero => simp
  | succ n ih =>
    rw [List.range_succ, List.foldl_append, ih]
    simp only [List.foldl_cons, List.foldl_nil]
    by_cases hkn : k < n
    · rw [if_pos hkn, if_neg (by omega), if_pos (by omega)]; simp
    · rw [if_neg hkn]
      by_cases hk : n = k
      · subst hk; simp
      · rw [if_neg hk, if_neg (by omega)]; simp

/-- One limb of the oblivious lookup is the limb of the slot asked for. -/
theorem lookupLimb_eq {W : Nat} (hW : W ≤ 64) {mem : Memory} {sbase w k j : Nat} (hk : k < 2 ^ w)
    (hlt : (Memory.read mem (tableAddr sbase w k j)).toNat < 2 ^ W) :
    lookupLimb W mem sbase w k j = Memory.read mem (tableAddr sbase w k j) := by
  unfold lookupLimb
  have hf : (fun (acc : Limb) s => acc ||| (Memory.read mem (tableAddr sbase w s j) &&& maskW W (decide (s = k)))) =
      fun acc s => acc ||| (if s = k then Memory.read mem (tableAddr sbase w k j) else 0) := by
    funext acc s
    by_cases h : s = k
    · subst h; simp [maskW_true_and hW hlt]
    · simp [h, and_maskW_false]
  rw [hf, foldl_or_one (2 ^ w) k (fun _ => Memory.read mem (tableAddr sbase w k j)), if_pos hk]
  simp

/-- Two table cells share an address only if they are the same cell (R193). -/
theorem tableAddr_inj {sbase w k j k' j' : Nat} (hk : k < 2 ^ w) (hk' : k' < 2 ^ w)
    (h : tableAddr sbase w k j = tableAddr sbase w k' j') : k = k' ∧ j = j' := by
  unfold tableAddr at h
  have h' : j * 2 ^ w + k = j' * 2 ^ w + k' := by omega
  have hm := congrArg (· % 2 ^ w) h'
  have hd := congrArg (· / 2 ^ w) h'
  simp only [Nat.mul_add_mod', Nat.mod_eq_of_lt hk, Nat.mod_eq_of_lt hk'] at hm
  rw [Nat.add_comm, Nat.add_comm (j' * 2 ^ w)] at hd
  simp only [Nat.add_mul_div_right _ _ (show 0 < 2 ^ w by positivity), Nat.div_eq_of_lt hk, Nat.div_eq_of_lt hk',
    Nat.zero_add] at hd
  exact ⟨hm, hd⟩

theorem mem_tableWrites {W L sbase w : Nat} {T : List Nat} {x : Nat × Limb} :
    x ∈ tableWrites W L sbase w T ↔
      ∃ k < 2 ^ w, ∃ j < L, x = (tableAddr sbase w k j, limbAt W (T.getD k 0) j) := by
  simp [tableWrites, eq_comm]

/-- After the table is written each of its cells holds its limb (R193). -/
theorem read_table {W L sbase w : Nat} {T : List Nat} {mem : Memory} (hm : Memory.wf mem = true) {k j : Nat}
    (hk : k < 2 ^ w) (hj : j < L) :
    Memory.read (Memory.writeAll mem (tableWrites W L sbase w T)) (tableAddr sbase w k j)
      = limbAt W (T.getD k 0) j := by
  refine Memory.read_writeAll_same hm _ ⟨_, mem_tableWrites.2 ⟨k, hk, j, hj, rfl⟩, rfl⟩ ?_
  intro x hx hxa
  obtain ⟨k', hk', j', hj', rfl⟩ := mem_tableWrites.1 hx
  obtain ⟨rfl, rfl⟩ := tableAddr_inj hk' hk hxa
  rfl

/-- The oblivious lookup on a memory that holds the table gives the entry (R194). -/
theorem lookupVal_eq {W L sbase w : Nat} (hW : W ≤ 64) {T : List Nat} {mem : Memory} {k : Nat} (hk : k < 2 ^ w)
    (hT : T.getD k 0 < 2 ^ (W * L))
    (hread : ∀ j < L, Memory.read mem (tableAddr sbase w k j) = limbAt W (T.getD k 0) j) :
    lookupVal W L mem sbase w k = T.getD k 0 := by
  unfold lookupVal
  have : (List.range L).map (lookupLimb W mem sbase w k) = limbsOf W L (T.getD k 0) := by
    unfold limbsOf
    apply List.map_congr_left
    intro j hj
    have hr := hread j (List.mem_range.1 hj)
    rw [lookupLimb_eq hW hk (by rw [hr]; exact limbAt_lt hW _ _), hr]
  rw [this, limbsVal_limbsOf_of_lt hW hT]

/-! ### The window of `SCR` (R83, R193, R195) -/

/-- The table's cells are exactly the `2^w · L` limbs from `sbase` (R193). -/
theorem tableAddr_range {sbase w L k j : Nat} (hk : k < 2 ^ w) (hj : j < L) :
    sbase ≤ tableAddr sbase w k j ∧ tableAddr sbase w k j < sbase + 2 ^ w * L := by
  unfold tableAddr
  refine ⟨by omega, ?_⟩
  have : (j + 1) * 2 ^ w ≤ L * 2 ^ w := Nat.mul_le_mul_right _ hj
  rw [Nat.succ_mul] at this
  rw [Nat.mul_comm (2 ^ w) L]
  omega

/-- Reading after the wipe (R195). -/
theorem read_wipe {mem : Memory} (hm : Memory.wf mem = true) (sbase need a : Nat) :
    Memory.read (Memory.writeAll mem (wipeWrites sbase need)) a =
      if sbase ≤ a ∧ a < sbase + need then 0 else Memory.read mem a := by
  split
  · next h =>
    refine Memory.read_writeAll_same hm _ ⟨(a, 0), ?_, rfl⟩ ?_
    · exact List.mem_map.2 ⟨a - sbase, List.mem_range.2 (by omega), by simp; omega⟩
    · intro x hx _
      obtain ⟨i, _, rfl⟩ := List.mem_map.1 hx
      rfl
  · next h =>
    refine Memory.read_writeAll_other hm _ ?_
    intro x hx
    obtain ⟨i, hi, rfl⟩ := List.mem_map.1 hx
    have := List.mem_range.1 hi
    simp only
    omega

/-- After the table and the wipe, the window is zero and every other limb is as before. -/
theorem read_table_wipe {W L sbase w : Nat} {T : List Nat} {mem : Memory} (hm : Memory.wf mem = true) (a : Nat) :
    Memory.read
        (Memory.writeAll (Memory.writeAll mem (tableWrites W L sbase w T)) (wipeWrites sbase (2 ^ w * L))) a =
      if sbase ≤ a ∧ a < sbase + 2 ^ w * L then 0 else Memory.read mem a := by
  rw [read_wipe (Memory.wf_writeAll hm _)]
  split
  · rfl
  · next h =>
    refine Memory.read_writeAll_other hm _ ?_
    intro x hx hxa
    obtain ⟨k, hk, j, hj, rfl⟩ := mem_tableWrites.1 hx
    have := tableAddr_range (sbase := sbase) hk hj
    simp only at hxa
    omega

/-- The table is written once to each limb of the window, in some order (R193). -/
theorem tableWrites_perm (W L sbase w : Nat) (T : List Nat) :
    ((tableWrites W L sbase w T).map (fun x => ScrAccess.write x.1)).Perm
      ((List.range (2 ^ w * L)).map fun i => ScrAccess.write (sbase + i)) := by
  have h1 : (tableWrites W L sbase w T).map (fun x => x.1) =
      (List.range (2 ^ w)).flatMap fun k => (List.range L).map fun j => tableAddr sbase w k j := by
    simp [tableWrites, List.map_flatMap]; rfl
  have h2 : ((List.range (2 ^ w)).flatMap fun k => (List.range L).map fun j => tableAddr sbase w k j).Perm
      ((List.range (2 ^ w * L)).map fun i => sbase + i) := by
    rw [List.perm_ext_iff_of_nodup]
    · intro x
      simp only [List.mem_flatMap, List.mem_map, List.mem_range]
      constructor
      · rintro ⟨k, hk, j, hj, rfl⟩
        have := tableAddr_range (sbase := sbase) hk hj
        exact ⟨tableAddr sbase w k j - sbase, by omega, by omega⟩
      · rintro ⟨i, hi, rfl⟩
        refine ⟨i % 2 ^ w, Nat.mod_lt _ (by positivity), i / 2 ^ w, ?_, ?_⟩
        · exact Nat.div_lt_of_lt_mul hi
        · unfold tableAddr
          have := Nat.div_add_mod' i (2 ^ w)
          omega
    · rw [List.nodup_flatMap]
      refine ⟨fun k hk => ?_, ?_⟩
      · refine List.Nodup.map_on ?_ List.nodup_range
        intro j _ j' _ h
        exact (tableAddr_inj (List.mem_range.1 hk) (List.mem_range.1 hk) h).2
      · refine List.Pairwise.imp_of_mem ?_ List.nodup_range
        intro k k' hk hk' hne x hx hx'
        obtain ⟨j, _, rfl⟩ := List.mem_map.1 hx
        obtain ⟨j', _, h⟩ := List.mem_map.1 hx'
        exact hne (tableAddr_inj (List.mem_range.1 hk) (List.mem_range.1 hk') h.symm).1
    · exact List.Nodup.map (fun x y h => by simpa using h) List.nodup_range
  have := h2.map ScrAccess.write
  rw [← h1] at this
  simpa [List.map_map, Function.comp_def] using this

/-! ### The fields of a run after each operation -/

@[simp] theorem Run.sqr_acc (W : Nat) (m : Modulus) (r : Run) : (r.sqr W m).acc = montSqr W m r.acc := rfl
@[simp] theorem Run.sqr_events (W : Nat) (m : Modulus) (r : Run) : (r.sqr W m).events = r.events ++ [.sqr] := rfl
@[simp] theorem Run.sqr_mem (W : Nat) (m : Modulus) (r : Run) : (r.sqr W m).mem = r.mem := rfl
@[simp] theorem Run.sqr_accesses (W : Nat) (m : Modulus) (r : Run) : (r.sqr W m).accesses = r.accesses := rfl
@[simp] theorem Run.mul_acc (W : Nat) (m : Modulus) (t : Nat) (r : Run) : (r.mul W m t).acc = montMul W m r.acc t := rfl
@[simp] theorem Run.mul_events (W : Nat) (m : Modulus) (t : Nat) (r : Run) : (r.mul W m t).events = r.events ++ [.mul] := rfl
@[simp] theorem Run.mul_mem (W : Nat) (m : Modulus) (t : Nat) (r : Run) : (r.mul W m t).mem = r.mem := rfl
@[simp] theorem Run.mul_accesses (W : Nat) (m : Modulus) (t : Nat) (r : Run) : (r.mul W m t).accesses = r.accesses := rfl
@[simp] theorem Run.red_acc (W : Nat) (m : Modulus) (r : Run) : (r.red W m).acc = montRed W m r.acc := rfl
@[simp] theorem Run.red_events (W : Nat) (m : Modulus) (r : Run) : (r.red W m).events = r.events ++ [.red] := rfl
@[simp] theorem Run.red_mem (W : Nat) (m : Modulus) (r : Run) : (r.red W m).mem = r.mem := rfl
@[simp] theorem Run.red_accesses (W : Nat) (m : Modulus) (r : Run) : (r.red W m).accesses = r.accesses := rfl
@[simp] theorem Run.perform_acc (evs : List KEvent) (r : Run) : (r.perform evs).acc = r.acc := rfl
@[simp] theorem Run.perform_events (evs : List KEvent) (r : Run) : (r.perform evs).events = r.events ++ evs := rfl
@[simp] theorem Run.perform_mem (evs : List KEvent) (r : Run) : (r.perform evs).mem = r.mem := rfl
@[simp] theorem Run.perform_accesses (evs : List KEvent) (r : Run) : (r.perform evs).accesses = r.accesses := rfl
@[simp] theorem Run.writeMem_acc (ws : List (Nat × Limb)) (r : Run) : (r.writeMem ws).acc = r.acc := rfl
@[simp] theorem Run.writeMem_events (ws : List (Nat × Limb)) (r : Run) : (r.writeMem ws).events = r.events := rfl
@[simp] theorem Run.writeMem_mem (ws : List (Nat × Limb)) (r : Run) : (r.writeMem ws).mem = Memory.writeAll r.mem ws := rfl
@[simp] theorem Run.writeMem_accesses (ws : List (Nat × Limb)) (r : Run) :
    (r.writeMem ws).accesses = r.accesses ++ ws.map fun x => .write x.1 := rfl

/-- `n` squares in a row. -/
theorem Run.times_sqr_facts (W : Nat) (m : Modulus) (n : Nat) (r : Run) :
    (r.times (Run.sqr W m) n).events = r.events ++ List.replicate n .sqr ∧
      (r.times (Run.sqr W m) n).mem = r.mem ∧ (r.times (Run.sqr W m) n).accesses = r.accesses := by
  induction n generalizing r with
  | zero => simp [Run.times]
  | succ n ih =>
    obtain ⟨h1, h2, h3⟩ := ih (r.sqr W m)
    refine ⟨?_, h2, h3⟩
    show (Run.times (Run.sqr W m) n (r.sqr W m)).events = _
    rw [h1, Run.sqr_events, List.replicate_succ]; simp

/-! ### The loops' values -/

theorem range_succ_reverse (n : Nat) : (List.range (n + 1)).reverse = n :: (List.range n).reverse := by
  rw [List.range_succ, List.reverse_append]; rfl

theorem bitsDown_succ (n E : Nat) : bitsDown (n + 1) E = E.testBit n :: bitsDown n E := by
  unfold bitsDown; rw [range_succ_reverse]; rfl

/-- An exponent's prefix one bit longer. -/
theorem div_two_pow_succ (E n : Nat) : E / 2 ^ n = 2 * (E / 2 ^ (n + 1)) + (E.testBit n).toNat := by
  rw [Nat.pow_succ, ← Nat.div_div_eq_div_mul, Nat.toNat_testBit]
  omega

section Values

variable {W : Nat} {e : EngineCfg} {m : Modulus}

theorem ReadyFacts.sqr_enc (h : ReadyFacts W e m) (y : Nat) : montSqr W m (enc W m y) = enc W m (y * y) := by
  rw [montSqr_eq_montRed, ← montMul_eq_montRed, h.montMul_enc]

/-- One bit of either bit-by-bit method, from the prefix's power to the longer prefix's. -/
theorem ReadyFacts.expBinBit_acc (h : ReadyFacts W e m) (X y : Nat) (b : Bool) {r : Run} (hr : r.acc = enc W m y) :
    (expBinBit W m (enc W m X) r b).acc = enc W m (y * y * X ^ b.toNat) := by
  cases b <;> simp [expBinBit, hr, h.sqr_enc, h.montMul_enc]

theorem ReadyFacts.expCtBit_acc (h : ReadyFacts W e m) (hW : W ≤ 64) (X y : Nat) (b : Bool) {r : Run}
    (hr : r.acc = enc W m y) : (expCtBit W m (enc W m X) r b).acc = enc W m (y * y * X ^ b.toNat) := by
  have hM : m.M < 2 ^ (W * m.L.toNat) := by have := h.M_lt; rwa [Nat.mul_comm] at this
  have hsel : limbsVal W (ctSelect W b (limbsOf W m.L.toNat (enc W m X)) (limbsOf W m.L.toNat m.R))
      = if b then enc W m X else m.R := by
    rw [ctSelect_eq hW b (by simp) (limbsOf_lt hW _ _) (limbsOf_lt hW _ _)]
    cases b
    · exact limbsVal_limbsOf_of_lt hW (lt_trans h.R_lt hM)
    · exact limbsVal_limbsOf_of_lt hW (lt_trans (h.enc_lt X) hM)
  unfold expCtBit
  simp only [hsel, Run.mul_acc, Run.perform_acc, Run.sqr_acc, hr, h.sqr_enc]
  cases b
  · simp [h.montMul_R (h.enc_lt _)]
  · simp [h.montMul_enc]

/-- A fold of either bit step over the bits of `E` from bit `n−1` down. -/
theorem foldl_bits_acc {f : Run → Bool → Run} {X E : Nat}
    (hf : ∀ y b r, r.acc = enc W m y → (f r b).acc = enc W m (y * y * X ^ b.toNat)) (n : Nat) (r : Run)
    (hr : r.acc = enc W m (X ^ (E / 2 ^ n))) : ((bitsDown n E).foldl f r).acc = enc W m (X ^ E) := by
  induction n generalizing r with
  | zero => simpa [bitsDown] using hr
  | succ n ih =>
    rw [bitsDown_succ, List.foldl_cons]
    refine ih _ ?_
    rw [hf _ _ _ hr, div_two_pow_succ E n]
    congr 1
    rw [Nat.two_mul, pow_add X, pow_add X]

theorem ReadyFacts.start_acc (h : ReadyFacts W e m) (X E : Nat) (mem : Memory) :
    (Run.start m mem).acc = enc W m (X ^ (E / 2 ^ bitlen E)) := by
  rw [Nat.div_eq_of_lt (lt_two_pow_bitlen E), Nat.pow_zero]
  exact h.R_eq_enc

/-- R183's result is `X^E mod M` (R186). -/
theorem ReadyFacts.expBinRun_acc (h : ReadyFacts W e m) (mem : Memory) (X E : Nat) :
    (expBinRun W m mem X E).acc = X ^ E % m.M := by
  unfold expBinRun
  rw [Run.red_acc, foldl_bits_acc (fun y b r hr => h.expBinBit_acc X y b hr) _ _ (h.start_acc X E mem)]
  exact h.dec_enc _

/-- R184's result is `X^E mod M` (R186). -/
theorem ReadyFacts.expCtRun_acc (h : ReadyFacts W e m) (hW : W ≤ 64) (mem : Memory) (X E : Nat) :
    (expCtRun W m mem X E).acc = X ^ E % m.M := by
  unfold expCtRun
  rw [Run.red_acc, foldl_bits_acc (fun y b r hr => h.expCtBit_acc hW X y b hr) _ _ (h.start_acc X E mem)]
  exact h.dec_enc _

/-! ### The window table's values (R185) -/

theorem length_powersAfter (W : Nat) (m : Modulus) (xR n p : Nat) : (powersAfter W m xR n p).length = n := by
  induction n generalizing p with
  | zero => rfl
  | succ n ih => simp [powersAfter, ih]

theorem length_powerTable (W : Nat) (m : Modulus) (xR : Nat) {w : Nat} (hw : 1 ≤ w) :
    (powerTable W m xR w).length = 2 ^ w := by
  have := two_le_two_pow hw
  simp [powerTable, length_powersAfter]; omega

theorem ReadyFacts.powersAfter_eq (h : ReadyFacts W e m) (X n p : Nat) :
    powersAfter W m (enc W m X) n (enc W m (X ^ p)) = (List.range n).map fun i => enc W m (X ^ (p + 1 + i)) := by
  induction n generalizing p with
  | zero => rfl
  | succ n ih =>
    rw [powersAfter, h.montMul_enc, ← Nat.pow_succ, ih, List.range_succ_eq_map, List.map_cons, List.map_map]
    refine congrArg₂ _ rfl (List.map_congr_left fun i _ => ?_)
    simp only [Function.comp]
    congr 2
    omega

/-- Entry `k` of the table is `Enc(X^k)`. -/
theorem ReadyFacts.powerTable_getD (h : ReadyFacts W e m) (X : Nat) {w k : Nat} (hw : 1 ≤ w) (hk : k < 2 ^ w) :
    (powerTable W m (enc W m X) w).getD k 0 = enc W m (X ^ k) := by
  have h2 := two_le_two_pow hw
  have e1 : enc W m X = enc W m (X ^ 1) := by rw [Nat.pow_one]
  unfold powerTable
  match k, hk with
  | 0, _ => simp [h.R_eq_enc]
  | 1, _ => simp
  | k + 2, hk =>
    simp only [List.getD_cons_succ]
    conv_lhs => rw [show powersAfter W m (enc W m X) (2 ^ w - 2) (enc W m X)
      = powersAfter W m (enc W m X) (2 ^ w - 2) (enc W m (X ^ 1)) by rw [Nat.pow_one]]
    rw [h.powersAfter_eq, List.getD_eq_getElem?_getD, List.getElem?_map, List.getElem?_range (by omega)]
    simp only [Option.map_some, Option.getD_some]
    congr 2
    omega

/-! ### The windowed loop (R185) -/

theorem ReadyFacts.times_sqr_acc (h : ReadyFacts W e m) (n y : Nat) {r : Run} (hr : r.acc = enc W m y) :
    (r.times (Run.sqr W m) n).acc = enc W m (y ^ 2 ^ n) := by
  induction n generalizing r y with
  | zero => simpa [Run.times] using hr
  | succ n ih =>
    show (Run.times (Run.sqr W m) n (r.sqr W m)).acc = _
    rw [ih (y * y) (by rw [Run.sqr_acc, hr, h.sqr_enc]), ← Nat.pow_two, ← Nat.pow_mul, Nat.pow_succ, Nat.mul_comm 2]

/-- An exponent's prefix one group longer (R190). -/
theorem div_group_succ (E w j : Nat) :
    E / 2 ^ (j * w) = E / 2 ^ ((j + 1) * w) * 2 ^ w + expGroup w E j := by
  unfold expGroup
  rw [Nat.succ_mul, Nat.pow_add, ← Nat.div_div_eq_div_mul]
  exact (Nat.div_add_mod' _ _).symm

/-- The memory holds the power table. -/
def HoldsTable (W : Nat) (m : Modulus) (X sbase w : Nat) (mem : Memory) : Prop :=
  ∀ k < 2 ^ w, ∀ j < m.L.toNat, Memory.read mem (tableAddr sbase w k j) = limbAt W (enc W m (X ^ k)) j

theorem ReadyFacts.holdsTable (h : ReadyFacts W e m) (X sbase : Nat) {w : Nat} (hw : 1 ≤ w) {mem : Memory}
    (hm : Memory.wf mem = true) :
    HoldsTable W m X sbase w
      (Memory.writeAll mem (tableWrites W m.L.toNat sbase w (powerTable W m (enc W m X) w))) := by
  intro k hk j hj
  rw [read_table hm hk hj, h.powerTable_getD X hw hk]

theorem expGroup_lt (w E j : Nat) : expGroup w E j < 2 ^ w := Nat.mod_lt _ (by positivity)

theorem expWinGroup_mem (W : Nat) (m : Modulus) (sbase w E : Nat) (r : Run) (j : Nat) :
    (expWinGroup W m sbase w E r j).mem = r.mem := by
  simp [expWinGroup, (Run.times_sqr_facts W m w r).2.1]

theorem ReadyFacts.expWinGroup_acc (h : ReadyFacts W e m) (hW : W ≤ 64) (X sbase E y j : Nat) {w : Nat} {r : Run}
    (hT : HoldsTable W m X sbase w r.mem) (hr : r.acc = enc W m y) :
    (expWinGroup W m sbase w E r j).acc = enc W m (y ^ 2 ^ w * X ^ expGroup w E j) := by
  have hM : m.M < 2 ^ (W * m.L.toNat) := by have := h.M_lt; rwa [Nat.mul_comm] at this
  have hl : lookupVal W m.L.toNat (r.times (Run.sqr W m) w).mem sbase w (expGroup w E j)
      = enc W m (X ^ expGroup w E j) := by
    rw [(Run.times_sqr_facts W m w r).2.1]
    have := lookupVal_eq (W := W) (L := m.L.toNat) (sbase := sbase) (w := w) (mem := r.mem) hW
      (T := (List.replicate (expGroup w E j) 0) ++ [enc W m (X ^ expGroup w E j)]) (k := expGroup w E j)
      (expGroup_lt w E j)
    simp only [List.getD_append_right _ _ _ _ (le_of_eq (List.length_replicate ..)), List.length_replicate, Nat.sub_self,
      List.getD_cons_zero] at this
    exact this (lt_trans (h.enc_lt _) hM) (hT _ (expGroup_lt w E j))
  unfold expWinGroup
  simp only [hl, Run.mul_acc, Run.perform_acc, h.times_sqr_acc w y hr, h.montMul_enc]

theorem ReadyFacts.foldl_groups (h : ReadyFacts W e m) (hW : W ≤ 64) (X sbase E w g : Nat) {r : Run}
    (hT : HoldsTable W m X sbase w r.mem) (hr : r.acc = enc W m (X ^ (E / 2 ^ (g * w)))) :
    ((List.range g).reverse.foldl (expWinGroup W m sbase w E) r).acc = enc W m (X ^ E) := by
  induction g generalizing r with
  | zero => simpa using hr
  | succ g ih =>
    rw [range_succ_reverse, List.foldl_cons]
    refine ih (by rw [expWinGroup_mem]; exact hT) ?_
    rw [h.expWinGroup_acc hW X sbase E _ g hT hr, div_group_succ E w g, pow_add X, pow_mul X]

theorem foldl_groups_facts (W : Nat) (m : Modulus) (sbase w E g : Nat) (r : Run) :
    let r' := (List.range g).reverse.foldl (expWinGroup W m sbase w E) r
    r'.mem = r.mem ∧
      r'.events = r.events ++ (List.replicate g (List.replicate w .sqr ++ [.sel (2 ^ w), .mul])).flatten ∧
      r'.accesses = r.accesses ++ (List.replicate g (lookupReads m.L.toNat sbase w)).flatten := by
  induction g generalizing r with
  | zero => simp
  | succ g ih =>
    obtain ⟨h1, h2, h3⟩ := ih (expWinGroup W m sbase w E r g)
    obtain ⟨t1, t2, t3⟩ := Run.times_sqr_facts W m w r
    simp only [range_succ_reverse, List.foldl_cons]
    refine ⟨by rw [h1, expWinGroup_mem], ?_, ?_⟩
    · rw [h2, List.replicate_succ, List.flatten_cons]
      simp [expWinGroup, t1]
    · rw [h3, List.replicate_succ, List.flatten_cons]
      simp [expWinGroup, t3]

theorem bitlen_le_groups (w E : Nat) (hw : 1 ≤ w) : bitlen E ≤ ceilDiv (bitlen E) w * w := by
  have := (ceilDiv_le_iff hw (bitlen E) _).1 le_rfl
  rwa [Nat.mul_comm] at this

/-- R185's result is `X^E mod M` (R186). -/
theorem ReadyFacts.expWinRun_acc (h : ReadyFacts W e m) (hW : W ≤ 64) {mem : Memory} (hm : Memory.wf mem = true)
    (sbase X E : Nat) {w : Nat} (hw : 1 ≤ w) : (expWinRun W m mem sbase w X E).acc = X ^ E % m.M := by
  unfold expWinRun
  simp only [Run.red_acc, Run.writeMem_acc]
  rw [h.foldl_groups hW X sbase E w _ (h.holdsTable X sbase hw hm)]
  · exact h.dec_enc _
  · have : E / 2 ^ (ceilDiv (bitlen E) w * w) = 0 :=
      Nat.div_eq_of_lt (lt_of_lt_of_le (lt_two_pow_bitlen E)
        (Nat.pow_le_pow_right (by omega) (bitlen_le_groups w E hw)))
    rw [this, Nat.pow_zero]
    exact h.R_eq_enc

/-- What the windowed run performs, accesses and leaves in memory, whatever the values. -/
theorem expWinRun_facts (W : Nat) (m : Modulus) (mem : Memory) (sbase X E : Nat) {w : Nat} (hw : 1 ≤ w) :
    (expWinRun W m mem sbase w X E).events =
        List.replicate (2 ^ w - 1) .mul ++
          (List.replicate (ceilDiv (bitlen E) w) (List.replicate w .sqr ++ [.sel (2 ^ w), .mul])).flatten ++ [.red] ∧
      (expWinRun W m mem sbase w X E).accesses =
        (tableWrites W m.L.toNat sbase w (powerTable W m (enc W m X) w)).map (fun x => ScrAccess.write x.1) ++
          (List.replicate (ceilDiv (bitlen E) w) (lookupReads m.L.toNat sbase w)).flatten ++
          (wipeWrites sbase (2 ^ w * m.L.toNat)).map (fun x => ScrAccess.write x.1) ∧
      (expWinRun W m mem sbase w X E).mem =
        Memory.writeAll
          (Memory.writeAll mem (tableWrites W m.L.toNat sbase w (powerTable W m (enc W m X) w)))
          (wipeWrites sbase (2 ^ w * m.L.toNat)) := by
  have h2 := two_le_two_pow hw
  obtain ⟨f1, f2, f3⟩ := foldl_groups_facts W m sbase w E (ceilDiv (bitlen E) w)
    (((Run.start m mem).perform (List.replicate (2 ^ w - 2) .mul)).writeMem
      (tableWrites W m.L.toNat sbase w (powerTable W m (enc W m X) w)))
  have hrep : List.replicate (2 ^ w - 1) KEvent.mul = [.mul] ++ List.replicate (2 ^ w - 2) .mul := by
    rw [show 2 ^ w - 1 = (2 ^ w - 2) + 1 by omega, List.replicate_succ]; rfl
  unfold expWinRun
  refine ⟨?_, ?_, ?_⟩
  · simp only [Run.red_events, Run.writeMem_events, f2, Run.perform_events, hrep]
    rfl
  · simp only [Run.red_accesses, Run.writeMem_accesses, f3, Run.perform_accesses]
    rfl
  · simp only [Run.red_mem, Run.writeMem_mem, f1, Run.perform_mem]
    rfl

/-! ### What the bit-by-bit runs perform -/

theorem expBinRun_facts (W : Nat) (m : Modulus) (mem : Memory) (X E : Nat) :
    (expBinRun W m mem X E).events =
        .mul :: ((bitsDown (bitlen E) E).flatMap fun b => if b then [.sqr, .mul] else [.sqr]) ++ [.red] ∧
      (expBinRun W m mem X E).mem = mem ∧ (expBinRun W m mem X E).accesses = [] := by
  have h (bs : List Bool) (xR : Nat) (r : Run) :
      (bs.foldl (expBinBit W m xR) r).events
          = r.events ++ bs.flatMap (fun b => if b then [.sqr, .mul] else [.sqr]) ∧
        (bs.foldl (expBinBit W m xR) r).mem = r.mem ∧ (bs.foldl (expBinBit W m xR) r).accesses = r.accesses := by
    induction bs generalizing r with
    | nil => simp
    | cons b bs ih =>
      obtain ⟨h1, h2, h3⟩ := ih (expBinBit W m xR r b)
      rw [List.foldl_cons]
      refine ⟨?_, by rw [h2]; cases b <;> rfl, by rw [h3]; cases b <;> rfl⟩
      rw [h1]; cases b <;> simp [expBinBit]
  obtain ⟨h1, h2, h3⟩ := h (bitsDown (bitlen E) E) (enc W m X) (Run.start m mem)
  exact ⟨by simp only [expBinRun, Run.red_events, h1]; rfl, h2, h3⟩

theorem expCtRun_facts (W : Nat) (m : Modulus) (mem : Memory) (X E : Nat) :
    (expCtRun W m mem X E).events = .mul :: (List.replicate (bitlen E) [.sqr, .sel 2, .mul]).flatten ++ [.red] ∧
      (expCtRun W m mem X E).mem = mem ∧ (expCtRun W m mem X E).accesses = [] := by
  have h (bs : List Bool) (xR : Nat) (r : Run) :
      (bs.foldl (expCtBit W m xR) r).events = r.events ++ (List.replicate bs.length [.sqr, .sel 2, .mul]).flatten ∧
        (bs.foldl (expCtBit W m xR) r).mem = r.mem ∧ (bs.foldl (expCtBit W m xR) r).accesses = r.accesses := by
    induction bs generalizing r with
    | nil => simp
    | cons b bs ih =>
      obtain ⟨h1, h2, h3⟩ := ih (expCtBit W m xR r b)
      rw [List.foldl_cons]
      refine ⟨?_, by rw [h2]; rfl, by rw [h3]; rfl⟩
      rw [h1, List.length_cons, List.replicate_succ, List.flatten_cons]
      simp [expCtBit]
  obtain ⟨h1, h2, h3⟩ := h (bitsDown (bitlen E) E) (enc W m X) (Run.start m mem)
  have hl : (bitsDown (bitlen E) E).length = bitlen E := by simp [bitsDown]
  rw [hl] at h1
  exact ⟨by simp only [expCtRun, Run.red_events, h1]; rfl, h2, h3⟩

end Values

/-! ### What a run leaves in the state -/

/-- A completed exponentiation that ran its kernels, said whole. -/
theorem completed_run {s : State} {rd : BnIdx} {d : BigNum} (v : Nat) (sec : Bool) (hd : s.bnAt rd = .valid d)
    (run : Run) (passes : List LimbOp) (op : BitVec 8) {t : State}
    (ht : t = ((((s.kernel run.events passes).scrDone run.mem run.accesses).writeBn rd v sec).countCmd).complete op .ok 0 []) :
    AnswersOk s op 0 [] t ∧ WritesBn s rd ⟨d.room, false, sec, v⟩ t ∧ t.me = s.me ∧ t.scr = run.mem ∧
      t.scrTrace = s.scrTrace ++ run.accesses ∧ KeepsInput s t ∧ t.limbTrace = s.limbTrace ++ passes ∧
      Counts s run.events (run.events.countP (· == .mul)) (run.events.countP (· == .sqr))
        (run.events.countP (· == .red)) (run.events.countP KEvent.inSel) (run.events.countP KEvent.inAdd) t := by
  subst ht
  have hd' : ((s.kernel run.events passes).scrDone run.mem run.accesses).bnAt rd = .valid d := hd
  refine ⟨answersOk_complete (by simp) _ _ _, ⟨?_, ?_⟩, by simp, by simp, by simp, ⟨by simp, by simp⟩, by simp,
    by simp, ?_⟩
  · simp [State.bnAt_writeBn _ _ _ _ _ hd', BigNum.put]
  · intro r hr; simp [State.bnAt_writeBn _ _ _ _ _ hd', hr]
  · simp [Counters.addEvents_eq]

/-- The special cases of R181 write `R` or zero and nothing else. -/
theorem expInto_special {s : State} {rd : BnIdx} {ed : EngIdx} {a b : BigNum} {m : Modulus} {run : Run}
    (h : b.mag = 0 ∨ a.mag = 0) :
    expInto s rd ed a b m run =
      .respond (s.writeBn rd ((if b.mag = 0 then m.R else 0 : Nat) : Int) (a.sec || b.sec)) 0 [] := by
  unfold expInto
  by_cases hb : b.mag = 0
  · simp [hb]
  · simp [hb, h.resolve_left hb]

/-- Outside them the run decides everything. -/
theorem expInto_run {s : State} {rd : BnIdx} {ed : EngIdx} {a b : BigNum} {m : Modulus} {run : Run} (hb : b.mag ≠ 0)
    (ha : a.mag ≠ 0) :
    expInto s rd ed a b m run =
      .respond
        (((s.kernel run.events (kernelPasses (s.kselAt ed) m.L.toNat run.events)).scrDone run.mem
          run.accesses).writeBn rd run.acc (a.sec || b.sec)) 0 [] := by
  simp [expInto, hb, ha]

end Sys2Proof.Machine
end

