-- ==== Sys2Proof/Laws/Step.lean ====
section
/-!
SUPPORT. Everything a command can do, said once: the ways `exec` can end, and what each leaves of the state.
-/

namespace Sys2Proof.Machine

/-- What a completed command of the counted families has made of the state before it is counted and answered. -/
inductive Effect (i : Instr) (s : State) : State → Prop where
  /-- `BN_GET` and `ME_GET` only answer. -/
  | only (h : i.op = .bnGet ∨ i.op = .meGet) : Effect i s s
  /-- `BN_CMP` only answers too; its pass is no kernel event (R125). -/
  | compare (passes) (h : i.op = .bnCmp) : Effect i s (s.kernel [] passes)
  /-- `BN_CREATE` (R121). -/
  | create (rd room) (hi : i = .bnCreate rd room) (h1 : 1 ≤ room.toNat) (h2 : room.toNat ≤ s.cfg.RMAX) :
      Effect i s (s.setBn rd (.valid ⟨room, false, false, 0⟩))
  /-- `ME_CREATE` (R157). -/
  | meCreate (ed maxbits) (hi : i = .meCreate ed maxbits) (h1 : 1 ≤ maxbits.toNat)
      (h2 : maxbits.toNat ≤ maxBits s.cfg) :
      Effect i s (s.setMe ed (.created ⟨maxbits, stepLookup s.cfg.ksel maxbits.toNat⟩))
  /-- `ME_INIT` (R158): the engine's configuration stays. -/
  | meInit (ed ra c a) (hi : i = .meInit ed ra) (ha : s.bnAt ra = .valid a)
      (hc : s.meAt ed = .created c ∨ ∃ m, s.meAt ed = .ready c m) (h1 : a.neg = false) (h2 : a.mag % 2 = 1)
      (h3 : bitlen a.mag ≤ c.maxbits.toNat) : Effect i s (s.setMe ed (.ready c (modulusOf s.cfg.W a.mag)))
  /-- Every other command performs kernels and writes one `VALID` register; only `EXP_WIN` reaches `SCR`. -/
  | write (rd d v sec evs passes mem acc) (hd : s.bnAt rd = .valid d)
      (hop : i.op ∉ [.nop, .csrRd, .csrWr, .scrNeed, .bnCreate, .bnGet, .bnCmp, .meCreate, .meInit, .meGet])
      (hm : i.op = .expWin ∨ mem = s.scr ∧ acc = []) :
      Effect i s (((s.kernel evs passes).scrDone mem acc).writeBn rd v sec)

/-- The ways a command ends. -/
inductive Ends (i : Instr) (s : State) : State → Prop where
  | error (st) (hr : st.Raisable) (hok : st ≠ .ok) : Ends i s (s.raise i.op.code st)
  | read (val) (h : i.op = .nop ∨ i.op = .csrRd ∨ i.op = .scrNeed) : Ends i s (s.complete i.op.code .ok val [])
  | csrWr (n imm c s') (hi : i = .csrWr n imm) (hc : Csr.ofNum n = some c) (h : s.writeCsr c imm = some s') :
      Ends i s (s'.complete i.op.code .ok 0 [])
  | done (s' val p) (h : Effect i s s') (hop : i.op ∉ [.nop, .csrRd, .csrWr, .scrNeed]) :
      Ends i s (s'.countCmd.complete i.op.code .ok val p)

/-- What the body of a counted command comes to. -/
def Body (i : Instr) (s : State) : CmdResult → Prop
  | .error st => st.Raisable ∧ st ≠ .ok
  | .respond s' _ _ => Effect i s s'

theorem Body.ends {i : Instr} {s : State} {r : CmdResult} (he : exec i s = finishCounted i.op s r) (h : Body i s r)
    (hop : i.op ∉ [.nop, .csrRd, .csrWr, .scrNeed] := by simp [Instr.op]) : ∃ t, exec i s = .next t ∧ Ends i s t := by
  rw [he]
  cases r with
  | error st => exact ⟨_, rfl, .error st h.1 h.2⟩
  | respond s' v p => exact ⟨_, rfl, .done s' v p h hop⟩

theorem Body.of_if {i : Instr} {s : State} {c : Prop} [Decidable c] {x y : CmdResult} (hx : c → Body i s x)
    (hy : ¬c → Body i s y) : Body i s (if c then x else y) := by
  split
  · exact hx ‹_›
  · exact hy ‹_›

theorem Effect.of_write {i : Instr} {s : State} {rd : BnIdx} {d : BigNum} {v : Int} {sec : Bool} (hd : s.bnAt rd = .valid d)
    (hop : i.op ∉ [.nop, .csrRd, .csrWr, .scrNeed, .bnCreate, .bnGet, .bnCmp, .meCreate, .meInit, .meGet])
    (evs : List KEvent) (passes : List LimbOp) : Effect i s ((s.kernel evs passes).writeBn rd v sec) := by
  have h : s.kernel evs passes = (s.kernel evs passes).scrDone s.scr [] := by simp [State.scrDone, State.kernel]
  rw [h]
  exact .write rd d v sec evs passes s.scr [] hd hop (.inr ⟨rfl, rfl⟩)

theorem Effect.of_write_nil {i : Instr} {s : State} {rd : BnIdx} {d : BigNum} {v : Int} {sec : Bool} (hd : s.bnAt rd = .valid d)
    (hop : i.op ∉ [.nop, .csrRd, .csrWr, .scrNeed, .bnCreate, .bnGet, .bnCmp, .meCreate, .meInit, .meGet]) :
    Effect i s (s.writeBn rd v sec) := by
  simpa using Effect.of_write (v := v) (sec := sec) hd hop [] []

theorem expInto_body {i : Instr} {s : State} {rd : BnIdx} {ed : EngIdx} {d a b : BigNum} {m : Modulus} {run : Run}
    (hd : s.bnAt rd = .valid d)
    (hop : i.op ∉ [.nop, .csrRd, .csrWr, .scrNeed, .bnCreate, .bnGet, .bnCmp, .meCreate, .meInit, .meGet])
    (hm : i.op = .expWin ∨ run.mem = s.scr ∧ run.accesses = []) : Body i s (expInto s rd ed a b m run) :=
  .of_if (fun _ => Effect.of_write_nil hd hop) fun _ =>
    .of_if (fun _ => Effect.of_write_nil hd hop) fun _ => Effect.write _ _ _ _ _ _ _ _ hd hop hm

theorem err_body {i : Instr} {s : State} {st : Status} (h : st.Raisable ∧ st ≠ .ok := by decide) :
    Body i s (.error st) := h

/-- Every command ends, and in one of these ways. -/
theorem exec_ends (i : Instr) (s : State) : ∃ t, exec i s = .next t ∧ Ends i s t := by
  cases i with
  | nop => exact ⟨_, rfl, .read 0 (.inl rfl)⟩
  | csrRd c =>
    simp only [exec, execCsrRd]
    cases Csr.ofNum c with
    | none => exact ⟨_, rfl, .error .illegalCommand (by decide) (by decide)⟩
    | some c => exact ⟨_, rfl, .read _ (.inr (.inl rfl))⟩
  | csrWr n imm =>
    simp only [exec, execCsrWr]
    cases hc : Csr.ofNum n with
    | none => exact ⟨_, rfl, .error .illegalCommand (by decide) (by decide)⟩
    | some c =>
      cases h : s.writeCsr c imm with
      | none => simp only [h]; exact ⟨_, rfl, .error .illegalCommand (by decide) (by decide)⟩
      | some s' => simp only [h]; exact ⟨_, rfl, .csrWr n imm c s' rfl hc h⟩
  | scrNeed sel mb eb =>
    simp only [exec, execScrNeed]
    split
    · exact ⟨_, rfl, .error .badArgument (by decide) (by decide)⟩
    · exact ⟨_, rfl, .read _ (.inr (.inr rfl))⟩
  | bnCreate rd room =>
    exact Body.ends rfl (.of_if (fun _ => err_body) fun h => .create rd room rfl (by omega) (by omega))
  | bnSet rd neg sec payload =>
    exact Body.ends rfl (withA_cases (fun _ => err_body) fun d hd =>
      .of_if (fun _ => err_body) fun _ => .of_write_nil hd (by simp [Instr.op]))
  | bnGet ra => exact Body.ends rfl (withA_cases (fun _ => err_body) fun _ _ => .only (.inl rfl))
  | bnCopy rd ra =>
    exact Body.ends rfl (withDA_cases (fun _ => err_body) fun d a hd _ =>
      .of_if (fun _ => err_body) fun _ => .of_write_nil hd (by simp [Instr.op]))
  | bnCmp ra rb =>
    exact Body.ends rfl (withDA_cases (fun _ => err_body) fun _ _ _ _ => .compare _ rfl)
  | bnAdd rd ra rb =>
    exact Body.ends rfl (withDAB_cases (fun _ => err_body) fun d a b hd _ _ =>
      .of_if (fun _ => err_body) fun _ => .of_write hd (by simp [Instr.op]) _ _)
  | bnSub rd ra rb =>
    exact Body.ends rfl (withDAB_cases (fun _ => err_body) fun d a b hd _ _ =>
      .of_if (fun _ => err_body) fun _ => .of_write hd (by simp [Instr.op]) _ _)
  | bnMul rd ra rb =>
    exact Body.ends rfl (withDAB_cases (fun _ => err_body) fun d a b hd _ _ =>
      .of_if (fun _ => err_body) fun _ => .of_write hd (by simp [Instr.op]) _ _)
  | bnMod rd ra rb =>
    exact Body.ends rfl (withDAB_cases (fun _ => err_body) fun d a b hd _ _ =>
      .of_if (fun _ => err_body) fun _ => .of_if (fun _ => err_body) fun _ => .of_if (fun _ => err_body) fun _ =>
        .of_write hd (by simp [Instr.op]) _ _)
  | meCreate ed mb =>
    exact Body.ends rfl (.of_if (fun _ => err_body) fun h => .meCreate ed mb rfl (by omega) (by omega))
  | meInit ed ra =>
    have on (a : BigNum) (c : EngineCfg) (ha : s.bnAt ra = .valid a)
        (hc : s.meAt ed = .created c ∨ ∃ m, s.meAt ed = .ready c m) : Body (.meInit ed ra) s (meInitOn s ed c a) :=
      .of_if (fun _ => err_body) fun h1 => .of_if (fun _ => err_body) fun h2 =>
        .meInit ed ra c a rfl ha hc (by simp at h1; exact h1.1) (by simp at h1; exact h1.2) (by omega)
    refine Body.ends rfl (withA_cases (fun _ => err_body) fun a ha => ?_)
    split
    · exact err_body
    · exact on a _ ha (.inl ‹_›)
    · exact on a _ ha (.inr ⟨_, ‹_›⟩)
  | meGet ed sel =>
    refine Body.ends rfl (.of_if (fun _ => err_body) fun _ => ?_)
    split
    · exact err_body
    · exact .of_if (fun _ => .only (.inr rfl)) fun _ => err_body
    · exact .only (.inr rfl)
  | meEnc rd ra ed =>
    exact Body.ends rfl (withMont_cases (fun _ h h' => ⟨h, h'⟩) fun d a e m hd _ _ _ _ _ => .of_write hd (by simp [Instr.op]) _ _)
  | meDec rd ra ed =>
    exact Body.ends rfl (withMont_cases (fun _ h h' => ⟨h, h'⟩) fun d a e m hd _ _ _ _ _ => .of_write hd (by simp [Instr.op]) _ _)
  | meMul rd ra rb ed =>
    exact Body.ends rfl (withMont2_cases (fun _ h h' => ⟨h, h'⟩) fun d a b e m hd _ _ _ _ _ _ _ _ => .of_write hd (by simp [Instr.op]) _ _)
  | meSqr rd ra ed =>
    exact Body.ends rfl (withMont_cases (fun _ h h' => ⟨h, h'⟩) fun d a e m hd _ _ _ _ _ => .of_write hd (by simp [Instr.op]) _ _)
  | meRed rd ra ed =>
    exact Body.ends rfl (withMont_cases (fun _ h h' => ⟨h, h'⟩) fun d a e m hd _ _ _ _ _ => .of_write hd (by simp [Instr.op]) _ _)
  | expBin rd ra rb ed =>
    exact Body.ends rfl (withExp_cases (fun _ h h' => ⟨h, h'⟩) fun d a b e m hd _ _ _ _ _ _ _ _ =>
      expInto_body hd (by simp [Instr.op]) (.inr (expBinRun_facts ..).2))
  | expCt rd ra rb ed =>
    exact Body.ends rfl (withExp_cases (fun _ h h' => ⟨h, h'⟩) fun d a b e m hd _ _ _ _ _ _ _ _ =>
      expInto_body hd (by simp [Instr.op]) (.inr (expCtRun_facts ..).2))
  | expWin rd ra rb ed sbase slen =>
    exact Body.ends rfl (withExp_cases (fun _ h h' => ⟨h, h'⟩) fun d a b e m hd _ _ _ _ _ _ _ _ =>
      expInto_body hd (by simp [Instr.op]) (.inl rfl))
  | crtRecomb rd ra rb rc ed ee =>
    exact Body.ends rfl (withCrt_cases (fun _ h h' => ⟨h, h'⟩) fun d a b c e p e' q hd _ _ _ _ _ _ _ _ _ _ _ _ =>
      .of_write hd (by simp [Instr.op]) _ _)

end Sys2Proof.Machine
end

