-- ==== Sys2Proof/Laws/Alike.lean ====
section
/-!
SUPPORT. Two runs of one command from states that differ in secrecy bits, scratch content or unread beats only: what the command does is the same (R34, R60, R75, R280).
-/

namespace Sys2Proof.Machine

/-- The same number of the same room, the secrecy bits related by `Q`. -/
def BigNum.Like (Q : Bool → Bool → Prop) (b b' : BigNum) : Prop :=
  b'.room = b.room ∧ b'.neg = b.neg ∧ b'.mag = b.mag ∧ Q b.sec b'.sec

/-- Both `NONE`, or both `VALID` and alike. -/
inductive BnReg.Like (Q : Bool → Bool → Prop) : BnReg → BnReg → Prop where
  | none : Like Q .none .none
  | valid (b b') (h : b.Like Q b') : Like Q (.valid b) (.valid b')

theorem BnReg.Like.refl {Q : Bool → Bool → Prop} (hQ : ∀ x, Q x x) (x : BnReg) : x.Like Q x := by
  cases x with
  | none => exact .none
  | valid b => exact .valid b b ⟨rfl, rfl, rfl, hQ _⟩

/-- States that agree but for secrecy bits (related by `Q`), scratch memory (related by `S`) and unread beats. -/
structure State.Like (Q : Bool → Bool → Prop) (S : Memory → Memory → Prop) (s s' : State) : Prop where
  cfg        : s'.cfg = s.cfg
  bn         : ∀ r, (s.bnAt r).Like Q (s'.bnAt r)
  me         : s'.me = s.me
  scr        : S s.scr s'.scr
  status     : s'.status = s.status
  cnt        : s'.cnt = s.cnt
  trace      : s'.trace = s.trace
  scrTrace   : s'.scrTrace = s.scrTrace
  limbTrace  : s'.limbTrace = s.limbTrace
  respStream : s'.respStream = s.respStream

/-- What is asked of the two relations: secrecy is combined by OR, and windowed runs cannot tell the memories apart. -/
structure Relations (Q : Bool → Bool → Prop) (S : Memory → Memory → Prop) : Prop where
  refl   : ∀ x, Q x x
  or     : ∀ x x' y y', Q x x' → Q y y' → Q (x || y) (x' || y')
  write  : ∀ m m' ws, S m m' → S (Memory.writeAll m ws) (Memory.writeAll m' ws)
  lookup : ∀ m m' W L sbase w T k, S m m' →
    lookupVal W L (Memory.writeAll m (tableWrites W L sbase w T)) sbase w k
      = lookupVal W L (Memory.writeAll m' (tableWrites W L sbase w T)) sbase w k

/-- Equal secrecy and equal memories. -/
theorem relations_eq : Relations Eq Eq :=
  ⟨fun _ => rfl, by rintro _ _ _ _ rfl rfl; rfl, by rintro _ _ _ rfl; rfl, by rintro _ _ _ _ _ _ _ _ rfl; rfl⟩

/-- Any secrecy and equal memories. -/
theorem relations_any_sec : Relations (fun _ _ => True) Eq :=
  ⟨fun _ => trivial, fun _ _ _ _ _ _ => trivial, by rintro _ _ _ rfl; rfl, by rintro _ _ _ _ _ _ _ _ rfl; rfl⟩

/-- Equal secrecy and any two canonical memories: a lookup reads only what the table writes have written. -/
theorem relations_any_scr : Relations Eq (fun m m' => Memory.wf m = true ∧ Memory.wf m' = true) := by
  refine ⟨fun _ => rfl, by rintro _ _ _ _ rfl rfl; rfl,
    fun m m' ws h => ⟨Memory.wf_writeAll h.1 ws, Memory.wf_writeAll h.2 ws⟩, fun m m' W L sbase w T k h => ?_⟩
  unfold lookupVal
  congr 1
  refine List.map_congr_left fun j hj => ?_
  unfold lookupLimb
  refine List.foldl_ext _ _ _ fun acc x hx => ?_
  rw [read_table h.1 (List.mem_range.1 hx) (List.mem_range.1 hj),
    read_table h.2 (List.mem_range.1 hx) (List.mem_range.1 hj)]

section

variable {Q : Bool → Bool → Prop} {S : Memory → Memory → Prop} {s s' : State}

/-- The same error, or the same answer from states that are alike. -/
def CmdResult.Like (Q : Bool → Bool → Prop) (S : Memory → Memory → Prop) : CmdResult → CmdResult → Prop
  | .error st, .error st' => st = st'
  | .respond s v p, .respond s' v' p' => v = v' ∧ p = p' ∧ s.Like Q S s'
  | .error _, .respond _ _ _ => False
  | .respond _ _ _, .error _ => False

theorem CmdResult.Like.of_if {c : Prop} [Decidable c] {x y x' y' : CmdResult} (hx : x.Like Q S x') (hy : y.Like Q S y') :
    (if c then x else y).Like Q S (if c then x' else y') := by
  split
  · exact hx
  · exact hy

theorem BigNum.Like.value {b b' : BigNum} (h : b.Like Q b') : b'.value = b.value := by
  simp [BigNum.value, h.2.1, h.2.2.1]
theorem BigNum.Like.size {b b' : BigNum} (h : b.Like Q b') (W : Nat) : b'.size W = b.size W := by
  simp [BigNum.size, h.2.2.1]
theorem BigNum.Like.inRange {b b' : BigNum} (h : b.Like Q b') (n : Nat) : b'.inRange n = b.inRange n := by
  simp [BigNum.inRange, h.2.1, h.2.2.1]

theorem BigNum.Like.commonSize {a a' b b' : BigNum} (ha : a.Like Q a') (hb : b.Like Q b') (W : Nat) :
    commonSize W a' b' = commonSize W a b := by simp [Machine.commonSize, ha.size, hb.size]
theorem BigNum.Like.addPasses {a a' b b' : BigNum} (ha : a.Like Q a') (hb : b.Like Q b') (W : Nat) (opposite : Bool) :
    addPasses W a' b' opposite = addPasses W a b opposite := by simp [Machine.addPasses, ha.commonSize hb]

theorem State.Like.meAt (h : s.Like Q S s') (k : EngIdx) : s'.meAt k = s.meAt k := by simp [State.meAt, h.me]
theorem State.Like.kselAt (h : s.Like Q S s') (k : EngIdx) : s'.kselAt k = s.kselAt k := by
  simp [State.kselAt, h.meAt]

/-! ### The updates keep states alike -/

theorem State.Like.kernel (h : s.Like Q S s') (evs : List KEvent) (ops : List LimbOp) :
    (s.kernel evs ops).Like Q S (s'.kernel evs ops) :=
  ⟨h.cfg, h.bn, h.me, h.scr, h.status, by simp [h.cnt], by simp [h.trace], h.scrTrace, by simp [h.limbTrace],
    h.respStream⟩

theorem State.Like.setBn (h : s.Like Q S s') (r : BnIdx) {x x' : BnReg} (hx : x.Like Q x') :
    (s.setBn r x).Like Q S (s'.setBn r x') := by
  refine ⟨h.cfg, fun k => ?_, h.me, h.scr, h.status, h.cnt, h.trace, h.scrTrace, h.limbTrace, h.respStream⟩
  simp only [State.bnAt_setBn]
  split
  · exact hx
  · exact h.bn k

theorem State.Like.setMe (h : s.Like Q S s') (k : EngIdx) (x : Engine) : (s.setMe k x).Like Q S (s'.setMe k x) :=
  ⟨h.cfg, h.bn, by simp [h.me], h.scr, h.status, h.cnt, h.trace, h.scrTrace, h.limbTrace, h.respStream⟩

theorem State.Like.writeBn (h : s.Like Q S s') (r : BnIdx) (v : Int) {sec sec' : Bool} (hq : Q sec sec') :
    (s.writeBn r v sec).Like Q S (s'.writeBn r v sec') := by
  unfold State.writeBn
  have hr := h.bn r
  generalize s.bnAt r = x at hr ⊢
  generalize s'.bnAt r = x' at hr ⊢
  cases hr with
  | none => exact h
  | valid b b' hb => exact h.setBn r (.valid _ _ ⟨hb.1, rfl, rfl, hq⟩)

theorem State.Like.scrDone (h : s.Like Q S s') {m m' : Memory} (hm : S m m') (acc : List ScrAccess) :
    (s.scrDone m acc).Like Q S (s'.scrDone m' acc) :=
  ⟨h.cfg, h.bn, h.me, hm, h.status, h.cnt, h.trace, by simp [h.scrTrace], h.limbTrace, h.respStream⟩

theorem State.Like.countCmd (h : s.Like Q S s') : s.countCmd.Like Q S s'.countCmd :=
  ⟨h.cfg, h.bn, h.me, h.scr, h.status, by simp [h.cnt], h.trace, h.scrTrace, h.limbTrace, h.respStream⟩

theorem State.Like.complete (h : s.Like Q S s') (op : BitVec 8) (st : Status) (v : BitVec 64) (p : Limbs) :
    (s.complete op st v p).Like Q S (s'.complete op st v p) :=
  ⟨h.cfg, h.bn, h.me, h.scr, rfl, h.cnt, h.trace, h.scrTrace, h.limbTrace, by simp [h.respStream]⟩

/-! ### The ends of a command and its checks -/

/-- Two outcomes that are next states alike. -/
def NextLike (Q : Bool → Bool → Prop) (S : Memory → Memory → Prop) (x x' : Outcome) : Prop :=
  ∃ t t', x = .next t ∧ x' = .next t' ∧ t.Like Q S t'

theorem finishCounted_like (h : s.Like Q S s') (o : Op) {r r' : CmdResult} (hr : r.Like Q S r') :
    NextLike Q S (finishCounted o s r) (finishCounted o s' r') := by
  cases r <;> cases r' <;> simp only [CmdResult.Like] at hr
  · subst hr; exact ⟨_, _, rfl, rfl, h.complete _ _ _ _⟩
  · obtain ⟨rfl, rfl, hr⟩ := hr; exact ⟨_, _, rfl, rfl, hr.countCmd.complete _ _ _ _⟩

theorem finishSystem_like (h : s.Like Q S s') (o : Op) {r r' : CmdResult} (hr : r.Like Q S r') :
    NextLike Q S (finishSystem o s r) (finishSystem o s' r') := by
  cases r <;> cases r' <;> simp only [CmdResult.Like] at hr
  · subst hr; exact ⟨_, _, rfl, rfl, h.complete _ _ _ _⟩
  · obtain ⟨rfl, rfl, hr⟩ := hr; exact ⟨_, _, rfl, rfl, hr.complete _ _ _ _⟩

theorem withA_like (h : s.Like Q S s') (ra : BnIdx) {k k' : BigNum → CmdResult}
    (hk : ∀ a a', a.Like Q a' → (k a).Like Q S (k' a')) : (withA s ra k).Like Q S (withA s' ra k') := by
  unfold withA
  have hr := h.bn ra
  generalize s.bnAt ra = x at hr ⊢
  generalize s'.bnAt ra = x' at hr ⊢
  cases hr with
  | none => rfl
  | valid b b' hb => exact hk b b' hb

theorem withDA_like (h : s.Like Q S s') (rd ra : BnIdx) {k k' : BigNum → BigNum → CmdResult}
    (hk : ∀ d d' a a', d.Like Q d' → a.Like Q a' → (k d a).Like Q S (k' d' a')) :
    (withDA s rd ra k).Like Q S (withDA s' rd ra k') := by
  unfold withDA
  have hd := h.bn rd
  have ha := h.bn ra
  generalize s.bnAt rd = x at hd ⊢
  generalize s'.bnAt rd = x' at hd ⊢
  generalize s.bnAt ra = y at ha ⊢
  generalize s'.bnAt ra = y' at ha ⊢
  cases hd with
  | none => rfl
  | valid d d' hd =>
    cases ha with
    | none => rfl
    | valid a a' ha => exact hk d d' a a' hd ha

theorem withDAB_like (h : s.Like Q S s') (rd ra rb : BnIdx) {k k' : BigNum → BigNum → BigNum → CmdResult}
    (hk : ∀ d d' a a' b b', d.Like Q d' → a.Like Q a' → b.Like Q b' → (k d a b).Like Q S (k' d' a' b')) :
    (withDAB s rd ra rb k).Like Q S (withDAB s' rd ra rb k') :=
  withDA_like h rd ra fun d d' a a' hd ha => by
    have hb := h.bn rb
    generalize s.bnAt rb = y at hb ⊢
    generalize s'.bnAt rb = y' at hb ⊢
    cases hb with
    | none => rfl
    | valid b b' hb => exact hk d d' a a' b b' hd ha hb

theorem withReady_like (h : s.Like Q S s') (ed : EngIdx) {k k' : Modulus → CmdResult}
    (hk : ∀ m, (k m).Like Q S (k' m)) : (withReady s ed k).Like Q S (withReady s' ed k') := by
  unfold withReady
  rw [h.meAt]
  split
  · rfl
  · rfl
  · exact hk _

theorem withReady2_like (h : s.Like Q S s') (ed ee : EngIdx) {k k' : Modulus → Modulus → CmdResult}
    (hk : ∀ p q, (k p q).Like Q S (k' p q)) : (withReady2 s ed ee k).Like Q S (withReady2 s' ed ee k') := by
  unfold withReady2
  rw [h.meAt, h.meAt]
  split <;> first | rfl | exact hk _ _

theorem withMont_like (h : s.Like Q S s') (rd ra : BnIdx) (ed : EngIdx) (bound : Modulus → Nat)
    {k k' : BigNum → Modulus → CmdResult} (hk : ∀ a a' m, a.Like Q a' → (k a m).Like Q S (k' a' m)) :
    (withMont s rd ra ed bound k).Like Q S (withMont s' rd ra ed bound k') :=
  withDA_like h rd ra fun d d' a a' hd ha => withReady_like h ed fun m => by
    rw [ha.inRange, hd.1]
    exact .of_if rfl (.of_if rfl (hk a a' m ha))

theorem withMont2_like (h : s.Like Q S s') (rd ra rb : BnIdx) (ed : EngIdx)
    {k k' : BigNum → BigNum → Modulus → CmdResult}
    (hk : ∀ a a' b b' m, a.Like Q a' → b.Like Q b' → (k a b m).Like Q S (k' a' b' m)) :
    (withMont2 s rd ra rb ed k).Like Q S (withMont2 s' rd ra rb ed k') :=
  withDAB_like h rd ra rb fun d d' a a' b b' hd ha hb => withReady_like h ed fun m => by
    rw [ha.inRange, hb.inRange, hd.1]
    exact .of_if rfl (.of_if rfl (hk a a' b b' m ha hb))

theorem withExp_like (h : s.Like Q S s') (rd ra rb : BnIdx) (ed : EngIdx) {badE badE' : BigNum → Bool}
    {badW badW' : BigNum → Modulus → Bool} {k k' : BigNum → BigNum → Modulus → CmdResult}
    (hE : ∀ b b', b.Like Q b' → badE' b' = badE b) (hW : ∀ b b' m, b.Like Q b' → badW' b' m = badW b m)
    (hk : ∀ a a' b b' m, a.Like Q a' → b.Like Q b' → (k a b m).Like Q S (k' a' b' m)) :
    (withExp s rd ra rb ed badE badW k).Like Q S (withExp s' rd ra rb ed badE' badW' k') :=
  withDAB_like h rd ra rb fun d d' a a' b b' hd ha hb => withReady_like h ed fun m => by
    rw [ha.inRange, hd.1, hE b b' hb, hW b b' m hb]
    exact .of_if rfl (.of_if rfl (.of_if rfl (.of_if rfl (hk a a' b b' m ha hb))))

theorem withCrt_like (h : s.Like Q S s') (rd ra rb rc : BnIdx) (ed ee : EngIdx)
    {k k' : BigNum → BigNum → BigNum → Modulus → Modulus → CmdResult}
    (hk : ∀ a a' b b' c c' p q, a.Like Q a' → b.Like Q b' → c.Like Q c' →
      (k a b c p q).Like Q S (k' a' b' c' p q)) :
    (withCrt s rd ra rb rc ed ee k).Like Q S (withCrt s' rd ra rb rc ed ee k') :=
  withDAB_like h rd ra rb fun d d' a a' b b' hd ha hb => withA_like h rc fun c c' hc =>
    withReady2_like h ed ee fun p q => by
      rw [ha.inRange, hb.inRange, hc.inRange, hd.1]
      exact .of_if rfl (.of_if rfl (hk a a' b b' c c' p q ha hb hc))

/-! ### The exponentiation runs -/

/-- A bit-by-bit run does the same on any memory. -/
theorem foldl_bits_mem {f : Run → Bool → Run}
    (hf : ∀ r r' b, r.acc = r'.acc → r.events = r'.events → (f r b).acc = (f r' b).acc ∧ (f r b).events = (f r' b).events)
    (bs : List Bool) {r r' : Run} (ha : r.acc = r'.acc) (he : r.events = r'.events) :
    (bs.foldl f r).acc = (bs.foldl f r').acc ∧ (bs.foldl f r).events = (bs.foldl f r').events := by
  induction bs generalizing r r' with
  | nil => exact ⟨ha, he⟩
  | cons b bs ih => exact ih (hf r r' b ha he).1 (hf r r' b ha he).2

theorem expBinRun_mem (W : Nat) (m : Modulus) (mem mem' : Memory) (X E : Nat) :
    (expBinRun W m mem X E).acc = (expBinRun W m mem' X E).acc := by
  have := (foldl_bits_mem (f := expBinBit W m (enc W m X))
    (fun r r' b ha he => by cases b <;> simp [expBinBit, ha, he]) (bitsDown (bitlen E) E)
    (r := Run.start m mem) (r' := Run.start m mem') rfl rfl).1
  simp [expBinRun, this]

theorem expCtRun_mem (W : Nat) (m : Modulus) (mem mem' : Memory) (X E : Nat) :
    (expCtRun W m mem X E).acc = (expCtRun W m mem' X E).acc := by
  have := (foldl_bits_mem (f := expCtBit W m (enc W m X))
    (fun r r' b ha he => by simp [expCtBit, ha, he]) (bitsDown (bitlen E) E)
    (r := Run.start m mem) (r' := Run.start m mem') rfl rfl).1
  simp [expCtRun, this]

theorem times_sqr_congr (W : Nat) (m : Modulus) (n : Nat) {r r' : Run} (ha : r.acc = r'.acc) :
    (r.times (Run.sqr W m) n).acc = (r'.times (Run.sqr W m) n).acc := by
  induction n generalizing r r' with
  | zero => exact ha
  | succ n ih => exact ih (by simp [ha])

/-- Groups of a windowed run on two memories whose lookups agree. -/
theorem foldl_groups_mem (W : Nat) (m : Modulus) (sbase w E : Nat) {mem mem' : Memory}
    (hl : ∀ k, lookupVal W m.L.toNat mem sbase w k = lookupVal W m.L.toNat mem' sbase w k) (js : List Nat) {r r' : Run}
    (ha : r.acc = r'.acc) (hm : r.mem = mem) (hm' : r'.mem = mem') :
    (js.foldl (expWinGroup W m sbase w E) r).acc = (js.foldl (expWinGroup W m sbase w E) r').acc := by
  induction js generalizing r r' with
  | nil => exact ha
  | cons j js ih =>
    refine ih ?_ (by rw [expWinGroup_mem, hm]) (by rw [expWinGroup_mem, hm'])
    have h1 := (Run.times_sqr_facts W m w r).2.1
    have h2 := (Run.times_sqr_facts W m w r').2.1
    simp only [expWinGroup, Run.mul_acc, Run.perform_acc, times_sqr_congr W m w ha, h1, h2, hm, hm', hl]

theorem expWinRun_mem (hR : Relations Q S) (W : Nat) (m : Modulus) {mem mem' : Memory} (h : S mem mem')
    (sbase w X E : Nat) : (expWinRun W m mem sbase w X E).acc = (expWinRun W m mem' sbase w X E).acc := by
  simp only [expWinRun, Run.red_acc, Run.writeMem_acc]
  rw [foldl_groups_mem W m sbase w E
    (fun k => hR.lookup mem mem' W m.L.toNat sbase w (powerTable W m (enc W m X) w) k h)]
  · rfl
  · rfl
  · rfl

theorem montInto_like (h : s.Like Q S s') (rd : BnIdx) (ed : EngIdx) (m : Modulus) (ev : KEvent) (v : Nat)
    {sec sec' : Bool} (hq : Q sec sec') : (montInto s rd ed m ev v sec).Like Q S (montInto s' rd ed m ev v sec') := by
  unfold montInto
  rw [h.kselAt]
  exact ⟨rfl, rfl, (h.kernel _ _).writeBn rd _ hq⟩

theorem expInto_like (h : s.Like Q S s') (hR : Relations Q S) (rd : BnIdx) (ed : EngIdx) {a a' b b' : BigNum} {m : Modulus}
    {run run' : Run}
    (ha : a.Like Q a') (hb : b.Like Q b') (hacc : run'.acc = run.acc) (hev : run'.events = run.events)
    (hmem : S run.mem run'.mem) (has : run'.accesses = run.accesses) :
    (expInto s rd ed a b m run).Like Q S (expInto s' rd ed a' b' m run') := by
  have hsec := hR.or _ _ _ _ ha.2.2.2 hb.2.2.2
  unfold expInto
  rw [ha.2.2.1, hb.2.2.1, hacc, hev, has, h.kselAt]
  exact .of_if ⟨rfl, rfl, h.writeBn _ _ hsec⟩
    (.of_if ⟨rfl, rfl, h.writeBn _ _ hsec⟩ ⟨rfl, rfl, ((h.kernel _ _).scrDone hmem _).writeBn _ _ hsec⟩)

/-! ### Every command -/

/-- A command does the same from states that are alike; `EXP_BIN` and `BN_GET` need equal secrecy bits. -/
theorem exec_like (hR : Relations Q S) (h : s.Like Q S s') (i : Instr)
    (hi : (i.op ≠ .expBin ∧ i.op ≠ .bnGet) ∨ Q = Eq) : NextLike Q S (exec i s) (exec i s') := by
  cases i with
  | nop => exact finishSystem_like h .nop (r := .respond s 0 []) (r' := .respond s' 0 []) ⟨rfl, rfl, h⟩
  | csrRd n =>
    refine finishSystem_like h .csrRd ?_
    cases Csr.ofNum n with
    | none => rfl
    | some c => refine ⟨?_, rfl, h⟩; cases c <;> simp [State.readCsr, h.cfg, h.status, h.cnt]
  | csrWr n imm =>
    refine finishSystem_like h .csrWr ?_
    cases Csr.ofNum n with
    | none => rfl
    | some c =>
      have hc (c' : Counters) : State.Like Q S { s with cnt := c' } { s' with cnt := c' } :=
        ⟨h.cfg, h.bn, h.me, h.scr, h.status, rfl, h.trace, h.scrTrace, h.limbTrace, h.respStream⟩
      have hreset : s.softReset.Like Q S s'.softReset :=
        ⟨h.cfg, fun r => by simpa using .none, rfl, h.scr, rfl, rfl, rfl, rfl, rfl, h.respStream⟩
      cases c <;> first
        | rfl
        | (refine ⟨rfl, rfl, ?_⟩; rw [h.cnt]; exact hc _)
        | skip
      refine ⟨rfl, rfl, ?_⟩
      cases imm.getLsbD 0
      · exact h
      · exact hreset
  | scrNeed sel mb eb =>
    refine finishSystem_like h .scrNeed ?_
    rw [h.cfg]
    exact .of_if rfl ⟨rfl, rfl, h⟩
  | bnCreate rd room =>
    refine finishCounted_like h .bnCreate ?_
    rw [h.cfg]
    exact .of_if rfl ⟨rfl, rfl, h.setBn rd (.valid _ _ ⟨rfl, rfl, rfl, hR.refl _⟩)⟩
  | bnSet rd neg sec payload =>
    refine finishCounted_like h .bnSet (withA_like h rd fun d d' hd => ?_)
    rw [h.cfg, hd.1]
    exact .of_if rfl ⟨rfl, rfl, h.writeBn rd _ (hR.refl _)⟩
  | bnGet ra =>
    refine finishCounted_like h .bnGet (withA_like h ra fun a a' ha => ?_)
    obtain rfl : Q = Eq := by simpa [Instr.op] using hi
    have : a' = a := by
      obtain ⟨h1, h2, h3, h4⟩ := ha
      cases a; cases a'; simp_all
    rw [h.cfg, this]
    exact ⟨rfl, rfl, h⟩
  | bnCopy rd ra =>
    refine finishCounted_like h .bnCopy (withDA_like h rd ra fun d d' a a' hd ha => ?_)
    rw [h.cfg, hd.1, ha.size, ha.value]
    exact .of_if rfl ⟨rfl, rfl, h.writeBn rd _ ha.2.2.2⟩
  | bnCmp ra rb =>
    refine finishCounted_like h .bnCmp (withDA_like h ra rb fun a a' b b' ha hb => ?_)
    rw [ha.2.2.1, hb.2.2.1, h.cfg, ha.commonSize hb]
    exact ⟨rfl, rfl, h.kernel _ _⟩
  | bnAdd rd ra rb =>
    refine finishCounted_like h .bnAdd (withDAB_like h rd ra rb fun d d' a a' b b' hd ha hb => ?_)
    unfold addInto
    rw [h.cfg, hd.1, ha.value, hb.value, ha.addPasses hb, ha.2.1, hb.2.1]
    exact .of_if rfl ⟨rfl, rfl, (h.kernel _ _).writeBn rd _ (hR.or _ _ _ _ ha.2.2.2 hb.2.2.2)⟩
  | bnSub rd ra rb =>
    refine finishCounted_like h .bnSub (withDAB_like h rd ra rb fun d d' a a' b b' hd ha hb => ?_)
    unfold addInto
    rw [h.cfg, hd.1, ha.value, hb.value, ha.addPasses hb, ha.2.1, hb.2.1]
    exact .of_if rfl ⟨rfl, rfl, (h.kernel _ _).writeBn rd _ (hR.or _ _ _ _ ha.2.2.2 hb.2.2.2)⟩
  | bnMul rd ra rb =>
    refine finishCounted_like h .bnMul (withDAB_like h rd ra rb fun d d' a a' b b' hd ha hb => ?_)
    rw [h.cfg, hd.1, ha.value, hb.value, ha.size, hb.size]
    exact .of_if rfl ⟨rfl, rfl, (h.kernel _ _).writeBn rd _ (hR.or _ _ _ _ ha.2.2.2 hb.2.2.2)⟩
  | bnMod rd ra rb =>
    refine finishCounted_like h .bnMod (withDAB_like h rd ra rb fun d d' a a' b b' hd ha hb => ?_)
    rw [h.cfg, hd.1, ha.value, ha.size, hb.size, hb.2.1, hb.2.2.1]
    exact .of_if rfl (.of_if rfl (.of_if rfl ⟨rfl, rfl, (h.kernel _ _).writeBn rd _ (hR.or _ _ _ _ ha.2.2.2 hb.2.2.2)⟩))
  | meCreate ed mb =>
    refine finishCounted_like h .meCreate ?_
    rw [h.cfg]
    exact .of_if rfl ⟨rfl, rfl, h.setMe ed _⟩
  | meInit ed ra =>
    refine finishCounted_like h .meInit (withA_like h ra fun a a' ha => ?_)
    rw [h.meAt]
    unfold meInitOn
    rw [ha.2.1, ha.2.2.1, h.cfg]
    split
    · rfl
    · exact .of_if rfl (.of_if rfl ⟨rfl, rfl, h.setMe ed _⟩)
    · exact .of_if rfl (.of_if rfl ⟨rfl, rfl, h.setMe ed _⟩)
  | meGet ed sel =>
    refine finishCounted_like h .meGet (.of_if rfl ?_)
    rw [h.meAt, h.cfg]
    split
    · rfl
    · exact .of_if ⟨rfl, rfl, h⟩ rfl
    · exact ⟨rfl, rfl, h⟩
  | meEnc rd ra ed =>
    refine finishCounted_like h .meEnc (withMont_like h rd ra ed _ fun a a' m ha => ?_)
    rw [h.cfg, ha.2.2.1]
    exact montInto_like h rd ed m _ _ ha.2.2.2
  | meDec rd ra ed =>
    refine finishCounted_like h .meDec (withMont_like h rd ra ed _ fun a a' m ha => ?_)
    rw [h.cfg, ha.2.2.1]
    exact montInto_like h rd ed m _ _ ha.2.2.2
  | meMul rd ra rb ed =>
    refine finishCounted_like h .meMul (withMont2_like h rd ra rb ed fun a a' b b' m ha hb => ?_)
    rw [h.cfg, ha.2.2.1, hb.2.2.1]
    exact montInto_like h rd ed m _ _ (hR.or _ _ _ _ ha.2.2.2 hb.2.2.2)
  | meSqr rd ra ed =>
    refine finishCounted_like h .meSqr (withMont_like h rd ra ed _ fun a a' m ha => ?_)
    rw [h.cfg, ha.2.2.1]
    exact montInto_like h rd ed m _ _ ha.2.2.2
  | meRed rd ra ed =>
    refine finishCounted_like h .meRed ?_
    rw [h.cfg]
    refine withMont_like h rd ra ed _ fun a a' m ha => ?_
    rw [ha.2.2.1]
    exact montInto_like h rd ed m _ _ ha.2.2.2
  | expBin rd ra rb ed =>
    obtain rfl : Q = Eq := by simpa [Instr.op] using hi
    refine finishCounted_like h .expBin (withExp_like h rd ra rb ed (fun b b' hb => hb.2.2.2.symm) (fun _ _ _ _ => rfl)
      fun a a' b b' m ha hb => ?_)
    rw [h.cfg, ha.2.2.1, hb.2.2.1]
    refine expInto_like h hR rd ed ha hb (expBinRun_mem ..) ?_ ?_ ?_
    · rw [(expBinRun_facts ..).1, (expBinRun_facts ..).1]
    · rw [(expBinRun_facts ..).2.1, (expBinRun_facts ..).2.1]; exact h.scr
    · rw [(expBinRun_facts ..).2.2, (expBinRun_facts ..).2.2]
  | expCt rd ra rb ed =>
    refine finishCounted_like h .expCt (withExp_like h rd ra rb ed (fun _ _ _ => rfl) (fun _ _ _ _ => rfl)
      fun a a' b b' m ha hb => ?_)
    rw [h.cfg, ha.2.2.1, hb.2.2.1]
    refine expInto_like h hR rd ed ha hb (expCtRun_mem ..) ?_ ?_ ?_
    · rw [(expCtRun_facts ..).1, (expCtRun_facts ..).1]
    · rw [(expCtRun_facts ..).2.1, (expCtRun_facts ..).2.1]; exact h.scr
    · rw [(expCtRun_facts ..).2.2, (expCtRun_facts ..).2.2]
  | expWin rd ra rb ed sbase slen =>
    refine finishCounted_like h .expWin (withExp_like h rd ra rb ed (fun _ _ _ => rfl)
      (fun b b' m hb => by simp [badWindow, hb.2.2.1, h.cfg]) fun a a' b b' m ha hb => ?_)
    rw [h.cfg, ha.2.2.1, hb.2.2.1]
    have f := expWinRun_facts s.cfg.W m s.scr sbase.toNat a.mag b.mag (wsel_pos s.cfg (bitlen b.mag))
    have f' := expWinRun_facts s.cfg.W m s'.scr sbase.toNat a.mag b.mag (wsel_pos s.cfg (bitlen b.mag))
    refine expInto_like h hR rd ed ha hb (expWinRun_mem hR s.cfg.W m h.scr ..).symm ?_ ?_ ?_
    · rw [f.1, f'.1]
    · rw [f.2.2, f'.2.2]; exact hR.write _ _ _ (hR.write _ _ _ h.scr)
    · rw [f.2.1, f'.2.1]
  | crtRecomb rd ra rb rc ed ee =>
    refine finishCounted_like h .crtRecomb (withCrt_like h rd ra rb rc ed ee fun a a' b b' c c' p q ha hb hc => ?_)
    rw [h.cfg, ha.2.2.1, hb.2.2.1, hc.2.2.1, h.kselAt]
    exact ⟨rfl, rfl, (h.kernel _ _).writeBn rd _
      (hR.or _ _ _ _ (hR.or _ _ _ _ ha.2.2.2 hb.2.2.2) hc.2.2.2)⟩

/-- No command reads or writes the unread beats. -/
theorem exec_cmdStream {i : Instr} {s t : State} (h : exec i s = .next t) : t.cmdStream = s.cmdStream := by
  obtain ⟨t', ht, he⟩ := exec_ends i s
  rw [ht] at h
  cases h
  cases he with
  | error => rfl
  | read => rfl
  | csrWr n imm c s' hi hc h =>
    cases c <;> simp only [State.writeCsr, Option.some.injEq, reduceCtorEq] at h <;> subst h <;> try rfl
    cases imm.getLsbD 0 <;> rfl
  | done s' v p h => cases h <;> simp

/-- States alike with equal secrecy differ in scratch content and unread beats only. -/
theorem State.Like.eq (h : s.Like Eq S s') : s' = { s with scr := s'.scr, cmdStream := s'.cmdStream } := by
  have hbn : s'.bn = s.bn := State.bn_ext fun r => by
    have hr := h.bn r
    generalize s.bnAt r = x at hr ⊢
    generalize s'.bnAt r = x' at hr ⊢
    cases hr with
    | none => rfl
    | valid b b' hb =>
      obtain ⟨h1, h2, h3, h4⟩ := hb
      cases b
      cases b'
      simp_all
  obtain ⟨h1, -, h3, -, h5, h6, h7, h8, h9, h10⟩ := h
  cases s
  cases s'
  simp_all

/-- A command does the same whatever beats are still unread. -/
theorem exec_otherStream {i : Instr} {s t : State} (h : exec i s = .next t) (q : List Beat) :
    exec i { s with cmdStream := q } = .next { t with cmdStream := q } := by
  have hl : s.Like Eq Eq { s with cmdStream := q } :=
    ⟨rfl, fun r => .refl (fun _ => rfl) (s.bnAt r), rfl, rfl, rfl, rfl, rfl, rfl, rfl, rfl⟩
  obtain ⟨t1, t2, h1, h2, h3⟩ := exec_like relations_eq hl i (.inr rfl)
  rw [h] at h1
  cases h1
  have hq := exec_cmdStream h2
  rw [h2, h3.eq, ← h3.scr, hq]

end

end Sys2Proof.Machine
end

