-- ==== Sys2Proof/Laws/Crt.lean ====
section
/-!
SUPPORT. The CRT recombination's value: its constant-time difference is a residue, and its formula (R211).
-/

namespace Sys2Proof.Machine

theorem maskLimbs_true {W : Nat} (hW : W ≤ 64) {v : Limbs} (hv : ∀ x ∈ v, x.toNat < 2 ^ W) :
    maskLimbs (maskW W true) v = v := by
  unfold maskLimbs
  conv_rhs => rw [← List.map_id v]
  exact List.map_congr_left fun x hx => maskW_true_and hW (hv x hx)

theorem limbsVal_maskLimbs_false (W : Nat) (v : Limbs) : limbsVal W (maskLimbs (maskW W false) v) = 0 := by
  induction v with
  | nil => rfl
  | cons x v ih =>
    show limbVal W (x &&& maskW W false) + 2 ^ W * limbsVal W (maskLimbs (maskW W false) v) = 0
    rw [ih, and_maskW_false]; simp [limbVal]

/-- The subtract and conditional add-back give `(xp − xq) mod P` (R211). -/
theorem ReadyFacts.crtDiff_eq {W : Nat} {e : EngineCfg} {p : Modulus} (h : ReadyFacts W e p) (hW : W ≤ 64)
    {xp : Nat} (hx : xp < p.M) (xq : Nat) : (crtDiff W p xp xq : Int) = ((xp : Int) - xq) % p.M := by
  have hM : p.M < 2 ^ (W * p.L.toNat) := by have := h.M_lt; rwa [Nat.mul_comm] at this
  have hq : xq % p.M < p.M := Nat.mod_lt _ (Modulus.M_pos h.odd)
  have hmod : ((xp : Int) - xq) % p.M = ((xp : Int) - (xq % p.M : Nat)) % p.M := by
    rw [Int.natCast_mod, Int.sub_emod, Int.sub_emod (xp : Int) ((xq : Int) % p.M), Int.emod_emod_of_dvd _ (dvd_refl _)]
  rw [hmod]
  unfold crtDiff subN addN
  generalize xq % p.M = t at *
  generalize p.L.toNat = n at *
  have hp : 0 < 2 ^ (W * n) := by positivity
  simp only [limbsVal_limbsOf_of_lt hW (lt_trans hx hM), limbsVal_limbsOf_of_lt hW (lt_trans hq hM)]
  by_cases hlt : xp < t
  · have h1 : ((xp : Int) - t - (0 : Nat)) % (2 ^ (W * n) : Nat) = xp - t + (2 ^ (W * n) : Nat) := by
      rw [← Int.add_emod_right, Int.emod_eq_of_lt (by omega) (by omega)]
      omega
    have h2 : decide ((xp : Int) - t - (0 : Nat) < 0) = true := decide_eq_true (by omega)
    rw [h1, h2, maskLimbs_true hW (limbsOf_lt hW _ _), limbsVal_limbsOf_of_lt hW hM,
      limbsVal_limbsOf_of_lt hW (show ((xp : Int) - t + (2 ^ (W * n) : Nat)).toNat < 2 ^ (W * n) by omega),
      limbsVal_limbsOf_of_lt hW (Nat.mod_lt _ hp)]
    have h3 : ((xp : Int) - t + (2 ^ (W * n) : Nat)).toNat + p.M + 0 = (xp + p.M - t) + 2 ^ (W * n) := by omega
    rw [h3, Nat.add_mod_right, Nat.mod_eq_of_lt (by omega)]
    rw [← Int.add_emod_right, Int.emod_eq_of_lt (by omega) (by omega)]
    omega
  · have h1 : ((xp : Int) - t - (0 : Nat)) % (2 ^ (W * n) : Nat) = xp - t := by
      rw [Int.emod_eq_of_lt (by omega) (by omega)]; omega
    have h2 : decide ((xp : Int) - t - (0 : Nat) < 0) = false := decide_eq_false (by omega)
    rw [h1, h2, limbsVal_maskLimbs_false,
      limbsVal_limbsOf_of_lt hW (show ((xp : Int) - t).toNat < 2 ^ (W * n) by omega),
      limbsVal_limbsOf_of_lt hW (Nat.mod_lt _ hp), Nat.mod_eq_of_lt (by omega),
      Int.emod_eq_of_lt (by omega) (by omega)]
    omega

/-- The recombined value is the formula of R211, free of the kernels. -/
theorem ReadyFacts.crtValue_eq {W : Nat} {e : EngineCfg} {p : Modulus} (h : ReadyFacts W e p) (hW : W ≤ 64)
    (q : Modulus) {xp : Nat} (hx : xp < p.M) (xq qInv : Nat) :
    (crtValue W p q xp xq qInv : Int) = xq + ((xp - xq : Int) * qInv % p.M) * q.M := by
  unfold crtValue
  simp only [h.montMul_enc_left]
  push_cast
  rw [h.crtDiff_eq hW hx xq, Int.mul_emod, Int.emod_emod_of_dvd _ (dvd_refl _), ← Int.mul_emod]

end Sys2Proof.Machine
end

