-- ==== Sys2Proof/Laws/Decode.lean ====
section
/-!
SUPPORT. The fields of a header made from fields, and the opcode map both ways (R91, R96).
-/

namespace Sys2Proof

section Fields

variable (op : BitVec 8) (rd ra rb rc : BnIdx) (ed ee : EngIdx) (fn : BitVec 4) (hi lo : BitVec 16)

@[simp] theorem hdrOp_header : hdrOp (header op rd ra rb rc ed ee fn hi lo) = op := by
  simp only [hdrOp, header]
  apply BitVec.eq_of_getLsbD_eq
  intro i hi'
  simp only [BitVec.getLsbD_extractLsb', BitVec.getLsbD_append, hi', decide_true, Bool.true_and]
  simp (disch := omega) only [if_neg]
  congr 1
  all_goals omega

@[simp] theorem hdrRd_header : hdrRd (header op rd ra rb rc ed ee fn hi lo) = rd := by
  simp only [hdrRd, header]
  apply BitVec.eq_of_getLsbD_eq
  intro i hi'
  simp only [BitVec.getLsbD_extractLsb', BitVec.getLsbD_append, hi', decide_true, Bool.true_and]
  simp (disch := omega) only [if_neg, if_pos]
  congr 1
  all_goals omega

@[simp] theorem hdrRa_header : hdrRa (header op rd ra rb rc ed ee fn hi lo) = ra := by
  simp only [hdrRa, header]
  apply BitVec.eq_of_getLsbD_eq
  intro i hi'
  simp only [BitVec.getLsbD_extractLsb', BitVec.getLsbD_append, hi', decide_true, Bool.true_and]
  simp (disch := omega) only [if_neg, if_pos]
  congr 1
  all_goals omega

@[simp] theorem hdrRb_header : hdrRb (header op rd ra rb rc ed ee fn hi lo) = rb := by
  simp only [hdrRb, header]
  apply BitVec.eq_of_getLsbD_eq
  intro i hi'
  simp only [BitVec.getLsbD_extractLsb', BitVec.getLsbD_append, hi', decide_true, Bool.true_and]
  simp (disch := omega) only [if_neg, if_pos]
  congr 1
  all_goals omega

@[simp] theorem hdrRc_header : hdrRc (header op rd ra rb rc ed ee fn hi lo) = rc := by
  simp only [hdrRc, header]
  apply BitVec.eq_of_getLsbD_eq
  intro i hi'
  simp only [BitVec.getLsbD_extractLsb', BitVec.getLsbD_append, hi', decide_true, Bool.true_and]
  simp (disch := omega) only [if_neg, if_pos]
  congr 1
  all_goals omega

@[simp] theorem hdrEd_header : hdrEd (header op rd ra rb rc ed ee fn hi lo) = ed := by
  simp only [hdrEd, header]
  apply BitVec.eq_of_getLsbD_eq
  intro i hi'
  simp only [BitVec.getLsbD_extractLsb', BitVec.getLsbD_append, hi', decide_true, Bool.true_and]
  simp (disch := omega) only [if_neg, if_pos]
  congr 1
  all_goals omega

@[simp] theorem hdrEe_header : hdrEe (header op rd ra rb rc ed ee fn hi lo) = ee := by
  simp only [hdrEe, header]
  apply BitVec.eq_of_getLsbD_eq
  intro i hi'
  simp only [BitVec.getLsbD_extractLsb', BitVec.getLsbD_append, hi', decide_true, Bool.true_and]
  simp (disch := omega) only [if_neg, if_pos]
  congr 1
  all_goals omega

@[simp] theorem hdrFn_header : hdrFn (header op rd ra rb rc ed ee fn hi lo) = fn := by
  simp only [hdrFn, header]
  apply BitVec.eq_of_getLsbD_eq
  intro i hi'
  simp only [BitVec.getLsbD_extractLsb', BitVec.getLsbD_append, hi', decide_true, Bool.true_and]
  simp (disch := omega) only [if_neg, if_pos]
  congr 1
  all_goals omega

@[simp] theorem hdrImmHi_header : hdrImmHi (header op rd ra rb rc ed ee fn hi lo) = hi := by
  simp only [hdrImmHi, header]
  apply BitVec.eq_of_getLsbD_eq
  intro i hi'
  simp only [BitVec.getLsbD_extractLsb', BitVec.getLsbD_append, hi', decide_true, Bool.true_and]
  simp (disch := omega) only [if_neg, if_pos]
  congr 1
  all_goals omega

@[simp] theorem hdrImmLo_header : hdrImmLo (header op rd ra rb rc ed ee fn hi lo) = lo := by
  simp only [hdrImmLo, header]
  apply BitVec.eq_of_getLsbD_eq
  intro i hi'
  simp only [BitVec.getLsbD_extractLsb', BitVec.getLsbD_append, hi', decide_true, Bool.true_and]
  simp (disch := omega) only [if_neg, if_pos]
  congr 1
  all_goals omega

@[simp] theorem hdrCsr_header : hdrCsr (header op rd ra rb rc ed ee fn hi lo) = rd ++ ra := by
  simp only [hdrCsr, header]
  apply BitVec.eq_of_getLsbD_eq
  intro i hi'
  simp only [BitVec.getLsbD_extractLsb', BitVec.getLsbD_append, hi', decide_true, Bool.true_and]
  simp (disch := omega) only [if_neg]
  repeat' split
  all_goals first | omega | (congr 1; omega)

@[simp] theorem hdrImm_header : hdrImm (header op rd ra rb rc ed ee fn hi lo) = hi ++ lo := by
  simp only [hdrImm, header]
  apply BitVec.eq_of_getLsbD_eq
  intro i hi'
  simp only [BitVec.getLsbD_extractLsb', BitVec.getLsbD_append, hi', decide_true, Bool.true_and]
  simp (disch := omega) only [if_neg]
  repeat' split
  all_goals first | omega | (congr 1; omega)

/-- Every beat is the header of its fields. -/
theorem header_fields (h : Beat) :
    header (hdrOp h) (hdrRd h) (hdrRa h) (hdrRb h) (hdrRc h) (hdrEd h) (hdrEe h) (hdrFn h) (hdrImmHi h) (hdrImmLo h)
      = h := by
  simp only [header, hdrOp, hdrRd, hdrRa, hdrRb, hdrRc, hdrEd, hdrEe, hdrFn, hdrImmHi, hdrImmLo]
  apply BitVec.eq_of_getLsbD_eq
  intro i hi'
  simp only [BitVec.getLsbD_extractLsb', BitVec.getLsbD_append]
  repeat' split
  all_goals
    rw [decide_eq_true (by omega), Bool.true_and]
    congr 1
    omega

theorem hdrOp_and (h h' : Beat) : hdrOp (h &&& h') = hdrOp h &&& hdrOp h' := by simp [hdrOp, BitVec.extractLsb'_and]
theorem hdrRd_and (h h' : Beat) : hdrRd (h &&& h') = hdrRd h &&& hdrRd h' := by simp [hdrRd, BitVec.extractLsb'_and]
theorem hdrRa_and (h h' : Beat) : hdrRa (h &&& h') = hdrRa h &&& hdrRa h' := by simp [hdrRa, BitVec.extractLsb'_and]
theorem hdrRb_and (h h' : Beat) : hdrRb (h &&& h') = hdrRb h &&& hdrRb h' := by simp [hdrRb, BitVec.extractLsb'_and]
theorem hdrRc_and (h h' : Beat) : hdrRc (h &&& h') = hdrRc h &&& hdrRc h' := by simp [hdrRc, BitVec.extractLsb'_and]
theorem hdrEd_and (h h' : Beat) : hdrEd (h &&& h') = hdrEd h &&& hdrEd h' := by simp [hdrEd, BitVec.extractLsb'_and]
theorem hdrEe_and (h h' : Beat) : hdrEe (h &&& h') = hdrEe h &&& hdrEe h' := by simp [hdrEe, BitVec.extractLsb'_and]
theorem hdrFn_and (h h' : Beat) : hdrFn (h &&& h') = hdrFn h &&& hdrFn h' := by simp [hdrFn, BitVec.extractLsb'_and]
theorem hdrImmHi_and (h h' : Beat) : hdrImmHi (h &&& h') = hdrImmHi h &&& hdrImmHi h' := by simp [hdrImmHi, BitVec.extractLsb'_and]
theorem hdrImmLo_and (h h' : Beat) : hdrImmLo (h &&& h') = hdrImmLo h &&& hdrImmLo h' := by simp [hdrImmLo, BitVec.extractLsb'_and]

/-- AND works field by field. -/
theorem header_and (op' : BitVec 8) (rd' ra' rb' rc' : BnIdx) (ed' ee' : EngIdx) (fn' : BitVec 4)
    (hi' lo' : BitVec 16) :
    header op rd ra rb rc ed ee fn hi lo &&& header op' rd' ra' rb' rc' ed' ee' fn' hi' lo' =
      header (op &&& op') (rd &&& rd') (ra &&& ra') (rb &&& rb') (rc &&& rc') (ed &&& ed') (ee &&& ee')
        (fn &&& fn') (hi &&& hi') (lo &&& lo') := by
  rw [← header_fields (header op rd ra rb rc ed ee fn hi lo &&& _)]
  simp only [hdrOp_and, hdrRd_and, hdrRa_and, hdrRb_and, hdrRc_and, hdrEd_and, hdrEe_and, hdrFn_and, hdrImmHi_and, hdrImmLo_and,
    hdrOp_header, hdrRd_header, hdrRa_header, hdrRb_header, hdrRc_header, hdrEd_header, hdrEe_header, hdrFn_header, hdrImmHi_header, hdrImmLo_header]

/-- A header determines its fields. -/
theorem header_inj {op op' : BitVec 8} {rd ra rb rc rd' ra' rb' rc' : BnIdx} {ed ee ed' ee' : EngIdx}
    {fn fn' : BitVec 4} {hi lo hi' lo' : BitVec 16}
    (h : header op rd ra rb rc ed ee fn hi lo = header op' rd' ra' rb' rc' ed' ee' fn' hi' lo') :
    op = op' ∧ rd = rd' ∧ ra = ra' ∧ rb = rb' ∧ rc = rc' ∧ ed = ed' ∧ ee = ee' ∧ fn = fn' ∧ hi = hi' ∧ lo = lo' := by
  refine ⟨?_, ?_, ?_, ?_, ?_, ?_, ?_, ?_, ?_, ?_⟩
  · simpa using congrArg hdrOp h
  · simpa using congrArg hdrRd h
  · simpa using congrArg hdrRa h
  · simpa using congrArg hdrRb h
  · simpa using congrArg hdrRc h
  · simpa using congrArg hdrEd h
  · simpa using congrArg hdrEe h
  · simpa using congrArg hdrFn h
  · simpa using congrArg hdrImmHi h
  · simpa using congrArg hdrImmLo h

end Fields

/-! ### The opcode map -/

/-- No two commands share an opcode byte (R96). -/
theorem Op.code_inj : ∀ o o' : Op, o.code = o'.code → o = o' := by
  intro o o' h
  cases o <;> cases o' <;> first | rfl | (revert h; decide)

theorem Op.ofCode_code (o : Op) : Op.ofCode o.code = some o := by cases o <;> decide

theorem Op.ofCode_some {c : BitVec 8} {o : Op} (h : Op.ofCode c = some o) : o.code = c := by
  simpa using List.find?_some h

/-- The mask is always a whole byte at the opcode, so the byte of `match` is the opcode's own (R96). -/
theorem Op.code_of_match {h : Beat} {o : Op} (hm : h &&& o.mask = o.pattern) : hdrOp h = o.code := by
  have := congrArg hdrOp hm
  have h1 : hdrOp (h &&& o.mask) = hdrOp h &&& hdrOp o.mask := by simp [hdrOp, BitVec.extractLsb'_and]
  have h2 : hdrOp o.mask = BitVec.allOnes 8 := by cases o <;> decide
  have h3 : hdrOp o.pattern = o.code := by cases o <;> decide
  rw [h1, h2, h3, BitVec.and_allOnes] at this
  exact this

/-- The mask of each row field by field: ones where the field, or a bit of it, is not an operand (R95, R97). -/
def Op.maskFields (o : Op) : Beat :=
  match o with
  | .nop => header 0xFF 15 15 15 15 3 3 15 0xFFFF 0xFFFF
  | .csrRd => header 0xFF 0 0 15 15 3 3 15 0xFFFF 0xFFFF
  | .csrWr => header 0xFF 0 0 15 15 3 3 15 0 0
  | .scrNeed => header 0xFF 15 15 15 15 3 3 0xC 0 0
  | .bnCreate => header 0xFF 0 15 15 15 3 3 15 0xFFFF 0
  | .bnSet => header 0xFF 0 15 15 15 3 3 0xC 0xFFFF 0
  | .bnGet => header 0xFF 15 0 15 15 3 3 15 0xFFFF 0xFFFF
  | .bnCopy => header 0xFF 0 0 15 15 3 3 15 0xFFFF 0xFFFF
  | .bnCmp => header 0xFF 15 0 0 15 3 3 15 0xFFFF 0xFFFF
  | .bnAdd => header 0xFF 0 0 0 15 3 3 15 0xFFFF 0xFFFF
  | .bnSub => header 0xFF 0 0 0 15 3 3 15 0xFFFF 0xFFFF
  | .bnMul => header 0xFF 0 0 0 15 3 3 15 0xFFFF 0xFFFF
  | .bnMod => header 0xFF 0 0 0 15 3 3 15 0xFFFF 0xFFFF
  | .meCreate => header 0xFF 15 15 15 15 0 3 15 0xFFFF 0
  | .meInit => header 0xFF 15 0 15 15 0 3 15 0xFFFF 0xFFFF
  | .meGet => header 0xFF 15 15 15 15 0 3 0 0xFFFF 0xFFFF
  | .meEnc => header 0xFF 0 0 15 15 0 3 15 0xFFFF 0xFFFF
  | .meDec => header 0xFF 0 0 15 15 0 3 15 0xFFFF 0xFFFF
  | .meMul => header 0xFF 0 0 0 15 0 3 15 0xFFFF 0xFFFF
  | .meSqr => header 0xFF 0 0 15 15 0 3 15 0xFFFF 0xFFFF
  | .meRed => header 0xFF 0 0 15 15 0 3 15 0xFFFF 0xFFFF
  | .expBin => header 0xFF 0 0 0 15 0 3 15 0xFFFF 0xFFFF
  | .expCt => header 0xFF 0 0 0 15 0 3 15 0xFFFF 0xFFFF
  | .expWin => header 0xFF 0 0 0 15 0 3 15 0 0
  | .crtRecomb => header 0xFF 0 0 0 0 0 0 15 0xFFFF 0xFFFF

theorem Op.mask_eq (o : Op) : o.mask = o.maskFields := by cases o <;> decide
theorem Op.pattern_eq (o : Op) : o.pattern = header o.code 0 0 0 0 0 0 0 0 0 := by cases o <;> decide

/-- The opcode of a built command is the opcode it was built for. -/
@[simp] theorem Op.build_op (o : Op) (h : Beat) (payload : List Beat) : (o.build h payload).op = o := by
  cases o <;> rfl

/-- What the decoder accepts, in one line (R96). -/
theorem decode_ok_iff (h : Beat) (payload : List Beat) (i : Instr) :
    decode h payload = .ok i ↔ ∃ o : Op, h &&& o.mask = o.pattern ∧ i = o.build h payload := by
  unfold decode
  constructor
  · intro hd
    split at hd
    · cases hd
    · next o _ =>
      split at hd
      · next hm => cases hd; exact ⟨o, hm, rfl⟩
      · cases hd
  · rintro ⟨o, hm, rfl⟩
    rw [Op.code_of_match hm, Op.ofCode_code]
    simp [hm]

/-- What the decoder rejects. -/
theorem decode_error_iff (h : Beat) (payload : List Beat) :
    (∃ e, decode h payload = .error e) ↔ ∀ o : Op, h &&& o.mask ≠ o.pattern := by
  constructor
  · rintro ⟨e, he⟩ o hm
    rw [(decode_ok_iff h payload _).2 ⟨o, hm, rfl⟩] at he
    cases he
  · intro hn
    cases hd : decode h payload with
    | error e => exact ⟨e, rfl⟩
    | ok i => obtain ⟨o, hm, _⟩ := (decode_ok_iff h payload i).1 hd; exact absurd hm (hn o)

/-! ### Framing (R94) -/

/-- A command's beats at the front of a stream are framed exactly. -/
theorem nextFrame_append (h : Beat) (payload rest : List Beat) (hp : payload.length = payloadCount h) :
    nextFrame (h :: (payload ++ rest)) = some ⟨h, payload, rest⟩ := by
  simp [nextFrame, ← hp]

/-- The header a command encodes to announces its payload. -/
theorem payloadCount_encodeHeader (i : Instr) (h : i.encodable = true) :
    payloadCount (encodeHeader i) = i.payload.length := by
  cases i <;>
    first
      | (simp [payloadCount, encodeHeader, Op.code, Instr.payload]; done)
      | (replace h := of_decide_eq_true h
         simp only [Instr.payload] at h
         simp [payloadCount, encodeHeader, Instr.payload, Nat.mod_eq_of_lt h])

end Sys2Proof
end

