-- ==== Sys2Proof/Laws/PerInstr.lean ====
section
/-!
SUPPORT. The per-instruction family `Framing`: the header a command encodes to matches that command's own row of R96, and announces exactly its payload (R94, R97).
-/

namespace Sys2Proof.Laws.Framing

/-- The command's header matches its own mask and match, and its length field is its payload's. -/
def Statement (i : Instr) : Prop :=
  encodeHeader i &&& i.op.mask = i.op.pattern ∧
    (i.encodable = true → payloadCount (encodeHeader i) = i.payload.length)

/-! ### A field under an all-ones, an all-zeros or a partial mask -/

theorem and_ones4 (x : BitVec 4) : x &&& 15 = x := by revert x; decide
theorem and_ones2 (x : BitVec 2) : x &&& 3 = x := by revert x; decide
theorem and_ones8 (x : BitVec 8) : x &&& 255 = x := BitVec.and_allOnes
theorem and_ones16 (x : BitVec 16) : x &&& 0xFFFF = x := BitVec.and_allOnes
theorem and_zeros (n : Nat) (x : BitVec n) : x &&& 0 = 0 := BitVec.and_zero
theorem and_fn_sel (x : BitVec 2) : (0#2 ++ x) &&& 0xC = (0 : BitVec 4) := by revert x; decide
theorem and_fn_set (a b : Bool) : (0#2 ++ BitVec.ofBool a ++ BitVec.ofBool b) &&& 0xC = (0 : BitVec 4) := by
  revert a b; decide

/-! ### One lemma per command -/

theorem nop : Statement .nop := by
  refine ⟨?_, payloadCount_encodeHeader _⟩
  rw [Op.mask_eq, Op.pattern_eq]
  decide

theorem csrRd (csr : BitVec 8) : Statement (.csrRd csr) := by
  refine ⟨?_, payloadCount_encodeHeader _⟩
  rw [Op.mask_eq, Op.pattern_eq]
  simp only [encodeHeader, Instr.op, Op.maskFields, header_and, and_ones8, and_ones4, and_ones2, and_ones16, and_zeros]

theorem csrWr (csr : BitVec 8) (imm : BitVec 32) : Statement (.csrWr csr imm) := by
  refine ⟨?_, payloadCount_encodeHeader _⟩
  rw [Op.mask_eq, Op.pattern_eq]
  simp only [encodeHeader, Instr.op, Op.maskFields, header_and, and_ones8, and_ones4, and_ones2, and_zeros]

theorem scrNeed (sel : SizeSel) (modbits : BitVec 16) (expbits : BitVec 16) : Statement (.scrNeed sel modbits expbits) := by
  refine ⟨?_, payloadCount_encodeHeader _⟩
  rw [Op.mask_eq, Op.pattern_eq]
  simp only [encodeHeader, Instr.op, Op.maskFields, header_and, and_ones8, and_ones4, and_ones2, and_zeros, and_fn_sel]

theorem bnCreate (rd : BnIdx) (room : BitVec 16) : Statement (.bnCreate rd room) := by
  refine ⟨?_, payloadCount_encodeHeader _⟩
  rw [Op.mask_eq, Op.pattern_eq]
  simp only [encodeHeader, Instr.op, Op.maskFields, header_and, and_ones8, and_ones4, and_ones2, and_ones16, and_zeros]

theorem bnSet (rd : BnIdx) (neg : Bool) (sec : Bool) (payload : List Beat) : Statement (.bnSet rd neg sec payload) := by
  refine ⟨?_, payloadCount_encodeHeader _⟩
  rw [Op.mask_eq, Op.pattern_eq]
  simp only [encodeHeader, Instr.op, Op.maskFields, header_and, and_ones8, and_ones4, and_ones2, and_ones16, and_zeros]
  rw [and_fn_set]

theorem bnGet (ra : BnIdx) : Statement (.bnGet ra) := by
  refine ⟨?_, payloadCount_encodeHeader _⟩
  rw [Op.mask_eq, Op.pattern_eq]
  simp only [encodeHeader, Instr.op, Op.maskFields, header_and, and_ones8, and_ones4, and_ones2, and_ones16, and_zeros]

theorem bnCopy (rd : BnIdx) (ra : BnIdx) : Statement (.bnCopy rd ra) := by
  refine ⟨?_, payloadCount_encodeHeader _⟩
  rw [Op.mask_eq, Op.pattern_eq]
  simp only [encodeHeader, Instr.op, Op.maskFields, header_and, and_ones8, and_ones4, and_ones2, and_ones16, and_zeros]

theorem bnCmp (ra : BnIdx) (rb : BnIdx) : Statement (.bnCmp ra rb) := by
  refine ⟨?_, payloadCount_encodeHeader _⟩
  rw [Op.mask_eq, Op.pattern_eq]
  simp only [encodeHeader, Instr.op, Op.maskFields, header_and, and_ones8, and_ones4, and_ones2, and_ones16, and_zeros]

theorem bnAdd (rd : BnIdx) (ra : BnIdx) (rb : BnIdx) : Statement (.bnAdd rd ra rb) := by
  refine ⟨?_, payloadCount_encodeHeader _⟩
  rw [Op.mask_eq, Op.pattern_eq]
  simp only [encodeHeader, Instr.op, Op.maskFields, header_and, and_ones8, and_ones4, and_ones2, and_ones16, and_zeros]

theorem bnSub (rd : BnIdx) (ra : BnIdx) (rb : BnIdx) : Statement (.bnSub rd ra rb) := by
  refine ⟨?_, payloadCount_encodeHeader _⟩
  rw [Op.mask_eq, Op.pattern_eq]
  simp only [encodeHeader, Instr.op, Op.maskFields, header_and, and_ones8, and_ones4, and_ones2, and_ones16, and_zeros]

theorem bnMul (rd : BnIdx) (ra : BnIdx) (rb : BnIdx) : Statement (.bnMul rd ra rb) := by
  refine ⟨?_, payloadCount_encodeHeader _⟩
  rw [Op.mask_eq, Op.pattern_eq]
  simp only [encodeHeader, Instr.op, Op.maskFields, header_and, and_ones8, and_ones4, and_ones2, and_ones16, and_zeros]

theorem bnMod (rd : BnIdx) (ra : BnIdx) (rb : BnIdx) : Statement (.bnMod rd ra rb) := by
  refine ⟨?_, payloadCount_encodeHeader _⟩
  rw [Op.mask_eq, Op.pattern_eq]
  simp only [encodeHeader, Instr.op, Op.maskFields, header_and, and_ones8, and_ones4, and_ones2, and_ones16, and_zeros]

theorem meCreate (ed : EngIdx) (maxbits : BitVec 16) : Statement (.meCreate ed maxbits) := by
  refine ⟨?_, payloadCount_encodeHeader _⟩
  rw [Op.mask_eq, Op.pattern_eq]
  simp only [encodeHeader, Instr.op, Op.maskFields, header_and, and_ones8, and_ones4, and_ones2, and_ones16, and_zeros]

theorem meInit (ed : EngIdx) (ra : BnIdx) : Statement (.meInit ed ra) := by
  refine ⟨?_, payloadCount_encodeHeader _⟩
  rw [Op.mask_eq, Op.pattern_eq]
  simp only [encodeHeader, Instr.op, Op.maskFields, header_and, and_ones8, and_ones4, and_ones2, and_ones16, and_zeros]

theorem meGet (ed : EngIdx) (sel : BitVec 4) : Statement (.meGet ed sel) := by
  refine ⟨?_, payloadCount_encodeHeader _⟩
  rw [Op.mask_eq, Op.pattern_eq]
  simp only [encodeHeader, Instr.op, Op.maskFields, header_and, and_ones8, and_ones4, and_ones2, and_ones16, and_zeros]

theorem meEnc (rd : BnIdx) (ra : BnIdx) (ed : EngIdx) : Statement (.meEnc rd ra ed) := by
  refine ⟨?_, payloadCount_encodeHeader _⟩
  rw [Op.mask_eq, Op.pattern_eq]
  simp only [encodeHeader, Instr.op, Op.maskFields, header_and, and_ones8, and_ones4, and_ones2, and_ones16, and_zeros]

theorem meDec (rd : BnIdx) (ra : BnIdx) (ed : EngIdx) : Statement (.meDec rd ra ed) := by
  refine ⟨?_, payloadCount_encodeHeader _⟩
  rw [Op.mask_eq, Op.pattern_eq]
  simp only [encodeHeader, Instr.op, Op.maskFields, header_and, and_ones8, and_ones4, and_ones2, and_ones16, and_zeros]

theorem meMul (rd : BnIdx) (ra : BnIdx) (rb : BnIdx) (ed : EngIdx) : Statement (.meMul rd ra rb ed) := by
  refine ⟨?_, payloadCount_encodeHeader _⟩
  rw [Op.mask_eq, Op.pattern_eq]
  simp only [encodeHeader, Instr.op, Op.maskFields, header_and, and_ones8, and_ones4, and_ones2, and_ones16, and_zeros]

theorem meSqr (rd : BnIdx) (ra : BnIdx) (ed : EngIdx) : Statement (.meSqr rd ra ed) := by
  refine ⟨?_, payloadCount_encodeHeader _⟩
  rw [Op.mask_eq, Op.pattern_eq]
  simp only [encodeHeader, Instr.op, Op.maskFields, header_and, and_ones8, and_ones4, and_ones2, and_ones16, and_zeros]

theorem meRed (rd : BnIdx) (ra : BnIdx) (ed : EngIdx) : Statement (.meRed rd ra ed) := by
  refine ⟨?_, payloadCount_encodeHeader _⟩
  rw [Op.mask_eq, Op.pattern_eq]
  simp only [encodeHeader, Instr.op, Op.maskFields, header_and, and_ones8, and_ones4, and_ones2, and_ones16, and_zeros]

theorem expBin (rd : BnIdx) (ra : BnIdx) (rb : BnIdx) (ed : EngIdx) : Statement (.expBin rd ra rb ed) := by
  refine ⟨?_, payloadCount_encodeHeader _⟩
  rw [Op.mask_eq, Op.pattern_eq]
  simp only [encodeHeader, Instr.op, Op.maskFields, header_and, and_ones8, and_ones4, and_ones2, and_ones16, and_zeros]

theorem expCt (rd : BnIdx) (ra : BnIdx) (rb : BnIdx) (ed : EngIdx) : Statement (.expCt rd ra rb ed) := by
  refine ⟨?_, payloadCount_encodeHeader _⟩
  rw [Op.mask_eq, Op.pattern_eq]
  simp only [encodeHeader, Instr.op, Op.maskFields, header_and, and_ones8, and_ones4, and_ones2, and_ones16, and_zeros]

theorem expWin (rd : BnIdx) (ra : BnIdx) (rb : BnIdx) (ed : EngIdx) (sbase : BitVec 16) (slen : BitVec 16) : Statement (.expWin rd ra rb ed sbase slen) := by
  refine ⟨?_, payloadCount_encodeHeader _⟩
  rw [Op.mask_eq, Op.pattern_eq]
  simp only [encodeHeader, Instr.op, Op.maskFields, header_and, and_ones8, and_ones4, and_ones2, and_zeros]

theorem crtRecomb (rd : BnIdx) (ra : BnIdx) (rb : BnIdx) (rc : BnIdx) (ed : EngIdx) (ee : EngIdx) : Statement (.crtRecomb rd ra rb rc ed ee) := by
  refine ⟨?_, payloadCount_encodeHeader _⟩
  rw [Op.mask_eq, Op.pattern_eq]
  simp only [encodeHeader, Instr.op, Op.maskFields, header_and, and_ones8, and_ones4, and_ones16, and_zeros]

end Sys2Proof.Laws.Framing
end

