-- ==== Sys2Proof/Machine/Asm.lean ====
section
/-!
DEFINITION. The assembly notation of R104 of 30_encoding.md, as a function from a command to its text.
-/

namespace Sys2Proof.Machine

/-- `rN`. -/
def asmReg (r : BnIdx) : String := "r" ++ toString r.toNat

/-- `eN`. -/
def asmEng (e : EngIdx) : String := "e" ++ toString e.toNat

/-- `#v`, in decimal. -/
def asmImm (v : Nat) : String := "#" ++ toString v

/-- A limb, in hexadecimal. -/
def asmLimb (v : Nat) : String := "0x" ++ String.ofList ((Nat.toDigits 16 v).map Char.toUpper)

/-- A mnemonic and its operands, separated by commas. -/
def asmLine (mnemonic : String) (operands : List String) : String :=
  if operands = [] then mnemonic else mnemonic ++ " " ++ String.intercalate ", " operands

/-- A payload of limbs between braces, little-limb-first. -/
def asmPayload (W : Nat) (p : List Beat) : String :=
  String.singleton (Char.ofNat 0x7B)
    ++ String.intercalate ", " (p.map fun x => asmLimb (limbVal W x))
    ++ String.singleton (Char.ofNat 0x7D)

/-- The name of a control register (R50 to R56). -/
def Csr.name : Csr → String
  | .id => "ID"
  | .cfgW => "CFG_W"
  | .cfgLmax => "CFG_LMAX"
  | .cfgRmax => "CFG_RMAX"
  | .cfgScr => "CFG_SCR"
  | .cfgWmax => "CFG_WMAX"
  | .cfgNbn => "CFG_NBN"
  | .cfgNeng => "CFG_NENG"
  | .status => "STATUS"
  | .ctrl => "CTRL"
  | .cntCmd => "CNT_CMD"
  | .cntMul => "CNT_MUL"
  | .cntSqr => "CNT_SQR"
  | .cntRed => "CNT_RED"
  | .cntSel => "CNT_SEL"
  | .cntAdd => "CNT_ADD"

/-- A control register by name where it has one, else by number. -/
def asmCsr (csr : BitVec 8) : String :=
  match Csr.ofNum csr with
  | some c => c.name
  | none => asmImm csr.toNat

/-- The suffix of `BN_SET`: `.N` negative, `.S` secret, `.NS` both. -/
def asmSetSuffix (neg sec : Bool) : String :=
  match neg, sec with
  | false, false => ""
  | true, false => ".N"
  | false, true => ".S"
  | true, true => ".NS"

/-- A command in the notation of R104; a payload limb is read at limb width `W` (R92). -/
def asm (W : Nat) : Instr → String
  | .nop => asmLine "NOP" []
  | .csrRd csr => asmLine "CSR_RD" [asmCsr csr]
  | .csrWr csr imm => asmLine "CSR_WR" [asmCsr csr, asmImm imm.toNat]
  | .scrNeed sel modbits expbits =>
    asmLine "SCR_NEED" [asmImm sel.bits.toNat, asmImm modbits.toNat, asmImm expbits.toNat]
  | .bnCreate rd room => asmLine "BN_CREATE" [asmReg rd, asmImm room.toNat]
  | .bnSet rd neg sec payload => asmLine ("BN_SET" ++ asmSetSuffix neg sec) [asmReg rd, asmPayload W payload]
  | .bnGet ra => asmLine "BN_GET" [asmReg ra]
  | .bnCopy rd ra => asmLine "BN_COPY" [asmReg rd, asmReg ra]
  | .bnCmp ra rb => asmLine "BN_CMP" [asmReg ra, asmReg rb]
  | .bnAdd rd ra rb => asmLine "BN_ADD" [asmReg rd, asmReg ra, asmReg rb]
  | .bnSub rd ra rb => asmLine "BN_SUB" [asmReg rd, asmReg ra, asmReg rb]
  | .bnMul rd ra rb => asmLine "BN_MUL" [asmReg rd, asmReg ra, asmReg rb]
  | .bnMod rd ra rb => asmLine "BN_MOD" [asmReg rd, asmReg ra, asmReg rb]
  | .meCreate ed maxbits => asmLine "ME_CREATE" [asmEng ed, asmImm maxbits.toNat]
  | .meInit ed ra => asmLine "ME_INIT" [asmEng ed, asmReg ra]
  | .meGet ed sel => asmLine "ME_GET" [asmEng ed, asmImm sel.toNat]
  | .meEnc rd ra ed => asmLine "ME_ENC" [asmReg rd, asmReg ra, asmEng ed]
  | .meDec rd ra ed => asmLine "ME_DEC" [asmReg rd, asmReg ra, asmEng ed]
  | .meMul rd ra rb ed => asmLine "ME_MUL" [asmReg rd, asmReg ra, asmReg rb, asmEng ed]
  | .meSqr rd ra ed => asmLine "ME_SQR" [asmReg rd, asmReg ra, asmEng ed]
  | .meRed rd ra ed => asmLine "ME_RED" [asmReg rd, asmReg ra, asmEng ed]
  | .expBin rd ra rb ed => asmLine "EXP_BIN" [asmReg rd, asmReg ra, asmReg rb, asmEng ed]
  | .expCt rd ra rb ed => asmLine "EXP_CT" [asmReg rd, asmReg ra, asmReg rb, asmEng ed]
  | .expWin rd ra rb ed sbase slen =>
    asmLine "EXP_WIN" [asmReg rd, asmReg ra, asmReg rb, asmEng ed, asmImm sbase.toNat, asmImm slen.toNat]
  | .crtRecomb rd ra rb rc ed ee =>
    asmLine "CRT_RECOMB" [asmReg rd, asmReg ra, asmReg rb, asmReg rc, asmEng ed, asmEng ee]

end Sys2Proof.Machine
end

