-- ==== Sys2Proof/Tests/Slice0.lean ====
section
/-!
SUPPORT. Tests: ill-formed commands refused, decoding and single steps on the spec's own vectors (95_test_vectors.md), and a state meeting the hypotheses of every statement that has any.
-/

namespace Sys2Proof.Tests

open Sys2Proof Sys2Proof.Machine Sys2Proof.Claims

/-! ### Well-formedness: one ill-formed term for each check -/

theorem test_wf_refuses_undefined_csr_read : (Instr.csrRd 0x16).wf = false := by decide
theorem test_wf_refuses_gap_csr_read : (Instr.csrRd 0x0A).wf = false := by decide
theorem test_wf_refuses_read_only_csr_write : (Instr.csrWr 0x08 0).wf = false := by decide
theorem test_wf_refuses_engine_selector_5 : (Instr.meGet 0 5).wf = false := by decide
theorem test_wf_refuses_overlong_payload : (Instr.bnSet 0 false false (List.replicate 65536 0)).wf = false := by
  simp only [Instr.wf, List.length_replicate]
  decide
theorem test_wf_accepts_the_ends_of_each_range :
    (Instr.csrRd 0x00).wf = true ∧ (Instr.csrRd 0x15).wf = true ∧ (Instr.csrWr 0x09 1).wf = true ∧
      (Instr.meGet 3 4).wf = true := by decide

/-! ### Decoding: one word for each command, from section 2 of 95_test_vectors.md -/

theorem test_decode_nop : decodeTableWord 64 0x0000000000000000 = some .nop := by decide
theorem test_decode_csrRd : decodeTableWord 64 0x0111000000000000 = some (.csrRd 0x11) := by decide
theorem test_decode_csrWr : decodeTableWord 64 0x0210000012345678 = some (.csrWr 0x10 305419896) := by decide
theorem test_decode_scrNeed : decodeTableWord 64 0x0300000200200011 = some (.scrNeed .expWin 32 17) := by decide
theorem test_decode_bnCreate : decodeTableWord 64 0x10F0000000000009 = some (.bnCreate 15 9) := by decide
theorem test_decode_bnSet :
    decodeTableWord 192 0x00000000000000AB00000000000000CD11F0000300000002
      = some (.bnSet 15 true true [0xCD, 0xAB]) := by decide
theorem test_decode_bnGet : decodeTableWord 64 0x120F000000000000 = some (.bnGet 15) := by decide
theorem test_decode_bnCopy : decodeTableWord 64 0x13EF000000000000 = some (.bnCopy 14 15) := by decide
theorem test_decode_bnCmp : decodeTableWord 64 0x140EF00000000000 = some (.bnCmp 14 15) := by decide
theorem test_decode_bnAdd : decodeTableWord 64 0x15DEF00000000000 = some (.bnAdd 13 14 15) := by decide
theorem test_decode_bnSub : decodeTableWord 64 0x16DEF00000000000 = some (.bnSub 13 14 15) := by decide
theorem test_decode_bnMul : decodeTableWord 64 0x17DEF00000000000 = some (.bnMul 13 14 15) := by decide
theorem test_decode_bnMod : decodeTableWord 64 0x18DEF00000000000 = some (.bnMod 13 14 15) := by decide
theorem test_decode_meCreate : decodeTableWord 64 0x200000C000000020 = some (.meCreate 3 32) := by decide
theorem test_decode_meInit : decodeTableWord 64 0x210F00C000000000 = some (.meInit 3 15) := by decide
theorem test_decode_meGet : decodeTableWord 64 0x220000C400000000 = some (.meGet 3 4) := by decide
theorem test_decode_meEnc : decodeTableWord 64 0x231200C000000000 = some (.meEnc 1 2 3) := by decide
theorem test_decode_meDec : decodeTableWord 64 0x241200C000000000 = some (.meDec 1 2 3) := by decide
theorem test_decode_meMul : decodeTableWord 64 0x251230C000000000 = some (.meMul 1 2 3 3) := by decide
theorem test_decode_meSqr : decodeTableWord 64 0x261200C000000000 = some (.meSqr 1 2 3) := by decide
theorem test_decode_meRed : decodeTableWord 64 0x271200C000000000 = some (.meRed 1 2 3) := by decide
theorem test_decode_expBin : decodeTableWord 64 0x3012308000000000 = some (.expBin 1 2 3 2) := by decide
theorem test_decode_expCt : decodeTableWord 64 0x3112304000000000 = some (.expCt 1 2 3 1) := by decide
theorem test_decode_expWin : decodeTableWord 64 0x321230C001000200 = some (.expWin 1 2 3 3 256 512) := by decide
theorem test_decode_crtRecomb : decodeTableWord 64 0x4052341000000000 = some (.crtRecomb 5 2 3 4 0 1) := by decide

/-- The refused headers of the same section: the reserved fields and the undefined opcodes. -/
theorem test_decode_refuses :
    ([0x0000000000000001, 0x0400000000000000, 0x1900000000000000, 0xFF00000000000000, 0x1210000000000000,
      0x1100000400000000, 0x0300000400080004, 0x2000001000000008, 0x3031210000000000].map
        (decodeTableWord 64)) = List.replicate 9 none := by decide

/-- The table the statements quote is the one the decoder reads. -/
theorem test_rows_are_the_decoders : opcodeRows = Op.all.map fun o => (o, o.pattern, o.mask) := by decide

/-! ### A small state: two READY engines, one CREATED, and operands -/

def num (room : BitVec 16) (mag : Nat) : BigNum := ⟨room, false, false, mag⟩

/-- The engine of R158's example, with its constants as the rule gives them. -/
def eng239 : Modulus := ⟨239, 8, 1, 17, 50, 0xF1⟩
/-- `Q = 251` of R211's example: `256 mod 251 = 5`, `25`, and `251 · 205 = 201·256 − 1`. -/
def eng251 : Modulus := ⟨251, 8, 1, 5, 25, 205⟩

/-- Registers r0 to r14 are VALID and r15 is not; e0 and e1 are READY, e2 is CREATED, e3 is not constructed. -/
def sample : State :=
  { State.reset with
    bn := #v[.valid (num 1 239), .valid (num 9 100), .valid (num 2 13), .valid (num 9 0),
             .valid ⟨2, false, true, 13⟩, .valid (num 2 0), .valid (num 2 156), .valid (num 2 46),
             .valid (num 2 20), .valid ⟨9, true, false, 7⟩, .valid (num 1 5), .valid (num 1 0),
             .valid (num 2 510), .valid (num 2 0xEEFF), .valid (num 1 142), .none]
    me := #v[.ready ⟨8, 0⟩ eng239, .ready ⟨8, 0⟩ eng251, .created ⟨8, 0⟩, .none] }

theorem test_sample_constants : eng239 = modulusOf 8 239 ∧ eng251 = modulusOf 8 251 := by decide

theorem sample_inv : sample.Inv := by
  refine ⟨⟨by decide, by decide, by decide, by decide, by decide, by decide, fun n => ?_⟩, fun r => ?_, fun k => ?_,
    ⟨rfl, by intro x hx; cases hx⟩, ⟨0, .ok, by decide, by decide⟩, by intro r hr; cases hr⟩
  · show max 1 (min _ 6) ≤ 15
    omega
  · have h : ∀ r : BnIdx, (match sample.bnAt r with
        | .none => true
        | .valid b => decide (1 ≤ b.room.toNat ∧ b.room.toNat ≤ 9 ∧ sig 8 b.mag ≤ b.room.toNat ∧
            (b.mag = 0 → b.neg = false))) = true := by decide
    have h := h r
    split at h
    · next e => rw [e]; trivial
    · next b e => rw [e]; have h' := of_decide_eq_true h; exact h'
  · have h : sample.meAt k = .none ∨ sample.meAt k = .created ⟨8, 0⟩ ∨ sample.meAt k = .ready ⟨8, 0⟩ eng239 ∨
        sample.meAt k = .ready ⟨8, 0⟩ eng251 := by revert k; decide
    have hc : EngineCfg.Wf sample.cfg ⟨8, 0⟩ := ⟨by decide, by decide, by decide⟩
    rcases h with h | h | h | h <;> rw [h]
    · trivial
    · exact hc
    · exact ⟨hc, by decide, by decide, by decide⟩
    · exact ⟨hc, by decide, by decide, by decide⟩

/-! ### What a step answers -/

/-- Status, value and payload of the last response. -/
def answer : Outcome → Option (Status × BitVec 64 × Limbs)
  | .next s => s.respStream.getLast?.map fun r => (r.status, r.val, r.payload)
  | .fault _ => none
  | .refused _ => none

/-- The signed value of a register after a step. -/
def valueAfter (r : BnIdx) : Outcome → Option Int
  | .next s => match s.bnAt r with
    | .valid b => some b.value
    | .none => none
  | .fault _ => none
  | .refused _ => none

/-- The counters CMD, MUL, SQR, RED, SEL, ADD after a step, and the trace. -/
def countsAfter : Outcome → Option (Counters × List KEvent)
  | .next s => some (s.cnt, s.trace)
  | .fault _ => none
  | .refused _ => none

/-! ### One step on the spec's vectors (sections 3.1 to 3.6 of 95_test_vectors.md, and the rules' own examples) -/

theorem test_nop : answer (exec .nop sample) = some (.ok, 0, []) := by decide
theorem test_csrRd_id_and_undefined :
    answer (exec (.csrRd 0x00) sample) = some (.ok, 0x130007, []) ∧
      answer (exec (.csrRd 0x16) sample) = some (.illegalCommand, 0, []) := by decide
/-- Two `CSR_RD STATUS` in a row: the second returns `0x0100` (R226). -/
theorem test_csrRd_status_is_the_one_before :
    answer (exec (.csrRd 0x08) { sample with status := 0x1201 }) = some (.ok, 0x1201, []) := by decide
theorem test_csrWr_counter :
    (countsAfter (exec (.csrWr 0x10 4294967295) sample)).map (·.1.cmd) = some 4294967295 := by decide
theorem test_csrWr_soft_reset : valueAfter 0 (exec (.csrWr 0x09 1) sample) = none := by decide
theorem test_scrNeed : answer (exec (.scrNeed .expWin 32 42) sample) = some (.ok, 0x10, []) := by decide
theorem test_scrNeed_too_wide : answer (exec (.scrNeed .expWin 33 42) sample) = some (.badArgument, 0, []) := by decide
theorem test_bnCreate_again : valueAfter 1 (exec (.bnCreate 1 1) sample) = some 0 := by decide
theorem test_bnCreate_over_rmax : answer (exec (.bnCreate 1 10) sample) = some (.badArgument, 0, []) := by decide
theorem test_bnSet_drops_leading_zeros :
    valueAfter 5 (exec (.bnSet 5 false false [0x34, 0x12, 0x00]) sample) = some 0x1234 := by decide
theorem test_bnSet_no_negative_zero :
    (match exec (.bnSet 5 true false [0]) sample with
      | .next s => s.bnAt 5 | .fault _ => .none | .refused _ => .none) = .valid (num 2 0) := by decide
theorem test_bnGet_negative :
    answer (exec (.bnGet 9) sample) = some (.ok, 0x8000000000090001, [0x07]) := by decide
theorem test_bnGet_secret :
    answer (exec (.bnGet 4) sample) = some (.ok, 0x4000000000020001, [0x0D]) := by decide
theorem test_bnCopy_sign : valueAfter 3 (exec (.bnCopy 3 9) sample) = some (-7) := by decide
theorem test_bnCopy_too_wide : answer (exec (.bnCopy 11 12) sample) = some (.sizeError, 0, []) := by decide
/-- Magnitudes only: −7 against 5 is greater, as R125's −5 against +3. -/
theorem test_bnCmp_ignores_sign : answer (exec (.bnCmp 9 10) sample) = some (.ok, 1, []) := by decide
theorem test_bnCmp_less : answer (exec (.bnCmp 10 9) sample) = some (.ok, 0xFFFFFFFFFFFFFFFF, []) := by decide
theorem test_bnAdd_alias_doubles : valueAfter 1 (exec (.bnAdd 1 1 1) sample) = some 200 := by decide
/-- 239 + 142 = 381 needs two limbs and `room(r0)` is 1. -/
theorem test_bnAdd_carry_does_not_fit : answer (exec (.bnAdd 0 0 14) sample) = some (.sizeError, 0, []) := by decide
theorem test_bnSub_borrows_to_negative : valueAfter 3 (exec (.bnSub 3 10 9) sample) = some 12 := by decide
theorem test_bnSub_negative : valueAfter 3 (exec (.bnSub 3 10 1) sample) = some (-95) := by decide
theorem test_bnMul_sign : valueAfter 3 (exec (.bnMul 3 9 10) sample) = some (-35) := by decide
theorem test_bnMul_room_is_the_sum : answer (exec (.bnMul 11 10 10) sample) = some (.sizeError, 0, []) := by decide
/-- R129's example: −7 mod 5 = 3. -/
theorem test_bnMod_is_floor : valueAfter 3 (exec (.bnMod 3 9 10) sample) = some 3 := by decide
theorem test_bnMod_negative_divisor : answer (exec (.bnMod 3 10 9) sample) = some (.outOfRange, 0, []) := by decide
theorem test_meCreate_discards_the_modulus :
    answer (exec (.meCreate 0 32) sample) = some (.ok, 0, []) := by decide
theorem test_meCreate_too_wide : answer (exec (.meCreate 0 33) sample) = some (.badArgument, 0, []) := by decide
theorem test_meInit_constants :
    (match exec (.meInit 2 0) sample with
      | .next s => s.meAt 2 | .fault _ => .none | .refused _ => .none) = .ready ⟨8, 0⟩ eng239 := by decide
theorem test_meInit_wider_than_maxbits : answer (exec (.meInit 2 13) sample) = some (.outOfRange, 0, []) := by decide
theorem test_meGet_n0 : answer (exec (.meGet 0 4) sample) = some (.ok, 0x8000000000080008, [0xF1]) := by decide
theorem test_meGet_created : answer (exec (.meGet 2 0) sample) = some (.ok, 0x4000000000080000, []) := by decide
theorem test_meEnc : valueAfter 3 (exec (.meEnc 3 1 0) sample) = some 27 := by decide
theorem test_meEnc_operand_is_M : answer (exec (.meEnc 3 0 0) sample) = some (.outOfRange, 0, []) := by decide
theorem test_meDec : valueAfter 3 (exec (.meDec 3 14 0) sample) = some 163 := by decide
/-- Mixed domains: 100 outside and `Enc(200) = 54` inside give 163 = 100·200 mod 239. -/
theorem test_meMul_mixed_domain :
    valueAfter 3 (exec (.meMul 3 1 5 0) (sample.setBn 5 (.valid (num 2 54)))) = some 163 := by decide
theorem test_meSqr : valueAfter 3 (exec (.meSqr 3 5 0) (sample.setBn 5 (.valid (num 2 27)))) = some 71 := by decide
/-- The largest legal `T`, 239·256 − 1, and the least that is out of range. -/
theorem test_meRed_largest : valueAfter 3 (exec (.meRed 3 13 0) sample) = some 14 := by decide
theorem test_meRed_out_of_range :
    answer (exec (.meRed 3 13 0) (sample.setBn 13 (.valid (num 2 0xEF00)))) = some (.outOfRange, 0, []) := by decide
theorem test_expBin_value : valueAfter 3 (exec (.expBin 3 1 2 0) sample) = some 98 := by decide
theorem test_expBin_trace :
    countsAfter (exec (.expBin 3 1 2 0) sample) =
      some (⟨1, 4, 4, 1, 0, 0⟩, [.mul, .sqr, .mul, .sqr, .mul, .sqr, .sqr, .mul, .red]) := by decide
theorem test_expCt_value : valueAfter 3 (exec (.expCt 3 1 4 0) sample) = some 98 := by decide
theorem test_expCt_counts :
    (countsAfter (exec (.expCt 3 1 2 0) sample)).map (·.1) = some ⟨1, 5, 4, 1, 4, 0⟩ := by decide
/-- R185's example, with `cfg.wtab = const 2`. -/
theorem test_expWin_value :
    valueAfter 3 (exec (.expWin 3 1 2 0 16 48)
      { sample with cfg := { sample.cfg with wtab := Config.constTable 2 } }) = some 98 := by decide
theorem test_expWin_trace :
    countsAfter (exec (.expWin 3 1 2 0 16 48)
      { sample with cfg := { sample.cfg with wtab := Config.constTable 2 } }) =
      some (⟨1, 5, 4, 1, 2, 0⟩,
        [.mul, .mul, .mul, .sqr, .sqr, .sel 4, .mul, .sqr, .sqr, .sel 4, .mul, .red]) := by decide
/-- R211's example 1: 12345. -/
theorem test_crtRecomb : valueAfter 5 (exec (.crtRecomb 5 6 7 8 0 1) sample) = some 12345 := by decide
/-- R211's example 2: the engines exchanged, `xp = 46 < xq = 156`, `qInv = 230`; the subtraction borrows. -/
theorem test_crtRecomb_borrow :
    valueAfter 5 (exec (.crtRecomb 5 7 6 8 1 0) (sample.setBn 8 (.valid (num 2 230)))) = some 12345 := by decide

/-- The passes of R211's pseudocode, in its order, at `LP = LQ = 1`. -/
theorem test_crtRecomb_passes :
    (match exec (.crtRecomb 5 6 7 8 0 1) sample with
      | .next s => s.limbTrace | .fault _ => [] | .refused _ => []) =
      [.rem 1 1, .adder 1, .adder 1, .kernel 0 .mul 1, .kernel 0 .mul 1, .mul 1 1, .adder 2] := by decide
/-- R130: opposite effective signs compare, then subtract: here 5 − (−7) adds, 5 − 100 compares first. -/
theorem test_bnSub_passes :
    ((match exec (.bnSub 3 10 9) sample with | .next s => s.limbTrace | .fault _ => [] | .refused _ => []),
      (match exec (.bnSub 3 10 1) sample with | .next s => s.limbTrace | .fault _ => [] | .refused _ => [])) =
      ([.adder 1], [.cmp 1, .adder 1]) := by decide

/-- A header placed for the next step is run by it and consumed. -/
theorem test_step_runs_the_placed_word :
    answer (step (State.reset.withFetchWord 64 0x0100000000000000)) = some (.ok, 0x130007, []) := by decide
theorem test_step_illegal_status :
    (match step (State.reset.withFetchWord 64 0x1900000000000000) with
      | .next s => s.status | .fault _ => 0 | .refused _ => 0) = 0x1908 := by decide

/-! ### Witnesses: for each statement with hypotheses, values that meet them together, at the ends of each clause's range -/

theorem witness_EncodeThenDecodeGivesTheCommandBack :
    Instr.nop.encodable = true ∧ (Instr.bnSet 15 true true (List.replicate 65535 0)).encodable = true := by
  refine ⟨by decide, ?_⟩
  simp only [Instr.encodable, Instr.payload, List.length_replicate]
  decide

theorem witness_DecodeThenEncodeGivesTheBeatsBack :
    ([5] : List Beat).length = payloadCount 0x11F0000300000001 ∧
      decode 0x11F0000300000001 [5] = .ok (.bnSet 15 true true [5]) := ⟨by decide, rfl⟩

theorem no_row (h : Beat) (hh : ∀ r ∈ opcodeRows, h &&& r.2.2 ≠ r.2.1) :
    ∀ o mt mk, (o, mt, mk) ∈ opcodeRows → h &&& mk ≠ mt := fun _ _ _ hm => hh _ hm

theorem witness_HeaderSelectsTheCommandOfItsRow :
    (Op.nop, 0x0000000000000000, 0xFFFFFFFFFFFFFFFF) ∈ opcodeRows ∧
    (Op.crtRecomb, 0x4000000000000000, 0xFF00000FFFFFFFFF) ∈ opcodeRows ∧
    ∀ o mt mk, (o, mt, mk) ∈ opcodeRows → (0x0000000000000001 : Beat) &&& mk ≠ mt :=
  ⟨by decide, by decide, no_row _ (by decide)⟩

theorem witness_LengthIsDecidedByTheHeader :
    (0x1200000000000005 : Beat).extractLsb' 56 8 ≠ 0x11#8 ∧
    ((0x1100000000000000 : Beat).extractLsb' 56 8 = 0x11#8 ∧
      ([] : List Beat).length = ((0x1100000000000000 : Beat).extractLsb' 0 16).toNat) ∧
    ((0x110000000000FFFF : Beat).extractLsb' 56 8 = 0x11#8 ∧
      (List.replicate 65535 (0 : Beat)).length = ((0x110000000000FFFF : Beat).extractLsb' 0 16).toNat) ∧
    ({ sample with cmdStream := [0x1100000000000001, 7, 0] }.cmdStream = 0x1100000000000001 :: ([7] ++ [0]) ∧
      ([7] : List Beat).length = (if (0x1100000000000001 : Beat).extractLsb' 56 8 = 0x11#8
        then ((0x1100000000000001 : Beat).extractLsb' 0 16).toNat else 0)) := by
  refine ⟨by decide, by decide, ⟨by decide, ?_⟩, rfl, by decide⟩
  simp only [List.length_replicate]
  decide

theorem witness_StepRunsTheDecodedCommand :
    (Instr.bnAdd 1 1 1).encodable = true ∧
      { sample with cmdStream := [0x1511100000000000, 9] }.cmdStream = encode (.bnAdd 1 1 1) ++ [9] := by decide

/-- One beat with an undefined opcode; and a `BN_SET` with a reserved bit set, whose payload is consumed. -/
theorem witness_UnmatchedHeaderIsIllegal :
    ({ sample with cmdStream := [0x0400000000000000, 9] }.cmdStream = 0x0400000000000000 :: ([] ++ [9]) ∧
      ([] : List Beat).length = (if (0x0400000000000000 : Beat).extractLsb' 56 8 = 0x11#8
        then ((0x0400000000000000 : Beat).extractLsb' 0 16).toNat else 0) ∧
      ∀ o mt mk, (o, mt, mk) ∈ opcodeRows → (0x0400000000000000 : Beat) &&& mk ≠ mt) ∧
    ({ sample with cmdStream := [0x1100000400000001, 7, 9] }.cmdStream = 0x1100000400000001 :: ([7] ++ [9]) ∧
      ([7] : List Beat).length = (if (0x1100000400000001 : Beat).extractLsb' 56 8 = 0x11#8
        then ((0x1100000400000001 : Beat).extractLsb' 0 16).toNat else 0) ∧
      ∀ o mt mk, (o, mt, mk) ∈ opcodeRows → (0x1100000400000001 : Beat) &&& mk ≠ mt) :=
  ⟨⟨rfl, by decide, no_row _ (by decide)⟩, rfl, by decide, no_row _ (by decide)⟩

theorem witness_WaitsForAWholeCommand :
    sample.cmdStream = [] ∧
    { sample with cmdStream := [0x1100000000000001] }.cmdStream = 0x1100000000000001 :: [] ∧
      ([] : List Beat).length < payloadCount 0x1100000000000001 := by decide

theorem witness_ResponseBeatsFollowTheLayout :
    (∃ t, exec .nop sample = .next t ∧ t.respStream = sample.respStream ++ [⟨.ok, 0x00, 0, []⟩]) ∧
    (∃ t, exec (.bnGet 15) sample = .next t ∧
      t.respStream = sample.respStream ++ [⟨.contextMismatch, 0x12, 0, []⟩]) ∧
    1 ≤ 1 ∧ 1 ≤ 64 ∧ 64 ≤ 64 ∧ (⟨.ok, 0x12, 0, List.replicate 65535 0⟩ : Response).payload.length < 65536 := by
  refine ⟨⟨_, rfl, rfl⟩, ⟨_, rfl, by decide⟩, by decide, by decide, by decide, ?_⟩
  simp only [List.length_replicate]
  decide

theorem witness_ResetMeetsTheInvariant : CfgLegal Config.tiny := sample_inv.cfg_legal

theorem witness_NopOnlyWritesStatus :
    (0x0000000000000001 : Beat).extractLsb' 56 8 = 0x00#8 ∧ (0x0000000000000001 : Beat) ≠ 0 ∧
      { sample with cmdStream := [0x0000000000000001] }.cmdStream = 0x0000000000000001 :: [] := by decide

theorem witness_CsrReadAnswersTheRegister :
    (0x00, 0x0000000000130007) ∈ csrView sample ∧ (0x15, sample.cnt.add) ∈ csrView sample ∧
    0x0A ∉ (csrView sample).map Prod.fst ∧ 0x0F ∉ (csrView sample).map Prod.fst ∧
    0x16 ∉ (csrView sample).map Prod.fst ∧ 0xFF ∉ (csrView sample).map Prod.fst := by decide

theorem witness_CsrWriteSetsTheRegister :
    ((0x10, { sample.cnt with cmd := 7 }) : BitVec 8 × Counters) ∈
      ([(0x10, { sample.cnt with cmd := BitVec.ofNat 64 (7 : BitVec 32).toNat })] : List (BitVec 8 × Counters)) ∧
    (0xFFFFFFFE : BitVec 32).getLsbD 0 = false ∧ (1 : BitVec 32).getLsbD 0 = true ∧
    ∀ n ∈ ([0x00, 0x08, 0x0A, 0x0F, 0x16, 0xFF] : List (BitVec 8)),
      ¬(n = 0x09 ∨ 0x10 ≤ n.toNat ∧ n.toNat ≤ 0x15) := by decide

theorem witness_SoftResetDestroysEveryContext : (1 : BitVec 32).getLsbD 0 = true := by decide

theorem witness_ScrNeedIsThePureSizingFunction :
    ((0x0300000400080004 : Beat).extractLsb' 56 8 = 0x03#8 ∧
      3 < ((0x0300000400080004 : Beat).extractLsb' 32 4).toNat ∧
      { sample with cmdStream := [0x0300000400080004] }.cmdStream = 0x0300000400080004 :: []) ∧
    (0 : BitVec 16).toNat = 0 ∧ sample.cfg.LMAX * sample.cfg.W < (33 : BitVec 16).toNat ∧
    1 ≤ (1 : BitVec 16).toNat ∧ (32 : BitVec 16).toNat ≤ sample.cfg.LMAX * sample.cfg.W := by decide

theorem witness_BnCreateConstructsZero :
    (0 : BitVec 16).toNat = 0 ∧ sample.cfg.RMAX < (10 : BitVec 16).toNat ∧
    1 ≤ (1 : BitVec 16).toNat ∧ (1 : BitVec 16).toNat ≤ sample.cfg.RMAX ∧
    (9 : BitVec 16).toNat ≤ sample.cfg.RMAX := by decide

theorem witness_BnSetLoadsThePayload :
    sample.bnAt 15 = .none ∧ sample.bnAt 5 = .valid (num 2 0) ∧
    (num 2 0).room.toNat < sig sample.cfg.W (limbsVal sample.cfg.W [0, 0, 1]) ∧
    sig sample.cfg.W (limbsVal sample.cfg.W [0xFF, 0xFF, 0]) ≤ (num 2 0).room.toNat := by decide

theorem witness_LimbVectorsHaveUniqueValues :
    1 ≤ 1 ∧ 64 ≤ 64 ∧ 0 < 2 ^ (1 * 0) ∧ 2 ^ 4 - 1 < 2 ^ (2 * 2) ∧ ([3, 3] : Limbs).length = 2 ∧
      (∀ y ∈ ([3, 3] : Limbs), y.toNat < 2 ^ 2) ∧ limbsVal 2 [3, 3] = 2 ^ 4 - 1 :=
  ⟨by decide, by decide, by decide, by decide, rfl, by simp, by decide⟩

theorem witness_BnGetReportsTheRegister :
    sample.bnAt 15 = .none ∧ sample.Inv ∧ sample.bnAt 9 = .valid ⟨9, true, false, 7⟩ :=
  ⟨by decide, sample_inv, by decide⟩

theorem witness_BnCopyCopiesValueSignAndSecrecy :
    sample.bnAt 15 = .none ∧ sample.bnAt 11 = .valid (num 1 0) ∧ sample.bnAt 12 = .valid (num 2 510) ∧
    sample.bnAt 0 = .valid (num 1 239) ∧
    (num 1 0).room.toNat < sig sample.cfg.W (num 2 510).mag ∧
    sig sample.cfg.W (num 1 239).mag ≤ (num 1 0).room.toNat := by decide

theorem witness_BnCmpComparesMagnitudes :
    sample.bnAt 15 = .none ∧ sample.bnAt 9 = .valid ⟨9, true, false, 7⟩ ∧ sample.bnAt 10 = .valid (num 1 5) := by decide

/-- `BN_ADD` with a sum of 381 into one limb, and `BN_SUB` with a difference of 97 into the same. -/
theorem witness_BnAddAndSubAreExact :
    ((Instr.bnAdd 0 0 14 = .bnAdd 0 0 14 ∧ (0x15 : BitVec 8) = 0x15 ∧
      ((· + ·) : Int → Int → Int) = (· + ·)) ∧
      sample.bnAt 0 = .valid (num 1 239) ∧ sample.bnAt 14 = .valid (num 1 142) ∧ sample.bnAt 15 = .none ∧
      (num 1 239).room.toNat < sig sample.cfg.W ((num 1 239).value + (num 1 142).value).natAbs) ∧
    sig sample.cfg.W ((num 1 239).value - (num 1 142).value).natAbs ≤ (num 1 239).room.toNat :=
  ⟨⟨⟨rfl, rfl, rfl⟩, by decide⟩, by decide⟩

theorem witness_BnMulIsTheSignedProduct :
    sample.bnAt 15 = .none ∧ sample.bnAt 11 = .valid (num 1 0) ∧ sample.bnAt 10 = .valid (num 1 5) ∧
    sample.bnAt 5 = .valid (num 2 0) ∧
    (num 1 0).room.toNat < sig sample.cfg.W (num 1 5).mag + sig sample.cfg.W (num 1 5).mag ∧
    sig sample.cfg.W (num 1 5).mag + sig sample.cfg.W (num 1 5).mag ≤ (num 2 0).room.toNat := by decide

theorem witness_BnModIsTheFloorResidue :
    sample.bnAt 15 = .none ∧ sample.bnAt 5 = .valid (num 2 0) ∧ sample.bnAt 11 = .valid (num 1 0) ∧
    sample.bnAt 9 = .valid ⟨9, true, false, 7⟩ ∧ sample.bnAt 12 = .valid (num 2 510) ∧
    (num 2 0).mag = 0 ∧ (⟨9, true, false, 7⟩ : BigNum).mag ≠ 0 ∧ (⟨9, true, false, 7⟩ : BigNum).neg = true ∧
    (num 2 510).mag ≠ 0 ∧ (num 2 510).neg = false ∧ (num 1 0).room.toNat < sig sample.cfg.W (num 2 510).mag ∧
    sig sample.cfg.W (num 2 510).mag ≤ (num 2 0).room.toNat := by decide

theorem witness_AdderUnitGivesTheExactSignedSum : 1 ≤ 1 ∧ 1 ≤ 64 ∧ 64 ≤ 64 := by decide

theorem witness_ValidRegistersStayNormalised :
    sample.Inv ∧ step sample = .next sample ∧ sample.bnAt 13 = .valid (num 2 0xEEFF) :=
  ⟨sample_inv, rfl, by decide⟩

theorem witness_MeCreateConstructsAnEngine :
    (0 : BitVec 16).toNat = 0 ∧ sample.cfg.LMAX * sample.cfg.W < (33 : BitVec 16).toNat ∧
    1 ≤ (1 : BitVec 16).toNat ∧ (1 : BitVec 16).toNat ≤ sample.cfg.LMAX * sample.cfg.W ∧
    (32 : BitVec 16).toNat ≤ sample.cfg.LMAX * sample.cfg.W := by decide

theorem witness_MeInitBindsTheModulus :
    1 ≤ sample.cfg.W ∧ sample.bnAt 15 = .none ∧ sample.meAt 3 = .none ∧ sample.meAt 2 = .created ⟨8, 0⟩ ∧
    sample.meAt 0 = .ready ⟨8, 0⟩ eng239 ∧
    sample.bnAt 9 = .valid ⟨9, true, false, 7⟩ ∧ sample.bnAt 5 = .valid (num 2 0) ∧ (num 2 0).mag % 2 = 0 ∧
    sample.bnAt 13 = .valid (num 2 0xEEFF) ∧ (num 2 0xEEFF).neg = false ∧ (num 2 0xEEFF).mag % 2 = 1 ∧
    (8 : BitVec 16).toNat < bitlen (num 2 0xEEFF).mag ∧
    sample.bnAt 0 = .valid (num 1 239) ∧ (num 1 239).neg = false ∧ (num 1 239).mag % 2 = 1 ∧
    bitlen (num 1 239).mag ≤ (8 : BitVec 16).toNat := by decide

theorem witness_MeGetReportsTheEngine :
    4 < (5 : BitVec 4).toNat ∧ (4 : BitVec 4).toNat ≤ 4 ∧ sample.meAt 3 = .none ∧
    sample.meAt 2 = .created ⟨8, 0⟩ ∧ 1 ≤ (1 : BitVec 4).toNat ∧ sample.meAt 0 = .ready ⟨8, 0⟩ eng239 ∧
    ((4 : BitVec 4), ([0xF1] : Limbs)) ∈
      ([(0, []), (1, limbsOf sample.cfg.W eng239.L.toNat eng239.M), (4, limbsOf sample.cfg.W 1 eng239.n0)]
        : List (BitVec 4 × Limbs)) := by decide

/-- Each of the five forms, `ME_RED` at the largest operand it takes. -/
theorem witness_MontgomeryCommandsComputeTheirKernel :
    sample.Inv ∧ sample.bnAt 3 = .valid (num 9 0) ∧ sample.meAt 0 = .ready ⟨8, 0⟩ eng239 ∧
    eng239.L.toNat ≤ (num 9 0).room.toNat ∧ (Instr.meEnc 3 1 0) ∈ [Instr.meEnc 3 1 0] ∧
    MontCommand sample eng239 3 0 (.meEnc 3 1 0) 0x23 .mul (100 * 50) false ∧
    MontCommand sample eng239 3 0 (.meDec 3 14 0) 0x24 .red 142 false ∧
    MontCommand sample eng239 3 0 (.meMul 3 1 4 0) 0x25 .mul (100 * 13) true ∧
    MontCommand sample eng239 3 0 (.meSqr 3 5 0) 0x26 .sqr (0 * 0) false ∧
    MontCommand sample eng239 3 0 (.meRed 3 13 0) 0x27 .red 0xEEFF false :=
  ⟨sample_inv, by decide, by decide, by decide, by decide,
    .enc 1 (num 9 100) (by decide) rfl (by decide), .dec 14 (num 1 142) (by decide) rfl (by decide),
    .mul 1 4 (num 9 100) ⟨2, false, true, 13⟩ (by decide) (by decide) rfl (by decide) rfl (by decide),
    .sqr 5 (num 2 0) (by decide) rfl (by decide), .red 13 (num 2 0xEEFF) (by decide) rfl (by decide)⟩

theorem witness_KernelLawsOfAReadyEngine :
    sample.Inv ∧ sample.meAt 0 = .ready ⟨8, 0⟩ eng239 ∧ 238 < eng239.M ∧ 0 < eng239.M :=
  ⟨sample_inv, by decide⟩

/-- The destination is the first source too, as R107 allows. -/
theorem witness_MontMulmodGivesTheOrdinaryProduct :
    sample.Inv ∧ sample.bnAt 1 = .valid (num 9 100) ∧ sample.bnAt 4 = .valid ⟨2, false, true, 13⟩ ∧
    sample.bnAt 3 = .valid (num 9 0) ∧ sample.meAt 0 = .ready ⟨8, 0⟩ eng239 ∧
    (3 : BnIdx) ≠ 1 ∧ (3 : BnIdx) ≠ 4 ∧ (num 9 100).neg = false ∧ (num 9 100).mag < eng239.M ∧
    (⟨2, false, true, 13⟩ : BigNum).mag < eng239.M ∧ eng239.L.toNat ≤ (num 9 100).room.toNat ∧
    eng239.L.toNat ≤ (num 9 0).room.toNat := ⟨sample_inv, by decide⟩

/-- The base 100, the exponent 13, and the modulus 239 of R185's example. -/
theorem sample_expReady : ExpReady sample 3 1 2 0 (num 9 0) (num 9 100) (num 2 13) eng239 :=
  ⟨by decide, by decide, by decide, ⟨⟨8, 0⟩, by decide⟩, rfl, by decide, by decide⟩

/-- The same with the exponent marked secret, and into a register of the least room. -/
theorem sample_expReady_secret :
    ExpReady sample 11 1 4 0 (num 1 0) (num 9 100) ⟨2, false, true, 13⟩ eng239 :=
  ⟨by decide, by decide, by decide, ⟨⟨8, 0⟩, by decide⟩, rfl, by decide, by decide⟩

/-- The window needs two limbs here: one at each end of `SCR`, both exactly as long as needed. -/
theorem sample_windowFits :
    WindowFits sample (num 2 13) eng239 0 2 ∧ WindowFits sample (num 2 13) eng239 62 2 := by
  unfold WindowFits
  decide

theorem witness_SecrecyDecidesWhichMethodIsLegal :
    (sample.bnAt 3 = .valid (num 9 0) ∧ sample.bnAt 1 = .valid (num 9 100) ∧
      sample.bnAt 4 = .valid ⟨2, false, true, 13⟩ ∧ sample.meAt 0 = .ready ⟨8, 0⟩ eng239 ∧
      (⟨2, false, true, 13⟩ : BigNum).sec = true) ∧
    ExpReady sample 3 1 2 0 (num 9 0) (num 9 100) (num 2 13) eng239 ∧ (num 2 13).sec = false ∧
    WindowFits sample (num 2 13) eng239 62 2 :=
  ⟨by decide, sample_expReady, rfl, sample_windowFits.2⟩

theorem witness_ExpBinIsTheBinaryMethod :
    sample.Inv ∧ ExpReady sample 3 1 2 0 (num 9 0) (num 9 100) (num 2 13) eng239 ∧ (num 2 13).sec = false ∧
    1 ≤ (num 9 100).mag ∧ 1 ≤ (num 2 13).mag := ⟨sample_inv, sample_expReady, rfl, by decide, by decide⟩

theorem witness_ExpCtIsTheConstantTimeMethod :
    sample.Inv ∧ ExpReady sample 11 1 4 0 (num 1 0) (num 9 100) ⟨2, false, true, 13⟩ eng239 ∧
    1 ≤ (num 9 100).mag ∧ 1 ≤ (⟨2, false, true, 13⟩ : BigNum).mag :=
  ⟨sample_inv, sample_expReady_secret, by decide, by decide⟩

theorem witness_ExpWinIsTheWindowedMethod :
    sample.Inv ∧ ExpReady sample 3 1 2 0 (num 9 0) (num 9 100) (num 2 13) eng239 ∧
    WindowFits sample (num 2 13) eng239 62 2 ∧ 1 ≤ (num 9 100).mag ∧ 1 ≤ (num 2 13).mag ∧
    1 = wsel sample.cfg (bitlen (num 2 13).mag) ∧ 4 = (bitlen (num 2 13).mag + 1 - 1) / 1 :=
  ⟨sample_inv, sample_expReady, sample_windowFits.2, by decide, by decide, by decide, by decide⟩

theorem witness_ExpWinSweepsTheWholeTable :
    ExpReady sample 3 1 2 0 (num 9 0) (num 9 100) (num 2 13) eng239 ∧ WindowFits sample (num 2 13) eng239 0 2 ∧
    1 ≤ (num 9 100).mag ∧ 1 ≤ (num 2 13).mag ∧ 1 = wsel sample.cfg (bitlen (num 2 13).mag) ∧
    2 = 2 ^ 1 * eng239.L.toNat :=
  ⟨sample_expReady, sample_windowFits.1, by decide, by decide, by decide, by decide⟩

theorem witness_LookupReturnsTheEntry :
    1 ≤ 8 ∧ 8 ≤ 64 ∧ 3 < 2 ^ 2 ∧ ([17, 27, 0, 0xFFFF] : List Nat).length = 2 ^ 2 ∧
    (∀ x ∈ ([17, 27, 0, 0xFFFF] : List Nat), x < 2 ^ (8 * 2)) ∧ Memory.wf [(0, 1), (63, 0xFF)] = true :=
  ⟨by omega, by omega, by omega, rfl, by norm_num, by decide⟩

theorem witness_MaskedSelectIsSelect :
    1 ≤ 2 ∧ 2 ≤ 64 ∧ ([3, 0] : Limbs).length = ([1, 2] : Limbs).length ∧
    (∀ x ∈ ([3, 0] : Limbs), x.toNat < 2 ^ 2) ∧ (∀ x ∈ ([1, 2] : Limbs), x.toNat < 2 ^ 2) :=
  ⟨by decide, by decide, rfl, by simp, by simp⟩

/-- A zero exponent, a zero base, and neither. -/
theorem witness_TheThreeMethodsAgree :
    sample.Inv ∧ ExpReady sample 3 1 2 0 (num 9 0) (num 9 100) (num 2 13) eng239 ∧
    ExpReady sample 3 1 5 0 (num 9 0) (num 9 100) (num 2 0) eng239 ∧
    ExpReady sample 3 3 2 0 (num 9 0) (num 9 0) (num 2 13) eng239 ∧
    (98 = if (num 2 13).mag = 0 then eng239.R else if (num 9 100).mag = 0 then 0
      else (num 9 100).mag ^ (num 2 13).mag % eng239.M) ∧
    (num 2 13).sec = false ∧ WindowFits sample (num 2 13) eng239 62 2 :=
  ⟨sample_inv, sample_expReady,
    ⟨by decide, by decide, by decide, ⟨⟨8, 0⟩, by decide⟩, rfl, by decide, by decide⟩,
    ⟨by decide, by decide, by decide, ⟨⟨8, 0⟩, by decide⟩, rfl, by decide, by decide⟩,
    by decide, rfl, sample_windowFits.2⟩

theorem witness_SpecialCasesRunNoKernel :
    ExpReady sample 3 1 5 0 (num 9 0) (num 9 100) (num 2 0) eng239 ∧ (num 2 0).mag = 0 ∧
    ExpReady sample 3 3 2 0 (num 9 0) (num 9 0) (num 2 13) eng239 ∧ (num 9 0).mag = 0 ∧
    (num 2 0).sec = false ∧ WindowFits sample (num 2 0) eng239 62 2 ∧ WindowFits sample (num 2 13) eng239 62 2 :=
  ⟨⟨by decide, by decide, by decide, ⟨⟨8, 0⟩, by decide⟩, rfl, by decide, by decide⟩, rfl,
    ⟨by decide, by decide, by decide, ⟨⟨8, 0⟩, by decide⟩, rfl, by decide, by decide⟩, rfl, rfl,
    by unfold WindowFits; decide, sample_windowFits.2⟩

theorem witness_OperationCountsAreInvariant :
    ExpReady sample 11 1 4 0 (num 1 0) (num 9 100) ⟨2, false, true, 13⟩ eng239 ∧
    WindowFits sample ⟨2, false, true, 13⟩ eng239 62 2 ∧
    1 = wsel sample.cfg (bitlen (⟨2, false, true, 13⟩ : BigNum).mag) :=
  ⟨sample_expReady_secret, by unfold WindowFits; decide, by decide⟩

theorem witness_WindowOfWidthOneIsTheConstantTimeMethod :
    sample.Inv ∧ ExpReady sample 3 1 2 0 (num 9 0) (num 9 100) (num 2 13) eng239 ∧
    WindowFits sample (num 2 13) eng239 0 2 ∧ wsel sample.cfg (bitlen (num 2 13).mag) = 1 :=
  ⟨sample_inv, sample_expReady, sample_windowFits.1, by decide⟩

theorem witness_CrtRecombComputesItsFormula :
    sample.Inv ∧ sample.bnAt 5 = .valid (num 2 0) ∧ sample.bnAt 6 = .valid (num 2 156) ∧
    sample.bnAt 7 = .valid (num 2 46) ∧ sample.bnAt 8 = .valid (num 2 20) ∧
    sample.meAt 0 = .ready ⟨8, 0⟩ eng239 ∧ sample.meAt 1 = .ready ⟨8, 0⟩ eng251 ∧
    (num 2 156).neg = false ∧ (num 2 156).mag < eng239.M ∧ (num 2 46).neg = false ∧ (num 2 46).mag < eng251.M ∧
    (num 2 20).neg = false ∧ (num 2 20).mag < eng239.M ∧
    eng239.L.toNat + eng251.L.toNat ≤ (num 2 0).room.toNat := ⟨sample_inv, by decide⟩

/-- R211's primes, and the exponent 1 with its own halves. -/
theorem witness_CrtRecombinationIsCorrect :
    sample.Inv ∧ sample.meAt 0 = .ready ⟨8, 0⟩ eng239 ∧ sample.meAt 1 = .ready ⟨8, 0⟩ eng251 ∧
    156 < eng239.M ∧ 46 < eng251.M ∧ 20 < eng239.M ∧ Nat.gcd eng239.M eng251.M = 1 ∧
    20 * eng251.M % eng239.M = 1 % eng239.M ∧ Nat.Prime eng239.M ∧ Nat.Prime eng251.M ∧ 1 ≤ 1 ∧
    1 % (eng239.M - 1) = 1 % (eng239.M - 1) ∧ 1 % (eng251.M - 1) = 1 % (eng251.M - 1) ∧
    156 = 12345 ^ 1 % eng239.M ∧ 46 = 12345 ^ 1 % eng251.M :=
  ⟨sample_inv, by decide, by decide, by decide, by decide, by decide, by decide, by decide,
    by show Nat.Prime 239; norm_num, by show Nat.Prime 251; norm_num, by decide, rfl, rfl, by decide, by decide⟩

theorem witness_ScratchReadsBackWhatWasWritten :
    Memory.wf [(0, 1), (63, 0xFF)] = true ∧ (∃ t, exec .nop sample = .next t) ∧ Instr.nop.op ≠ .expWin :=
  ⟨by decide, ⟨_, rfl⟩, by decide⟩

theorem witness_StepKeepsTheInvariant : sample.Inv ∧ step sample = .next sample := ⟨sample_inv, rfl⟩

/-- A cause of each status that can be raised (R242). -/
theorem witness_StatusIsTheFirstCauseThatApplies :
    HasCause (.csrRd 0x16) sample .illegalCommand ∧ HasCause (.meEnc 3 15 0) sample .contextMismatch ∧
    HasCause (.meEnc 3 1 2) sample .incompleteContext ∧ HasCause (.bnMod 3 1 5) sample .badArgument ∧
    HasCause (.meEnc 3 0 0) sample .outOfRange ∧ HasCause (.bnCopy 11 12) sample .sizeError := by
  refine ⟨⟨by decide, by decide⟩, .inl ⟨15, by decide, by decide⟩, ⟨2, by decide, ⟨8, 0⟩, by decide⟩,
    ⟨num 2 0, by decide, rfl⟩, ⟨num 1 239, ⟨8, 0⟩, eng239, by decide, by decide, .inr (by decide)⟩,
    ⟨num 2 510, by decide, num 1 0, by decide, by decide⟩⟩

/-- The clauses on the first cause in the statements on the Montgomery, exponentiation and CRT commands. -/
theorem witness_RaisesFirstCause :
    HasCause (.meRed 3 13 0) (sample.setBn 13 (.valid (num 2 0xEF00))) .outOfRange ∧
    HasCause (.expBin 3 1 4 0) sample .badArgument ∧ HasCause (.expCt 3 0 2 0) sample .outOfRange ∧
    HasCause (.expWin 3 1 2 0 63 2) sample .sizeError ∧ HasCause (.expWin 3 1 2 0 0 1) sample .sizeError ∧
    HasCause (.crtRecomb 11 6 7 8 0 1) sample .sizeError := by
  refine ⟨⟨num 2 0xEF00, ⟨8, 0⟩, eng239, by decide, by decide, .inr (by decide)⟩,
    ⟨⟨2, false, true, 13⟩, by decide, rfl⟩, ⟨num 1 239, ⟨8, 0⟩, eng239, by decide, by decide, .inr (by decide)⟩,
    .inr (.inl (by decide)), .inr (.inr ⟨num 2 13, ⟨8, 0⟩, eng239, by decide, by decide, by decide⟩),
    ⟨⟨8, 0⟩, eng239, ⟨8, 0⟩, eng251, by decide, by decide, num 1 0, by decide, by decide⟩⟩

theorem witness_ErrorsChangeNothingButStatus :
    ∃ t, exec (.bnGet 15) sample = .next t ∧
      t.respStream = sample.respStream ++ [⟨.contextMismatch, 0x12, 0, []⟩] ∧
      (⟨.contextMismatch, 0x12, 0, []⟩ : Response).status ≠ .ok := ⟨_, rfl, by decide, by decide⟩

theorem witness_EntropyAndInternalErrorsAreNeverRaised :
    ∃ t, step { sample with cmdStream := [0] } = .next t ∧ t.respStream = [] ++ [⟨.ok, 0x00, 0, []⟩] ∧
      (⟨.ok, 0x00, 0, []⟩ : Response) ∈ [(⟨.ok, 0x00, 0, []⟩ : Response)] := ⟨_, rfl, by decide, by decide⟩

theorem witness_CommandsRunInOrder :
    (∀ i ∈ [Instr.bnCreate 15 2, .bnSet 15 false false [7], .bnGet 15], i.encodable = true) ∧
    { sample with cmdStream := [0x10F0000000000002, 0x11F0000000000001, 7, 0x120F000000000000, 0] }.cmdStream
      = [Instr.bnCreate 15 2, .bnSet 15 false false [7], .bnGet 15].flatMap encode ++ [0] := by decide

theorem witness_CountersCountTheTrace : (Instr.bnAdd 1 1 1).op ≠ .csrWr := by decide

theorem witness_OnlyEngineCommandsWriteEngines :
    (∃ t, exec (.csrWr 0x09 2) sample = .next t) ∧ (Instr.csrWr 0x09 2).op ≠ .meCreate ∧
    (Instr.csrWr 0x09 2).op ≠ .meInit ∧
    ∀ imm, Instr.csrWr 0x09 2 = .csrWr 0x09 imm → imm.getLsbD 0 = false := by
  refine ⟨⟨_, rfl⟩, by decide, by decide, fun imm h => ?_⟩
  injection h with _ h
  subst h
  decide

theorem witness_RoomAndKernelSetAreFixedAtConstruction :
    (∃ t, exec (.bnCreate 2 1) sample = .next t) ∧
    (∀ imm, Instr.bnCreate 2 1 = .csrWr 0x09 imm → imm.getLsbD 0 = false) ∧
    sample.bnAt 1 = .valid (num 9 100) ∧ (∀ room, Instr.bnCreate 2 1 ≠ .bnCreate 1 room) ∧
    sample.meAt 2 = .created ⟨8, 0⟩ ∧ (∀ mb, Instr.bnCreate 2 1 ≠ .meCreate 2 mb) :=
  ⟨⟨_, rfl⟩, fun _ h => by simp at h, by decide, fun _ h => by simp at h, by decide, fun _ h => by simp at h⟩

theorem witness_SecrecySteersOnlyExpBin :
    (Instr.expCt 3 1 4 0).op ≠ .expBin ∧ (Instr.expCt 3 1 4 0).op ≠ .bnGet := by decide

theorem witness_NothingDependsOnOldScratch :
    Memory.wf [] = true ∧ Memory.wf [(0, 1), (63, 0xFF)] = true := by decide

/-- R211's operands for `CRT_RECOMB`, one of the Montgomery forms for each kernel, and an exponentiation with its window. -/
theorem witness_LimbLevelWorkIsAFunctionOfLengths :
    (sample.bnAt 5 = .valid (num 2 0) ∧ sample.bnAt 6 = .valid (num 2 156) ∧
      sample.bnAt 7 = .valid (num 2 46) ∧ sample.bnAt 8 = .valid (num 2 20) ∧
      sample.meAt 0 = .ready ⟨8, 0⟩ eng239 ∧ sample.meAt 1 = .ready ⟨8, 0⟩ eng251 ∧
      (num 2 156).neg = false ∧ (num 2 156).mag < eng239.M ∧ (num 2 46).neg = false ∧ (num 2 46).mag < eng251.M ∧
      (num 2 20).neg = false ∧ (num 2 20).mag < eng239.M ∧ 1 = eng239.L.toNat ∧ 1 = eng251.L.toNat ∧
      1 + 1 ≤ (num 2 0).room.toNat) ∧
    (sample.bnAt 3 = .valid (num 9 0) ∧ eng239.L.toNat ≤ (num 9 0).room.toNat ∧
      MontCommand sample eng239 3 0 (.meEnc 3 1 0) 0x23 .mul (100 * 50) false ∧
      MontCommand sample eng239 3 0 (.meSqr 3 5 0) 0x26 .sqr (0 * 0) false ∧
      MontCommand sample eng239 3 0 (.meRed 3 13 0) 0x27 .red 0xEEFF false ∧
      (KEvent.red, Config.Kernel.red) ∈
        ([(.mul, .mul), (.sqr, .sqr), (.red, .red)] : List (KEvent × Config.Kernel))) ∧
    ExpReady sample 3 1 2 0 (num 9 0) (num 9 100) (num 2 13) eng239 ∧ 1 ≤ (num 9 100).mag ∧ 1 ≤ (num 2 13).mag ∧
    4 = bitlen (num 2 13).mag ∧ 1 = wsel sample.cfg 4 ∧ 4 = (4 + 1 - 1) / 1 ∧
    WindowFits sample (num 2 13) eng239 62 2 ∧
    ExpReady sample 3 1 5 0 (num 9 0) (num 9 100) (num 2 0) eng239 ∧ (num 2 0).mag = 0 ∧
    WindowFits sample (num 2 0) eng239 62 2 :=
  ⟨by decide,
    ⟨by decide, by decide, .enc 1 (num 9 100) (by decide) rfl (by decide), .sqr 5 (num 2 0) (by decide) rfl (by decide),
      .red 13 (num 2 0xEEFF) (by decide) rfl (by decide), by decide⟩,
    sample_expReady, by decide, by decide, by decide, by decide, by decide, sample_windowFits.2,
    ⟨by decide, by decide, by decide, ⟨⟨8, 0⟩, by decide⟩, rfl, by decide, by decide⟩, rfl,
    by unfold WindowFits; decide⟩

end Sys2Proof.Tests
end

/-! Proofs of the statements of 00_scope.md: limb vectors (R16), the masked select (R22) and the reset state. -/

namespace Sys2Proof.Machine

/-! ### Limb vectors (R16) -/

/-- R16's weighted sum, read off the recursion of `limbsVal`. -/
theorem limbsVal_eq_sum_weighted (W : Nat) (v : Limbs) :
    limbsVal W v = ((List.range v.length).map fun i => limbVal W (v.getD i 0) * 2 ^ (W * i)).sum := by
  induction v with
  | nil => rfl
  | cons x v ih =>
    have htail : ∀ i, limbVal W ((x :: v).getD (i + 1) 0) * 2 ^ (W * (i + 1))
        = 2 ^ W * (limbVal W (v.getD i 0) * 2 ^ (W * i)) := fun i => by
      rw [List.getD_cons_succ, Nat.mul_succ, Nat.pow_add]; ring
    rw [limbsVal_cons, ih, List.length_cons, List.range_succ_eq_map, List.map_cons, List.sum_cons, List.map_map,
      ← List.sum_map_mul_left]
    simp only [Function.comp_def, Nat.succ_eq_add_one, htail]
    simp

/-- The only vector of `n` true limbs with the value `x` is `limbs_n(x)` (R16). -/
theorem eq_limbsOf_of_limbsVal_eq {W : Nat} (hW : W ≤ 64) {n x : Nat} {v : Limbs} (hlen : v.length = n)
    (hv : ∀ y ∈ v, y.toNat < 2 ^ W) (hval : limbsVal W v = x) : v = limbsOf W n x := by
  subst hlen hval
  exact (limbsOf_limbsVal hW v hv).symm

/-- Settles O19: the weighted sum by induction on the vector, uniqueness from `limbsOf` inverting `limbsVal`. -/
theorem limbVectorsHaveUniqueValues : Obligations.LimbVectorsHaveUniqueValues := by
  intro W _ hW
  refine ⟨limbsVal_eq_sum_weighted W, fun n x hx => ⟨length_limbsOf W n x, limbsVal_limbsOf_of_lt hW hx, ?_⟩⟩
  intro v hlen hv hval
  exact eq_limbsOf_of_limbsVal_eq hW hlen hv hval

/-! ### Masked select (R22) -/

/-- Settles O40, by the law of the masked select on true limbs. -/
theorem maskedSelectIsSelect : Obligations.MaskedSelectIsSelect := by
  intro W c u v _ hW hlen hu hv
  exact ctSelect_eq hW c hlen hu hv

/-! ### The reset state -/

/-- A zero `STATUS` is the word `OK` under opcode 0 (R52). -/
theorem statusWf_zero : StatusWf 0 := ⟨0, .ok, by decide, by decide⟩

/-- The reset state of a legal instance meets the invariant: nothing is constructed, stored or answered. -/
theorem State.inv_resetWith {c : Cfg} (hc : CfgLegal c) : (State.resetWith c).Inv where
  cfg_legal    := hc
  bn_wf r      := by rw [State.bnAt_resetWith]; trivial
  me_wf k      := by rw [State.meAt_resetWith]; trivial
  scr_wf       := ⟨rfl, fun _ hx => absurd hx List.not_mem_nil⟩
  status_wf    := statusWf_zero
  responses_wf := fun _ hr => absurd hr List.not_mem_nil

/-- No window of a platform with `WMAX ≤ 15` is wider than R13 allows. -/
theorem wsel_le {c : Cfg} (hmax : c.WMAX ≤ 15) (n : Nat) : wsel c n ≤ 15 := by
  unfold wsel
  omega

/-- The suggested instance *tiny* meets R8 to R13. -/
theorem cfgLegal_tiny : CfgLegal Config.tiny where
  W_legal   := .inl rfl
  LMAX_pos  := by decide
  maxbits   := by decide
  RMAX_low  := by decide
  RMAX_high := by decide
  scr_high  := by decide
  wsel_high := wsel_le (by decide)

/-- Settles O11: the reset state of legal parameters meets the invariant, and *tiny* is legal. -/
theorem resetMeetsTheInvariant : Obligations.ResetMeetsTheInvariant :=
  ⟨fun _ hc => State.inv_resetWith hc, State.inv_resetWith cfgLegal_tiny⟩

end Sys2Proof.Machine

/-! Proofs of the statements of 10_state.md: the invariant and its consequences (R32), counters (R56), what writes
engines and rooms (R35, R45), what secrecy bits (R34) and old scratch content (R60) can change, and the reset state. -/

namespace Sys2Proof.Machine

open Sys2Proof.Claims

/-! ### The invariant after each update of the state -/

/-- A payload a response can carry: its length fits the 16-bit count and its elements are limbs (R93). -/
def PayloadWf (c : Cfg) (p : Limbs) : Prop := p.length ≤ 65535 ∧ ∀ x ∈ p, x.toNat < 2 ^ c.W

theorem payloadWf_nil (c : Cfg) : PayloadWf c [] := ⟨by simp, by simp⟩

theorem payloadWf_limbsOf {c : Cfg} (hc : CfgLegal c) {n : Nat} (hn : n ≤ 65535) (x : Nat) :
    PayloadWf c (limbsOf c.W n x) := ⟨by simpa using hn, limbsOf_lt hc.W_le n x⟩

/-- `ME_GET` answers with no limb, one, or as many as the modulus has (R159). -/
theorem payloadWf_meGetPayload {c : Cfg} (hc : CfgLegal c) (m : Modulus) (sel : BitVec 4) :
    PayloadWf c (meGetPayload c.W m sel) := by
  have hL : m.L.toNat ≤ 65535 := Nat.le_of_lt_succ m.L.isLt
  unfold meGetPayload
  split
  · exact payloadWf_nil c
  · exact payloadWf_limbsOf hc hL _
  · exact payloadWf_limbsOf hc hL _
  · exact payloadWf_limbsOf hc hL _
  · exact payloadWf_limbsOf hc (by decide) _

namespace State.Inv

variable {s : State}

theorem kernel (h : s.Inv) (evs : List KEvent) (passes : List LimbOp) : (s.kernel evs passes).Inv :=
  ⟨h.cfg_legal, h.bn_wf, h.me_wf, h.scr_wf, h.status_wf, h.responses_wf⟩

theorem countCmd (h : s.Inv) : s.countCmd.Inv :=
  ⟨h.cfg_legal, h.bn_wf, h.me_wf, h.scr_wf, h.status_wf, h.responses_wf⟩

theorem withCounters (h : s.Inv) (c : Counters) : State.Inv { s with cnt := c } :=
  ⟨h.cfg_legal, h.bn_wf, h.me_wf, h.scr_wf, h.status_wf, h.responses_wf⟩

theorem withStream (h : s.Inv) (q : List Beat) : State.Inv { s with cmdStream := q } :=
  ⟨h.cfg_legal, h.bn_wf, h.me_wf, h.scr_wf, h.status_wf, h.responses_wf⟩

theorem scrDone (h : s.Inv) {m : Memory} (hm : ScrWf s.cfg m) (acc : List ScrAccess) : (s.scrDone m acc).Inv :=
  ⟨h.cfg_legal, h.bn_wf, h.me_wf, hm, h.status_wf, h.responses_wf⟩

theorem softReset (h : s.Inv) : s.softReset.Inv where
  cfg_legal    := h.cfg_legal
  bn_wf r      := by rw [State.bnAt_softReset]; trivial
  me_wf k      := by rw [State.meAt_softReset]; trivial
  scr_wf       := h.scr_wf
  status_wf    := statusWf_zero
  responses_wf := h.responses_wf

theorem setBn (h : s.Inv) (r : BnIdx) {x : BnReg} (hx : x.Wf s.cfg) : (s.setBn r x).Inv := by
  refine ⟨h.cfg_legal, fun k => ?_, h.me_wf, h.scr_wf, h.status_wf, h.responses_wf⟩
  rw [State.bnAt_setBn]
  split
  · exact hx
  · exact h.bn_wf k

theorem setMe (h : s.Inv) (k : EngIdx) {x : Engine} (hx : x.Wf s.cfg) : (s.setMe k x).Inv := by
  refine ⟨h.cfg_legal, h.bn_wf, fun j => ?_, h.scr_wf, h.status_wf, h.responses_wf⟩
  rw [State.meAt_setMe]
  split
  · exact hx
  · exact h.me_wf j

/-- A value that fits the room of a `VALID` register may be written to it (R19, R32): zero is stored positive. -/
theorem writeBn (h : s.Inv) {rd : BnIdx} {d : BigNum} (hd : s.bnAt rd = .valid d) {v : Int}
    (hv : sig s.cfg.W v.natAbs ≤ d.room.toNat) (sec : Bool) : (s.writeBn rd v sec).Inv := by
  obtain ⟨hroom, hmax, -, -⟩ := h.reg hd
  have hsign : v.natAbs = 0 → decide (v < 0) = false := fun hz => decide_eq_false (by omega)
  unfold State.writeBn
  rw [hd]
  exact h.setBn rd ⟨hroom, hmax, hv, hsign⟩

/-- Answering keeps the invariant when the status can be raised and the answer is one R93 allows. -/
theorem complete (h : s.Inv) (op : BitVec 8) {st : Status} (hst : st.Raisable) {v : BitVec 64} {p : Limbs}
    (herr : st ≠ .ok → v = 0 ∧ p = []) (hp : PayloadWf s.cfg p) : (s.complete op st v p).Inv := by
  refine ⟨h.cfg_legal, h.bn_wf, h.me_wf, h.scr_wf, ⟨op, st, hst, rfl⟩, fun r hr => ?_⟩
  rw [State.complete_respStream, List.mem_append, List.mem_singleton] at hr
  obtain hr | rfl := hr
  · exact h.responses_wf r hr
  · exact ⟨hst, herr, hp⟩

theorem completeOk (h : s.Inv) (op : BitVec 8) (v : BitVec 64) {p : Limbs} (hp : PayloadWf s.cfg p) :
    (s.complete op .ok v p).Inv := h.complete op (by decide) (by simp) hp

theorem raise (h : s.Inv) (op : BitVec 8) {st : Status} (hst : st.Raisable) : (s.raise op st).Inv :=
  h.complete op hst (fun _ => ⟨rfl, rfl⟩) (payloadWf_nil _)

/-- `CSR_WR` writes a counter or resets, or does nothing (R227). -/
theorem writeCsr (h : s.Inv) {c : Csr} {imm : BitVec 32} {s' : State} (hs : s.writeCsr c imm = some s') : s'.Inv := by
  cases c <;> simp only [State.writeCsr, Option.some.injEq, reduceCtorEq] at hs <;> subst hs
  case ctrl =>
    split
    · exact h.softReset
    · exact h
  all_goals exact h.withCounters _

end State.Inv

/-! ### Results that fit -/

/-- The sign does not count in the magnitude (R19). -/
@[simp] theorem BigNum.natAbs_value (b : BigNum) : b.value.natAbs = b.mag := by
  unfold BigNum.value; split <;> simp

/-- A product takes at most the limbs of its factors together (R128). -/
theorem sig_mul_le {W : Nat} (hW : 1 ≤ W) {x y m n : Nat} (hx : sig W x ≤ m) (hy : sig W y ≤ n) :
    sig W (x * y) ≤ m + n := by
  rw [sig_le_iff hW] at hx hy ⊢
  refine ⟨by omega, ?_⟩
  rw [Nat.mul_add, Nat.pow_add]
  exact Nat.mul_lt_mul'' hx.2 hy.2

/-- Every exponentiation ends in a `MontRed`, so its result is below the modulus. -/
theorem Run.red_acc_lt (W : Nat) {m : Modulus} (hM : m.M % 2 = 1) (r : Run) : (r.red W m).acc < m.M :=
  (montRed_spec W hM r.acc).1

namespace ReadyFacts

variable {W : Nat} {e : EngineCfg} {m : Modulus}

/-- What is below the modulus fits `L` limbs. -/
theorem sig_le (h : ReadyFacts W e m) (hW : 1 ≤ W) {x : Nat} (hx : x < m.M) : sig W x ≤ m.L.toNat := by
  rw [h.length]; exact sig_mono hW hx.le

/-- The recombined number is below `P · Q` (R211). -/
theorem crtValue_lt (h : ReadyFacts W e m) (q : Modulus) (xp qInv : Nat) {xq : Nat} (hq : xq < q.M) :
    crtValue W m q xp xq qInv < m.M * q.M := by
  have hlt : montMul W m (enc W m (crtDiff W m xp xq)) qInv < m.M := (montRed_spec W h.odd _).1
  show xq + montMul W m (enc W m (crtDiff W m xp xq)) qInv * q.M < m.M * q.M
  generalize montMul W m (enc W m (crtDiff W m xp xq)) qInv = y at hlt ⊢
  calc xq + y * q.M < (y + 1) * q.M := by rw [Nat.succ_mul]; omega
    _ ≤ m.M * q.M := Nat.mul_le_mul_right _ hlt

end ReadyFacts

/-! ### The scratch memory after `EXP_WIN` (R70, R83) -/

/-- Writes of limbs inside `SCR` keep the scratch memory well formed. -/
theorem ScrWf.writeAll {c : Cfg} {m : Memory} (h : ScrWf c m) {ws : List (Nat × Limb)}
    (hws : ∀ x ∈ ws, x.1 < c.scrLimbs ∧ x.2.toNat < 2 ^ c.W) : ScrWf c (Memory.writeAll m ws) :=
  ⟨Memory.wf_writeAll h.1 ws, fun x hx => (Memory.mem_writeAll hx).elim (h.2 x) (hws x)⟩

/-- A windowed run whose window lies inside `SCR` leaves it well formed. -/
theorem scrWf_expWinRun {c : Cfg} (hc : CfgLegal c) {mem : Memory} (hm : ScrWf c mem) (m : Modulus) {sbase w : Nat}
    (hw : 1 ≤ w) (hfit : sbase + 2 ^ w * m.L.toNat ≤ c.scrLimbs) (X E : Nat) :
    ScrWf c (expWinRun c.W m mem sbase w X E).mem := by
  rw [(expWinRun_facts c.W m mem sbase X E hw).2.2]
  refine (hm.writeAll fun x hx => ?_).writeAll fun x hx => ?_
  · obtain ⟨k, hk, j, hj, rfl⟩ := mem_tableWrites.1 hx
    exact ⟨lt_of_lt_of_le (tableAddr_range hk hj).2 hfit, limbAt_lt hc.W_le _ _⟩
  · obtain ⟨i, hi, rfl⟩ := List.mem_map.1 hx
    have := List.mem_range.1 hi
    exact ⟨by simp only; omega, by simp⟩

/-- The window checks of R83 passed. -/
theorem badWindow_eq_false_iff {c : Cfg} {sbase slen : Nat} {b : BigNum} {m : Modulus} :
    badWindow c sbase slen b m = false ↔
      sbase + slen ≤ c.scrLimbs ∧ expWinNeed c m.L.toNat (bitlen b.mag) ≤ slen := by
  simp [badWindow]

/-! ### What the body of a command comes to -/

/-- The result leads to a state that meets the invariant and can be answered: an error that can be raised, or a response
with a well-formed payload. -/
def CmdResult.KeepsInv : CmdResult → Prop
  | .error st => st.Raisable
  | .respond s' _ p => s'.Inv ∧ PayloadWf s'.cfg p

namespace CmdResult.KeepsInv

theorem of_if {c : Prop} [Decidable c] {x y : CmdResult} (hx : c → x.KeepsInv) (hy : ¬c → y.KeepsInv) :
    (if c then x else y).KeepsInv := by
  split
  · exact hx ‹_›
  · exact hy ‹_›

theorem err {st : Status} (h : st.Raisable := by decide) : (CmdResult.error st).KeepsInv := h

/-- Only `BN_GET` and `ME_GET` answer with a payload. -/
theorem plain {s' : State} (h : s'.Inv) (v : BitVec 64) : (CmdResult.respond s' v []).KeepsInv :=
  ⟨h, payloadWf_nil _⟩

end CmdResult.KeepsInv

/-- A counted command ends in a state that meets the invariant when its result keeps it. -/
theorem finishCounted_inv {s t : State} (h : s.Inv) {o : Op} {r : CmdResult} (ht : finishCounted o s r = .next t)
    (hr : r.KeepsInv) : t.Inv := by
  cases r with
  | error st => cases ht; exact h.raise _ hr
  | respond s' v p => cases ht; exact hr.1.countCmd.completeOk _ v hr.2

/-- A system command ends in a state that meets the invariant when its result keeps it. -/
theorem finishSystem_inv {s t : State} (h : s.Inv) {o : Op} {r : CmdResult} (ht : finishSystem o s r = .next t)
    (hr : r.KeepsInv) : t.Inv := by
  cases r with
  | error st => cases ht; exact h.raise _ hr
  | respond s' v p => cases ht; exact hr.1.completeOk _ v hr.2

section Results

variable {s : State} {rd : BnIdx} {d : BigNum} {ed : EngIdx} {e : EngineCfg} {m : Modulus}

/-- Kernels, then a value that fits into a register. -/
theorem CmdResult.KeepsInv.write (h : s.Inv) (hd : s.bnAt rd = .valid d) (evs : List KEvent) (passes : List LimbOp)
    {v : Int} (hv : sig s.cfg.W v.natAbs ≤ d.room.toNat) (sec : Bool) :
    (CmdResult.respond ((s.kernel evs passes).writeBn rd v sec) 0 []).KeepsInv :=
  .plain ((h.kernel evs passes).writeBn hd hv sec) 0

theorem addInto_keepsInv (h : s.Inv) (hd : s.bnAt rd = .valid d) (passes : List LimbOp) (v : Int) (sec : Bool) :
    (addInto s rd d passes v sec).KeepsInv :=
  .of_if (fun _ => .err) fun hv => .write h hd _ _ (Nat.not_lt.1 hv) sec

/-- A kernel's result is below the modulus, so it fits where `L` limbs do. -/
theorem montInto_keepsInv (h : s.Inv) (hd : s.bnAt rd = .valid d) (he : s.meAt ed = .ready e m)
    (hroom : m.L.toNat ≤ d.room.toNat) (ev : KEvent) (T : Nat) (sec : Bool) :
    (montInto s rd ed m ev (montRed s.cfg.W m T) sec).KeepsInv :=
  have hm := h.ready he
  have hv := (hm.sig_le h.cfg_legal.W_pos (montRed_spec s.cfg.W hm.odd T).1).trans hroom
  .write (v := (montRed s.cfg.W m T : Nat)) h hd _ _ hv sec

/-- An exponentiation writes a number below the modulus, in the special cases of R181 too. -/
theorem expInto_keepsInv (h : s.Inv) (hd : s.bnAt rd = .valid d) (he : s.meAt ed = .ready e m)
    (hroom : m.L.toNat ≤ d.room.toNat) (a b : BigNum) {run : Run} (hacc : run.acc < m.M) (hmem : ScrWf s.cfg run.mem) :
    (expInto s rd ed a b m run).KeepsInv := by
  have hm := h.ready he
  have hfit {x : Nat} (hx : x < m.M) : sig s.cfg.W (x : Int).natAbs ≤ d.room.toNat :=
    (hm.sig_le h.cfg_legal.W_pos hx).trans hroom
  refine .of_if (fun _ => ?_) fun _ => .of_if (fun _ => ?_) fun _ => ?_
  · exact .plain (h.writeBn hd (hfit hm.R_lt) _) 0
  · exact .plain (h.writeBn hd (hfit (Modulus.M_pos hm.odd)) _) 0
  · exact .plain (((h.kernel _ _).scrDone hmem _).writeBn hd (hfit hacc) _) 0

/-- `ME_INIT` binds an odd modulus no wider than the engine's maximum (R158). -/
theorem meInitOn_keepsInv (h : s.Inv) (he : e.Wf s.cfg) (a : BigNum) : (meInitOn s ed e a).KeepsInv := by
  refine .of_if (fun _ => .err) fun hodd => .of_if (fun _ => .err) fun hbits => ?_
  have hM : a.mag % 2 = 1 := Nat.mod_two_ne_zero.1 fun h0 => hodd (.inr h0)
  exact .plain (h.setMe ed (x := .ready e (modulusOf s.cfg.W a.mag)) ⟨he, hM, Nat.not_lt.1 hbits, rfl⟩) 0

end Results

/-! ### Every command keeps the invariant -/

/-- A command leads from a state that meets the invariant to one that meets it: its body, command by command. -/
theorem exec_keepsInv {i : Instr} {s t : State} (h : s.Inv) (ht : exec i s = .next t) : t.Inv := by
  have hc := h.cfg_legal
  have hW := hc.W_pos
  cases i with
  | nop => exact finishSystem_inv (r := .respond s 0 []) h ht (.plain h 0)
  | csrRd n =>
    refine finishSystem_inv h ht ?_
    split
    · exact .err
    · exact .plain h _
  | csrWr n imm =>
    refine finishSystem_inv h ht ?_
    split
    · exact .err
    · split
      · exact .err
      · next hs => exact .plain (h.writeCsr hs) 0
  | scrNeed sel mb eb => exact finishSystem_inv h ht (.of_if (fun _ => .err) fun _ => .plain h _)
  | bnCreate rd room =>
    refine finishCounted_inv h ht (.of_if (fun _ => .err) fun hroom => ?_)
    have hmin : 1 ≤ room.toNat := by omega
    have hmax : room.toNat ≤ s.cfg.RMAX := by omega
    exact .plain (h.setBn rd (x := .valid ⟨room, false, false, 0⟩) ⟨hmin, hmax, hmin, fun _ => rfl⟩) 0
  | bnSet rd neg sec payload =>
    refine finishCounted_inv h ht (withA_cases (fun _ => .err) fun d hd => .of_if (fun _ => .err) fun hsize => ?_)
    have habs (x : Nat) : (if neg then -(x : Int) else x).natAbs = x := by split <;> simp
    exact .plain (h.writeBn hd (by rw [habs]; exact Nat.not_lt.1 hsize) sec) 0
  | bnGet ra =>
    refine finishCounted_inv h ht (withA_cases (fun _ => .err) fun a ha => ⟨h, payloadWf_limbsOf hc ?_ _⟩)
    obtain ⟨-, hmax, hsize, -⟩ := h.reg ha
    exact (hsize.trans hmax).trans hc.RMAX_high
  | bnCopy rd ra =>
    refine finishCounted_inv h ht (withDA_cases (fun _ => .err) fun d a hd _ => .of_if (fun _ => .err) fun hsize => ?_)
    exact .plain (h.writeBn hd (by rw [BigNum.natAbs_value]; exact Nat.not_lt.1 hsize) _) 0
  | bnCmp ra rb => exact finishCounted_inv h ht (withDA_cases (fun _ => .err) fun _ _ _ _ => .plain (h.kernel _ _) _)
  | bnAdd rd ra rb =>
    exact finishCounted_inv h ht (withDAB_cases (fun _ => .err) fun _ _ _ hd _ _ => addInto_keepsInv h hd _ _ _)
  | bnSub rd ra rb =>
    exact finishCounted_inv h ht (withDAB_cases (fun _ => .err) fun _ _ _ hd _ _ => addInto_keepsInv h hd _ _ _)
  | bnMul rd ra rb =>
    refine finishCounted_inv h ht (withDAB_cases (fun _ => .err) fun d a b hd _ _ =>
      .of_if (fun _ => .err) fun hsize => ?_)
    refine .write h hd _ _ ((?_ : _ ≤ _).trans (Nat.not_lt.1 hsize)) _
    rw [Int.natAbs_mul, BigNum.natAbs_value, BigNum.natAbs_value]
    exact sig_mul_le hW le_rfl le_rfl
  | bnMod rd ra rb =>
    refine finishCounted_inv h ht (withDAB_cases (fun _ => .err) fun d a b hd _ _ => .of_if (fun _ => .err) fun hzero =>
      .of_if (fun _ => .err) fun _ => .of_if (fun _ => .err) fun hsize => ?_)
    have hpos : (0 : Int) < b.mag := by omega
    have hlow := Int.emod_nonneg a.value hpos.ne'
    have hhigh := Int.emod_lt_of_pos a.value hpos
    have hle : (a.value % b.mag).natAbs ≤ b.mag := by omega
    exact .write h hd _ _ ((sig_mono hW hle).trans (Nat.not_lt.1 hsize)) _
  | meCreate ed mb =>
    refine finishCounted_inv h ht (.of_if (fun _ => .err) fun hmb => ?_)
    have hmin : 1 ≤ mb.toNat := by omega
    have hmax : mb.toNat ≤ maxBits s.cfg := by omega
    exact .plain (h.setMe ed (x := .created ⟨mb, stepLookup s.cfg.ksel mb.toNat⟩) ⟨hmin, hmax, rfl⟩) 0
  | meInit ed ra =>
    refine finishCounted_inv h ht (withA_cases (fun _ => .err) fun a _ => ?_)
    have hwf := h.me_wf ed
    split
    · exact .err
    · next hk => rw [hk] at hwf; exact meInitOn_keepsInv h hwf a
    · next hk => rw [hk] at hwf; exact meInitOn_keepsInv h hwf.1 a
  | meGet ed sel =>
    refine finishCounted_inv h ht (.of_if (fun _ => .err) fun _ => ?_)
    split
    · exact .err
    · exact .of_if (fun _ => .plain h _) fun _ => .err
    · exact ⟨h, payloadWf_meGetPayload hc _ sel⟩
  | meEnc rd ra ed =>
    exact finishCounted_inv h ht (withMont_cases (fun _ hst _ => hst) fun _ _ _ _ hd _ he _ _ hroom =>
      montInto_keepsInv h hd he hroom _ _ _)
  | meDec rd ra ed =>
    exact finishCounted_inv h ht (withMont_cases (fun _ hst _ => hst) fun _ _ _ _ hd _ he _ _ hroom =>
      montInto_keepsInv h hd he hroom _ _ _)
  | meMul rd ra rb ed =>
    exact finishCounted_inv h ht (withMont2_cases (fun _ hst _ => hst) fun _ _ _ _ _ hd _ _ he _ _ _ _ hroom =>
      montInto_keepsInv h hd he hroom _ _ _)
  | meSqr rd ra ed =>
    exact finishCounted_inv h ht (withMont_cases (fun _ hst _ => hst) fun _ _ _ _ hd _ he _ _ hroom =>
      montInto_keepsInv h hd he hroom _ _ _)
  | meRed rd ra ed =>
    exact finishCounted_inv h ht (withMont_cases (fun _ hst _ => hst) fun _ _ _ _ hd _ he _ _ hroom =>
      montInto_keepsInv h hd he hroom _ _ _)
  | expBin rd ra rb ed =>
    refine finishCounted_inv h ht (withExp_cases (fun _ hst _ => hst) fun d a b e m hd _ _ he _ _ _ hroom _ => ?_)
    refine expInto_keepsInv h hd he hroom a b (Run.red_acc_lt _ (h.ready he).odd _) ?_
    rw [(expBinRun_facts ..).2.1]; exact h.scr_wf
  | expCt rd ra rb ed =>
    refine finishCounted_inv h ht (withExp_cases (fun _ hst _ => hst) fun d a b e m hd _ _ he _ _ _ hroom _ => ?_)
    refine expInto_keepsInv h hd he hroom a b (Run.red_acc_lt _ (h.ready he).odd _) ?_
    rw [(expCtRun_facts ..).2.1]; exact h.scr_wf
  | expWin rd ra rb ed sbase slen =>
    refine finishCounted_inv h ht (withExp_cases (fun _ hst _ => hst) fun d a b e m hd _ _ he _ _ _ hroom hwin => ?_)
    obtain ⟨hin, hneed⟩ := badWindow_eq_false_iff.1 hwin
    exact expInto_keepsInv h hd he hroom a b (Run.red_acc_lt _ (h.ready he).odd _)
      (scrWf_expWinRun hc h.scr_wf m (wsel_pos _ _) ((Nat.add_le_add_left hneed _).trans hin) _ _)
  | crtRecomb rd ra rb rc ed ee =>
    refine finishCounted_inv h ht (withCrt_cases (fun _ hst _ => hst)
      fun d a b c e p e' q hd _ _ _ he he' _ _ _ hb _ _ hroom => ?_)
    have hp := h.ready he
    have hq := h.ready he'
    have hlen : sig s.cfg.W (p.M * q.M) ≤ p.L.toNat + q.L.toNat := sig_mul_le hW hp.length.ge hq.length.ge
    refine .write h hd _ _ (le_trans ?_ (hlen.trans hroom)) _
    exact sig_mono hW (hp.crtValue_lt q _ _ hb).le

/-- Settles O48: a step waits, or rejects a header, or runs a command; each keeps the invariant. -/
theorem stepKeepsTheInvariant : Obligations.StepKeepsTheInvariant := by
  intro s t h ht
  simp only [step, stepCommand] at ht
  split at ht
  · cases ht; exact h
  · next f _ =>
    have hrest := h.withStream f.rest
    unfold execFrame at ht
    split at ht
    · exact exec_keepsInv hrest ht
    · cases ht; exact hrest.raise _ (by decide)

/-! ### Registers in canonical form (R32) -/

/-- From its size on, the limbs of a number are zero. -/
theorem limbAt_eq_zero {W : Nat} (hW : 1 ≤ W) {x i : Nat} (hi : sig W x ≤ i) : limbAt W x i = 0 := by
  have hx : x < 2 ^ (W * i) := ((sig_le_iff hW x i).1 hi).2
  simp [limbAt, Nat.div_eq_of_lt hx]

/-- The top limb of a number that is not zero is not zero. -/
theorem limbAt_top_ne_zero {W : Nat} (hW : 1 ≤ W) (hW' : W ≤ 64) {x : Nat} (hx : x ≠ 0) :
    limbAt W x (sig W x - 1) ≠ 0 := by
  have hlow : 1 ≤ x / 2 ^ (W * (sig W x - 1)) := (Nat.one_le_div_iff (by positivity)).2 (two_pow_le_of_sig hW hx)
  have hhigh : x / 2 ^ (W * (sig W x - 1)) < 2 ^ W := by
    apply Nat.div_lt_of_lt_mul
    rw [← Nat.pow_add, ← Nat.mul_succ, Nat.succ_eq_add_one, Nat.sub_add_cancel (sig_pos hW x)]
    exact lt_two_pow_sig hW x
  have hval : (limbAt W x (sig W x - 1)).toNat = x / 2 ^ (W * (sig W x - 1)) := by
    rw [limbAt_toNat hW', Nat.mod_eq_of_lt hhigh]
  intro h0
  simp only [h0, BitVec.ofNat_eq_ofNat, BitVec.toNat_zero] at hval
  omega

/-- Settles O27: what `BnReg.Wf` says of a register, read off its limb vector. -/
theorem validRegistersStayNormalised : Obligations.ValidRegistersStayNormalised := by
  intro s t r b hs hst hb
  have ht : t.Inv := hst.elim (fun h => h ▸ hs) (stepKeepsTheInvariant s t hs)
  have hW := ht.cfg_legal.W_pos
  obtain ⟨-, -, hsize, hzero⟩ := ht.reg hb
  have hfit : b.mag < 2 ^ (t.cfg.W * b.room.toNat) := ((sig_le_iff hW _ _).1 hsize).2
  refine ⟨length_limbsOf _ _ _, limbsVal_limbsOf_of_lt ht.cfg_legal.W_le hfit, sig_pos hW _, hsize, fun i hi => ?_,
    fun hmag => ?_, fun hmag => ⟨by simp [BigNum.size, hmag], hzero hmag⟩⟩
  · by_cases hroom : i < b.room.toNat
    · rw [BigNum.limbs, getD_limbsOf hroom, limbAt_eq_zero hW hi]
    · exact List.getD_eq_default _ _ (by simpa [BigNum.limbs] using hroom)
  · have htop : b.size t.cfg.W - 1 < b.room.toNat := (Nat.sub_lt (sig_pos hW _) Nat.one_pos).trans_le hsize
    rw [BigNum.limbs, getD_limbsOf htop]
    exact limbAt_top_ne_zero hW ht.cfg_legal.W_le hmag

/-! ### Counters and the trace (R23, R56) -/

/-- What a completed command has made performs some events, counts them, and has answered nothing yet. -/
theorem Effect.counts {i : Instr} {s s' : State} (h : Effect i s s') :
    ∃ evs, s'.trace = s.trace ++ evs ∧ s'.cnt = s.cnt.addEvents evs ∧ s'.respStream = s.respStream := by
  cases h with
  | only => exact ⟨[], by simp⟩
  | compare => exact ⟨[], by simp⟩
  | create => exact ⟨[], by simp⟩
  | meCreate => exact ⟨[], by simp⟩
  | meInit => exact ⟨[], by simp⟩
  | write rd d v sec evs => exact ⟨evs, by simp⟩

/-- Settles O55, along the ways a command can end: only a completed command of the counted families performs events. -/
theorem countersCountTheTrace : Obligations.CountersCountTheTrace := by
  intro i s hi
  obtain ⟨t, ht, hend⟩ := exec_ends i s
  cases hend with
  | error st _ hok =>
    exact ⟨_, _, [], ht, State.raise_respStream .., by simp [countEvents, hok]⟩
  | read val hop =>
    refine ⟨_, _, [], ht, State.complete_respStream .., ?_⟩
    obtain hop | hop | hop := hop <;> simp [countEvents, hop]
  | csrWr n imm c s' hi' => exact absurd (congrArg Instr.op hi') hi
  | done s' val p heff hop =>
    obtain ⟨evs, htrace, hcnt, hresp⟩ := heff.counts
    simp only [List.mem_cons, List.not_mem_nil, or_false, not_or] at hop
    refine ⟨_, _, evs, ht, by rw [State.complete_respStream, State.countCmd_respStream, hresp], ?_⟩
    simp [countEvents, htrace, hcnt, hop, Counters.addEvents_eq, List.countP_eq_length_filter]

/-! ### What writes engines and rooms (R35, R45) -/

/-- `CTRL` is register `0x09` (R58). -/
theorem Csr.eq_of_ofNum_ctrl {n : BitVec 8} (h : Csr.ofNum n = some .ctrl) : n = 0x09 := by
  revert n; decide

/-- Outside a soft reset `CSR_WR` writes no register and no engine (R227). -/
theorem State.writeCsr_frame {s s' : State} {c : Csr} {imm : BitVec 32} (h : s.writeCsr c imm = some s')
    (hreset : c = .ctrl → imm.getLsbD 0 = false) : s'.bn = s.bn ∧ s'.me = s.me := by
  cases c <;> simp only [State.writeCsr, Option.some.injEq, reduceCtorEq] at h <;> subst h
  case ctrl => rw [hreset rfl]; exact ⟨rfl, rfl⟩
  all_goals exact ⟨rfl, rfl⟩

/-- Only `ME_CREATE` and `ME_INIT` make another engine file. -/
theorem Effect.me_eq {i : Instr} {s s' : State} (h : Effect i s s') (hcreate : i.op ≠ .meCreate)
    (hinit : i.op ≠ .meInit) : s'.me = s.me := by
  cases h with
  | only => rfl
  | compare => rfl
  | create => rfl
  | meCreate ed maxbits hi => exact absurd (congrArg Instr.op hi) hcreate
  | meInit ed ra c a hi => exact absurd (congrArg Instr.op hi) hinit
  | write => simp

/-- `room` stays but under `BN_CREATE` of that register. -/
theorem Effect.room_eq {i : Instr} {s s' : State} (h : Effect i s s') {r : BnIdx} {b : BigNum}
    (hb : s.bnAt r = .valid b) (hcreate : ∀ room, i ≠ .bnCreate r room) :
    ∃ b', s'.bnAt r = .valid b' ∧ b'.room = b.room := by
  cases h with
  | only => exact ⟨b, hb, rfl⟩
  | compare => exact ⟨b, hb, rfl⟩
  | create rd room hi =>
    have hne : r ≠ rd := fun he => hcreate room (he ▸ hi)
    exact ⟨b, by simp [hne, hb], rfl⟩
  | meCreate => exact ⟨b, hb, rfl⟩
  | meInit => exact ⟨b, hb, rfl⟩
  | write rd d v sec evs passes mem acc hd =>
    rw [State.bnAt_writeBn ((s.kernel evs passes).scrDone mem acc) rd r v sec hd]
    split
    · next he => subst he; cases hb.symm.trans hd; exact ⟨_, rfl, rfl⟩
    · exact ⟨b, hb, rfl⟩

/-- A constructed engine has one configuration. -/
theorem engineCfg_unique {x : Engine} {c c' : EngineCfg} (h : x = .created c ∨ ∃ m, x = .ready c m)
    (h' : x = .created c' ∨ ∃ m, x = .ready c' m) : c' = c := by
  obtain rfl | ⟨m, rfl⟩ := h
  · simpa [eq_comm] using h'
  · simpa [eq_comm] using h'

/-- A constructed engine keeps its configuration but under `ME_CREATE` of that engine. -/
theorem Effect.engineCfg_eq {i : Instr} {s s' : State} (h : Effect i s s') {k : EngIdx} {c : EngineCfg}
    (hc : s.meAt k = .created c ∨ ∃ m, s.meAt k = .ready c m) (hcreate : ∀ mb, i ≠ .meCreate k mb) :
    s'.meAt k = .created c ∨ ∃ m, s'.meAt k = .ready c m := by
  cases h with
  | only => exact hc
  | compare => exact hc
  | create => exact hc
  | meCreate ed maxbits hi =>
    have hne : k ≠ ed := fun he => hcreate maxbits (he ▸ hi)
    simpa [hne] using hc
  | meInit ed ra c' a hi ha hc' =>
    rw [State.meAt_setMe]
    split
    · next he =>
      subst he
      exact .inr ⟨_, by rw [engineCfg_unique hc hc']⟩
    · exact hc
  | write => simpa using hc

/-- Settles O56, along the ways a command can end. -/
theorem onlyEngineCommandsWriteEngines : Obligations.OnlyEngineCommandsWriteEngines := by
  intro i s t ht hcreate hinit hreset
  obtain ⟨t', ht', hend⟩ := exec_ends i s
  cases ht.symm.trans ht'
  cases hend with
  | error => rfl
  | read => rfl
  | csrWr n imm c s' hi hc hs =>
    exact (State.writeCsr_frame hs fun h => hreset imm (Csr.eq_of_ofNum_ctrl (h ▸ hc) ▸ hi)).2
  | done s' val p heff => exact heff.me_eq hcreate hinit

/-- Settles O57, along the ways a command can end. -/
theorem roomAndKernelSetAreFixedAtConstruction : Obligations.RoomAndKernelSetAreFixedAtConstruction := by
  intro i s t ht hreset
  obtain ⟨t', ht', hend⟩ := exec_ends i s
  cases ht.symm.trans ht'
  cases hend with
  | error => exact ⟨fun r b hb _ => ⟨b, hb, rfl⟩, fun k c hc _ => hc⟩
  | read => exact ⟨fun r b hb _ => ⟨b, hb, rfl⟩, fun k c hc _ => hc⟩
  | csrWr n imm c s' hi hc hs =>
    obtain ⟨hbn, hme⟩ := State.writeCsr_frame hs fun h => hreset imm (Csr.eq_of_ofNum_ctrl (h ▸ hc) ▸ hi)
    have hbnAt (r : BnIdx) : s'.bnAt r = s.bnAt r := by simp only [State.bnAt, hbn]
    have hmeAt (k : EngIdx) : s'.meAt k = s.meAt k := by simp only [State.meAt, hme]
    simp only [State.bnAt_complete, State.meAt_complete, hbnAt, hmeAt]
    exact ⟨fun r b hb _ => ⟨b, hb, rfl⟩, fun k c hc _ => hc⟩
  | done s' val p heff => exact ⟨fun r b hb => heff.room_eq hb, fun k c hc => heff.engineCfg_eq hc⟩

/-! ### Secrecy bits (R34) and old scratch content (R60) -/

theorem bnAt_forgetSec (s : State) (r : BnIdx) : (forgetSec s).bnAt r = forgetSecBn (s.bnAt r) := by
  simp [State.bnAt, forgetSec]

/-- Clearing secrecy bits changes nothing else. -/
theorem like_forgetSec (s : State) : s.Like (fun _ _ => True) Eq (forgetSec s) := by
  refine ⟨rfl, fun r => ?_, rfl, rfl, rfl, rfl, rfl, rfl, rfl, rfl⟩
  rw [bnAt_forgetSec]
  cases s.bnAt r with
  | none => exact .none
  | valid b => exact .valid _ _ ⟨rfl, rfl, rfl, trivial⟩

/-- Registers alike but for secrecy are the same with it cleared. -/
theorem BnReg.Like.forgetSecBn_eq {Q : Bool → Bool → Prop} {x x' : BnReg} (h : x.Like Q x') :
    forgetSecBn x' = forgetSecBn x := by
  cases h with
  | none => rfl
  | valid b b' hb =>
    obtain ⟨hroom, hneg, hmag, -⟩ := hb
    simp [forgetSecBn, hroom, hneg, hmag]

/-- States alike but for secrecy, with the same unread beats, are the same with every secrecy bit cleared. -/
theorem State.Like.forgetSec_eq {Q : Bool → Bool → Prop} {s s' : State} (h : s.Like Q Eq s')
    (hq : s'.cmdStream = s.cmdStream) : forgetSec s' = forgetSec s := by
  have hbn : (forgetSec s').bn = (forgetSec s).bn := State.bn_ext fun r => by
    rw [bnAt_forgetSec, bnAt_forgetSec]
    exact (h.bn r).forgetSecBn_eq
  obtain ⟨hcfg, -, hme, hscr, hstatus, hcnt, htrace, hscrTrace, hlimbTrace, hresp⟩ := h
  cases s
  cases s'
  simp_all [forgetSec]

/-- Settles O58: by `exec_like` the two runs end alike but for secrecy. -/
theorem secrecySteersOnlyExpBin : Obligations.SecrecySteersOnlyExpBin := by
  intro i s hbin hget
  obtain ⟨t, t', ht, ht', hlike⟩ := exec_like relations_any_sec (like_forgetSec s) i (.inl ⟨hbin, hget⟩)
  exact ⟨t, t', ht, ht', hlike.forgetSec_eq ((exec_cmdStream ht').trans (exec_cmdStream ht).symm)⟩

/-- Settles O59: by `exec_like` the two runs end alike but for scratch content and unread beats, and no command touches
those beats. -/
theorem nothingDependsOnOldScratch : Obligations.NothingDependsOnOldScratch := by
  intro i s m m' hm hm'
  have hstart : State.Like Eq (fun x x' => Memory.wf x = true ∧ Memory.wf x' = true)
      { s with scr := m } { s with scr := m' } :=
    ⟨rfl, fun r => .refl (fun _ => rfl) (s.bnAt r), rfl, ⟨hm, hm'⟩, rfl, rfl, rfl, rfl, rfl, rfl⟩
  obtain ⟨t, t', ht, ht', hlike⟩ := exec_like relations_any_scr hstart i (.inr rfl)
  have hq : t'.cmdStream = t.cmdStream := (exec_cmdStream ht').trans (exec_cmdStream ht).symm
  refine ⟨t, t', ht, ht', hlike.eq.trans ?_⟩
  rw [hq]

/-! ### Reset (R36, R46) -/

/-- Settles O10: registers and engines by the laws of the reset state, the rest as it is written there. -/
theorem resetLeavesNothingConstructed : Obligations.ResetLeavesNothingConstructed := fun c =>
  ⟨State.bnAt_resetWith c, State.meAt_resetWith c, rfl, rfl, rfl, rfl, rfl, rfl, rfl, rfl, rfl, rfl, rfl, rfl⟩

end Sys2Proof.Machine

/-! Proof of the statement of 20_memory.md: reads after writes of the scratch memory (R70), and that only `EXP_WIN`
reaches it (R70, R83). -/

namespace Sys2Proof.Machine

/-- No write of a `CSR` changes `SCR`, a soft reset among them (log entry 6). -/
theorem State.writeCsr_scr {s s' : State} {c : Csr} {imm : BitVec 32} (h : s.writeCsr c imm = some s') :
    s'.scr = s.scr := by
  cases c <;> simp only [State.writeCsr, Option.some.injEq, reduceCtorEq] at h <;> subst h
  case ctrl =>
    split
    · exact State.softReset_scr s
    · rfl
  all_goals rfl

/-- Only the body of `EXP_WIN` makes another scratch memory. -/
theorem Effect.scr_eq {i : Instr} {s s' : State} (h : Effect i s s') (hi : i.op ≠ .expWin) : s'.scr = s.scr := by
  cases h with
  | only => rfl
  | compare => rfl
  | create => rfl
  | meCreate => rfl
  | meInit => rfl
  | write rd d v sec evs passes mem acc hd hop hm =>
    obtain ⟨hmem, -⟩ := hm.resolve_left hi
    rw [State.writeBn_scr, State.scrDone_scr, hmem]

/-- Settles O47: the law of reads after writes, and the ways a command can end. -/
theorem scratchReadsBackWhatWasWritten : Obligations.ScratchReadsBackWhatWasWritten := by
  refine ⟨fun m a b v hm => Memory.read_write_from hm a b v, fun i s t ht hi => ?_⟩
  obtain ⟨t', ht', hend⟩ := exec_ends i s
  cases ht.symm.trans ht'
  cases hend with
  | error => rfl
  | read => rfl
  | csrWr n imm c s' _ _ hs => exact (State.complete_scr ..).trans (State.writeCsr_scr hs)
  | done s' val p heff => exact heff.scr_eq hi

end Sys2Proof.Machine

/-! Proofs of the statements of 30_encoding.md: decoding undoes encoding and encoding undoes decoding (R91 to R97), what a
step makes of a framed command (R90, R94, R98), the beats of a response (R93), and `MONT_MULMOD` (R107). -/

namespace Sys2Proof

/-! ### Decoding an encoding (R95, R96) -/

/-- Every command's header matches its own row and announces its payload: the family `Framing`, gathered. -/
theorem framing (i : Instr) : Laws.Framing.Statement i :=
  match i with
  | .nop => Laws.Framing.nop
  | .csrRd .. => Laws.Framing.csrRd ..
  | .csrWr .. => Laws.Framing.csrWr ..
  | .scrNeed .. => Laws.Framing.scrNeed ..
  | .bnCreate .. => Laws.Framing.bnCreate ..
  | .bnSet .. => Laws.Framing.bnSet ..
  | .bnGet .. => Laws.Framing.bnGet ..
  | .bnCopy .. => Laws.Framing.bnCopy ..
  | .bnCmp .. => Laws.Framing.bnCmp ..
  | .bnAdd .. => Laws.Framing.bnAdd ..
  | .bnSub .. => Laws.Framing.bnSub ..
  | .bnMul .. => Laws.Framing.bnMul ..
  | .bnMod .. => Laws.Framing.bnMod ..
  | .meCreate .. => Laws.Framing.meCreate ..
  | .meInit .. => Laws.Framing.meInit ..
  | .meGet .. => Laws.Framing.meGet ..
  | .meEnc .. => Laws.Framing.meEnc ..
  | .meDec .. => Laws.Framing.meDec ..
  | .meMul .. => Laws.Framing.meMul ..
  | .meSqr .. => Laws.Framing.meSqr ..
  | .meRed .. => Laws.Framing.meRed ..
  | .expBin .. => Laws.Framing.expBin ..
  | .expCt .. => Laws.Framing.expCt ..
  | .expWin .. => Laws.Framing.expWin ..
  | .crtRecomb .. => Laws.Framing.crtRecomb ..

/-- The two halves of a control-register number stand in the `rd` and `ra` fields (R91). -/
theorem csr_of_halves (csr : BitVec 8) : csr.extractLsb' 4 4 ++ csr.extractLsb' 0 4 = csr :=
  BitVec.extractLsb'_append_extractLsb'

/-- The two halves of a 32-bit immediate stand in the `imm_hi` and `imm_lo` fields (R91). -/
theorem imm_of_halves (imm : BitVec 32) : imm.extractLsb' 16 16 ++ imm.extractLsb' 0 16 = imm :=
  BitVec.extractLsb'_append_extractLsb'

/-- The selector of `SCR_NEED` comes back from `fn` (R103). -/
theorem SizeSel.ofBits_fn (sel : SizeSel) : SizeSel.ofBits ((0#2 ++ sel.bits : BitVec 4).extractLsb' 0 2) = sel := by
  cases sel <;> rfl

/-- The sign and secrecy of `BN_SET` come back from `fn` (R103). -/
theorem setBits_fn (neg sec : Bool) :
    (0#2 ++ BitVec.ofBool sec ++ BitVec.ofBool neg : BitVec 4).getLsbD 0 = neg ∧
      (0#2 ++ BitVec.ofBool sec ++ BitVec.ofBool neg : BitVec 4).getLsbD 1 = sec := by
  cases neg <;> cases sec <;> decide

/-- Read back from the header it encodes to, every operand is as it was. -/
theorem build_encodeHeader (i : Instr) : i.op.build (encodeHeader i) i.payload = i := by
  cases i with
  | csrRd csr => simp [Instr.op, Op.build, encodeHeader, csr_of_halves]
  | csrWr csr imm => simp [Instr.op, Op.build, encodeHeader, csr_of_halves, imm_of_halves]
  | scrNeed sel modbits expbits => simp [Instr.op, Op.build, encodeHeader, SizeSel.ofBits_fn]
  | bnSet rd neg sec payload =>
    obtain ⟨hneg, hsec⟩ := setBits_fn neg sec
    simp only [Instr.op, Op.build, encodeHeader, Instr.payload, hdrRd_header, hdrFn_header, hneg, hsec]
  | _ => simp [Instr.op, Op.build, encodeHeader]

/-- The decoder answers a command for its own header and payload. -/
theorem decode_encodeHeader (i : Instr) : decode (encodeHeader i) i.payload = .ok i :=
  (decode_ok_iff _ _ _).2 ⟨i.op, (framing i).1, (build_encodeHeader i).symm⟩

/-- Settles O2: the header announces exactly the payload, matches the command's row, and holds its operands. -/
theorem encodeThenDecodeGivesTheCommandBack : Obligations.EncodeThenDecodeGivesTheCommandBack := by
  intro i rest hi
  exact ⟨nextFrame_append _ _ _ ((framing i).2 hi).symm, decode_encodeHeader i⟩

/-! ### Encoding what was decoded (R95, R97) -/

/-- A `fn` field whose upper bits are zero is the selector it holds (R103). -/
theorem fn_of_sizeSel : ∀ fn : BitVec 4, fn &&& 0xC = 0 → 0#2 ++ (SizeSel.ofBits (fn.extractLsb' 0 2)).bits = fn := by
  decide

/-- A `fn` field whose upper bits are zero is the sign and secrecy it holds (R103). -/
theorem fn_of_setBits : ∀ fn : BitVec 4, fn &&& 0xC = 0 →
    0#2 ++ BitVec.ofBool (fn.getLsbD 1) ++ BitVec.ofBool (fn.getLsbD 0) = fn := by
  decide

/-- The payload of a built command is the payload it was built with, when the header announces that payload (R94). -/
theorem Op.build_payload {o : Op} {h : Beat} {payload : List Beat} (hm : h &&& o.mask = o.pattern)
    (hp : payload.length = payloadCount h) : (o.build h payload).payload = payload := by
  have hop := Op.code_of_match hm
  cases o with
  | bnSet => rfl
  | _ =>
    have hnone : payload = [] := by simpa [payloadCount, hop, Op.code] using hp
    exact hnone.symm

/-- The two halves of a control-register number (R91). -/
theorem csr_halves (rd ra : BnIdx) : (rd ++ ra).extractLsb' 4 4 = rd ∧ (rd ++ ra).extractLsb' 0 4 = ra :=
  ⟨BitVec.extractLsb'_append_eq_left, BitVec.extractLsb'_append_eq_right⟩

/-- The two halves of a 32-bit immediate (R91). -/
theorem imm_halves (hi lo : BitVec 16) : (hi ++ lo).extractLsb' 16 16 = hi ∧ (hi ++ lo).extractLsb' 0 16 = lo :=
  ⟨BitVec.extractLsb'_append_eq_left, BitVec.extractLsb'_append_eq_right⟩

/-- A header that matches a row is the header of the command built from it: the mask leaves no one in an unused field, and
the used fields are those the command holds (R95, R97). -/
theorem encodeHeader_build {o : Op} {h : Beat} {payload : List Beat} (hm : h &&& o.mask = o.pattern)
    (hp : payload.length = payloadCount h) : encodeHeader (o.build h payload) = h := by
  have hop := Op.code_of_match hm
  rw [← header_fields h] at hm hp hop ⊢
  generalize hdrOp h = op, hdrRd h = rd, hdrRa h = ra, hdrRb h = rb, hdrRc h = rc, hdrEd h = ed, hdrEe h = ee,
    hdrFn h = fn, hdrImmHi h = hi, hdrImmLo h = lo at *
  rw [hdrOp_header] at hop
  subst hop
  rw [Op.mask_eq, Op.pattern_eq] at hm
  cases o
  all_goals
    simp only [Op.maskFields, header_and] at hm
    have hf := header_inj hm
    simp only [Laws.Framing.and_ones4, Laws.Framing.and_ones2, Laws.Framing.and_ones16] at hf
  case csrRd | csrWr => simp [Op.build, encodeHeader, hf, csr_halves, imm_halves]
  case scrNeed =>
    obtain ⟨-, rfl, rfl, rfl, rfl, rfl, rfl, hfn, -, -⟩ := hf
    simp only [Op.build, encodeHeader, hdrFn_header, hdrImmHi_header, hdrImmLo_header, fn_of_sizeSel fn hfn]
  case bnSet =>
    obtain ⟨-, -, rfl, rfl, rfl, rfl, rfl, hfn, rfl, -⟩ := hf
    have hcount : payload.length = lo.toNat := by simpa [payloadCount] using hp
    simp only [Op.build, encodeHeader, hdrRd_header, hdrFn_header, fn_of_setBits fn hfn, hcount, BitVec.ofNat_toNat,
      BitVec.setWidth_eq]
  all_goals
    simp only [Op.build, encodeHeader, hdrRd_header, hdrRa_header, hdrRb_header, hdrRc_header, hdrEd_header, hdrEe_header,
      hdrFn_header, hdrImmHi_header, hdrImmLo_header, hf]

/-- Settles O3: an accepted header is the one its command encodes to, and the payload is the command's. -/
theorem decodeThenEncodeGivesTheBeatsBack : Obligations.DecodeThenEncodeGivesTheBeatsBack := by
  intro h payload i hp hi
  obtain ⟨o, hm, rfl⟩ := (decode_ok_iff h payload i).1 hi
  rw [encode, encodeHeader_build hm hp, Op.build_payload hm hp]

/-! ### The opcode table (R96) -/

/-- The rows of R96, written out apart from the decoder, are the decoder's own. -/
theorem mem_opcodeRows_iff (o : Op) (mt mk : BitVec 64) :
    (o, mt, mk) ∈ Claims.opcodeRows ↔ mt = o.pattern ∧ mk = o.mask := by
  have hrows : Claims.opcodeRows = Op.all.map fun o => (o, o.pattern, o.mask) := by decide
  have hall : ∀ o, o ∈ Op.all := fun o => by cases o <;> decide
  rw [hrows]
  simp [hall, eq_comm]

/-- A header that meets no row of R96 is rejected (R97, R98). -/
theorem decode_error_of_no_row {h : Beat} (hno : ∀ o mt mk, (o, mt, mk) ∈ Claims.opcodeRows → h &&& mk ≠ mt)
    (payload : List Beat) : ∃ e, decode h payload = .error e :=
  (decode_error_iff h payload).2 fun o => hno o _ _ ((mem_opcodeRows_iff o _ _).2 ⟨rfl, rfl⟩)

/-- Settles O4: what the decoder accepts and rejects, said over the rows of R96. -/
theorem headerSelectsTheCommandOfItsRow : Obligations.HeaderSelectsTheCommandOfItsRow := by
  refine ⟨fun o mt mk hrow h payload => ?_, fun h payload hno => decode_error_of_no_row hno payload⟩
  obtain ⟨rfl, rfl⟩ := (mem_opcodeRows_iff o mt mk).1 hrow
  constructor
  · rintro ⟨i, hi, rfl⟩
    obtain ⟨o, hm, rfl⟩ := (decode_ok_iff h payload i).1 hi
    rwa [Op.build_op]
  · intro hm
    exact ⟨o.build h payload, (decode_ok_iff h payload _).2 ⟨o, hm, rfl⟩, Op.build_op o h payload⟩

/-- Settles O1, by decoding the seven words. -/
theorem wordsWrittenFromTheSpecDecode : Obligations.WordsWrittenFromTheSpecDecode := by
  unfold Obligations.WordsWrittenFromTheSpecDecode
  decide

end Sys2Proof

namespace Sys2Proof.Machine

/-! ### A step on a framed command (R90, R94, R98) -/

/-- The length of R94 is `payloadCount`. -/
theorem payloadCount_eq (h : Beat) :
    payloadCount h = if h.extractLsb' 56 8 = 0x11#8 then (h.extractLsb' 0 16).toNat else 0 := rfl

/-- A step runs the command whose header and payload stand first in the stream. -/
theorem step_of_frame {s : State} {h : Beat} {payload rest : List Beat} (hs : s.cmdStream = h :: (payload ++ rest))
    (hp : payload.length = payloadCount h) : step s = execFrame ⟨h, payload, rest⟩ s := by
  simp only [step, stepCommand, hs, nextFrame_append h payload rest hp]

/-- Running a framed command leaves exactly the beats after it (R94). -/
theorem execFrame_cmdStream (f : Frame) (s : State) : ∃ t, execFrame f s = .next t ∧ t.cmdStream = f.rest := by
  unfold execFrame
  split
  · next i _ =>
    obtain ⟨t, ht, -⟩ := exec_ends i { s with cmdStream := f.rest }
    exact ⟨t, ht, exec_cmdStream ht⟩
  · exact ⟨_, rfl, rfl⟩

/-- Settles O5: framing by `payloadCount`, and no command touches the beats after its own. -/
theorem lengthIsDecidedByTheHeader : Obligations.LengthIsDecidedByTheHeader := by
  refine ⟨fun h rest hop => ?_, fun h payload rest hop hp => ?_, fun s h payload rest hs hp => ?_⟩
  · exact nextFrame_append h [] rest (by simp [payloadCount_eq, hop])
  · exact nextFrame_append h payload rest (by simp [payloadCount_eq, hop, hp])
  · rw [step_of_frame hs hp]
    exact execFrame_cmdStream ⟨h, payload, rest⟩ s

/-- Settles O6: the beats of an encodable command are framed and decoded to it. -/
theorem stepRunsTheDecodedCommand : Obligations.StepRunsTheDecodedCommand := by
  intro i s rest hi hs
  rw [step_of_frame hs (payloadCount_encodeHeader i hi).symm]
  simp only [execFrame, decode_encodeHeader]

/-- Settles O7: the decoder rejects the header, and the step is the error entry of R244. -/
theorem unmatchedHeaderIsIllegal : Obligations.UnmatchedHeaderIsIllegal := by
  intro s h payload rest hs hp hno
  obtain ⟨e, he⟩ := decode_error_of_no_row hno payload
  refine ⟨_, ?_, raised_raise { s with cmdStream := rest } (hdrOp h) .illegalCommand⟩
  rw [step_of_frame hs hp]
  simp only [execFrame, he, execIllegal]

/-! ### Responses (R93) -/

/-- No write of a `CSR` touches the response stream. -/
theorem State.writeCsr_respStream {s s' : State} {c : Csr} {imm : BitVec 32} (h : s.writeCsr c imm = some s') :
    s'.respStream = s.respStream := by
  cases c <;> simp only [State.writeCsr, Option.some.injEq, reduceCtorEq] at h <;> subst h
  case ctrl =>
    split
    · exact State.softReset_respStream s
    · rfl
  all_goals rfl

/-- However a command ends, it adds one response under its own opcode, and an error's carries nothing (R93, R244). -/
theorem Ends.response {i : Instr} {s t : State} (h : Ends i s t) :
    ∃ st val p, t.respStream = s.respStream ++ [⟨st, i.op.code, val, p⟩] ∧ (st ≠ .ok → val = 0 ∧ p = []) := by
  cases h with
  | error st => exact ⟨st, 0, [], State.raise_respStream .., fun _ => ⟨rfl, rfl⟩⟩
  | read val => exact ⟨.ok, val, [], State.complete_respStream .., fun h => absurd rfl h⟩
  | csrWr n imm c s' _ _ hs =>
    refine ⟨.ok, 0, [], ?_, fun h => absurd rfl h⟩
    rw [State.complete_respStream, State.writeCsr_respStream hs]
  | done s' val p heff =>
    obtain ⟨-, -, -, hresp⟩ := heff.counts
    refine ⟨.ok, val, p, ?_, fun h => absurd rfl h⟩
    rw [State.complete_respStream, State.countCmd_respStream, hresp]

/-- A payload limb goes out zero-extended (R92). -/
theorem toNat_ofNat_limbVal {W : Nat} (hW : W ≤ 64) (x : Limb) : (BitVec.ofNat 64 (limbVal W x)).toNat = limbVal W x := by
  have hlt : limbVal W x < 2 ^ 64 := (limbVal_lt W x).trans_le (Nat.pow_le_pow_right (by decide) hW)
  rw [BitVec.toNat_ofNat, Nat.mod_eq_of_lt hlt]

/-- The payload beats of a response have the value of its limbs. -/
theorem limbsVal_map_limbVal {W : Nat} (hW : W ≤ 64) (v : Limbs) :
    limbsVal W (v.map fun x => BitVec.ofNat 64 (limbVal W x)) = limbsVal W v := by
  induction v with
  | nil => rfl
  | cons x v ih =>
    have hx : limbVal W (BitVec.ofNat 64 (limbVal W x)) = limbVal W x := by
      rw [limbVal, toNat_ofNat_limbVal hW, Nat.mod_eq_of_lt (limbVal_lt W x)]
    rw [List.map_cons, limbsVal_cons, limbsVal_cons, hx, ih]

/-- The fields of the first beat of a response (R93). -/
theorem response_header_fields (st op : BitVec 8) (n : BitVec 16) :
    (st ++ op ++ 0#32 ++ n).extractLsb' 56 8 = st ∧ (st ++ op ++ 0#32 ++ n).extractLsb' 48 8 = op ∧
      (st ++ op ++ 0#32 ++ n).extractLsb' 16 32 = 0 ∧ (st ++ op ++ 0#32 ++ n).extractLsb' 0 16 = n := by
  have hcount {start len : Nat} (hs : 16 ≤ start) : (st ++ op ++ 0#32 ++ n).extractLsb' start len =
      (st ++ op ++ 0#32).extractLsb' (start - 16) len := BitVec.extractLsb'_append_eq_of_le hs
  have hzeros {start len : Nat} (hs : 32 ≤ start) : (st ++ op ++ 0#32).extractLsb' start len =
      (st ++ op).extractLsb' (start - 32) len := BitVec.extractLsb'_append_eq_of_le hs
  refine ⟨?_, ?_, ?_, BitVec.extractLsb'_append_eq_right⟩
  · rw [hcount (by decide), hzeros (by decide)]
    exact BitVec.extractLsb'_append_eq_left
  · rw [hcount (by decide), hzeros (by decide)]
    exact BitVec.extractLsb'_append_eq_right
  · rw [hcount (by decide)]
    exact BitVec.extractLsb'_append_eq_right

/-- Settles O9: the one response a command adds, and the layout of its beats field by field. -/
theorem responseBeatsFollowTheLayout : Obligations.ResponseBeatsFollowTheLayout := by
  refine ⟨fun i s t r ht hr => ?_, fun W r _ hW hlen => ?_⟩
  · obtain ⟨t', ht', hend⟩ := exec_ends i s
    cases ht.symm.trans ht'
    obtain ⟨st, val, p, hresp, herr⟩ := hend.response
    have hone : r = ⟨st, i.op.code, val, p⟩ := by simpa using hr.symm.trans hresp
    subst hone
    exact ⟨rfl, herr⟩
  · obtain ⟨hst, hop, hzero, hcount⟩ := response_header_fields r.status.code r.op (BitVec.ofNat 16 r.payload.length)
    refine ⟨_, _, rfl, hst, hop, hzero, ?_, List.length_map .., limbsVal_map_limbVal hW r.payload, fun x hx => ?_⟩
    · rw [hcount, BitVec.toNat_ofNat, Nat.mod_eq_of_lt hlen, List.length_map]
    · obtain ⟨y, -, rfl⟩ := List.mem_map.1 hx
      rw [toNat_ofNat_limbVal hW]
      exact limbVal_lt W y

/-! ### `MONT_MULMOD` (R107) -/

/-- `i` completes from `s` and leaves `v`, with secrecy `sec`, in the register `rd` of content `d`; it writes no other
register, no engine and no parameter. -/
structure CompletesWith (i : Instr) (s : State) (rd : BnIdx) (d : BigNum) (v : Nat) (sec : Bool) (t : State) : Prop where
  runs    : exec i s = .next t
  ok      : t.status.extractLsb' 0 8 = Status.code .ok
  holds   : t.bnAt rd = .valid ⟨d.room, false, sec, v⟩
  frame   : ∀ r, r ≠ rd → t.bnAt r = s.bnAt r
  engines : t.me = s.me
  cfg     : t.cfg = s.cfg

namespace CompletesWith

variable {i : Instr} {s t : State} {rd : BnIdx} {d : BigNum} {v : Nat} {sec : Bool}

/-- The host goes on after a command whose status is `OK` (section 7 of 30_encoding.md). -/
theorem issue_cons (h : CompletesWith i s rd d v sec t) (is : List Instr) : issue (i :: is) s = issue is t := by
  simp only [issue, h.runs, h.ok, if_true]

theorem meAt (h : CompletesWith i s rd d v sec t) (k : EngIdx) : t.meAt k = s.meAt k := by
  simp only [State.meAt, h.engines]

end CompletesWith

section Kernels

variable {s : State} {rd ra rb : BnIdx} {ed : EngIdx} {d a b : BigNum} {c : EngineCfg} {m : Modulus}

/-- Storing a kernel's result completes the command. -/
theorem completesWith_montInto {i : Instr} (hd : s.bnAt rd = .valid d) {ev : KEvent} {v : Nat} {sec : Bool}
    (hi : exec i s = finishCounted i.op s (montInto s rd ed m ev v sec)) : ∃ t, CompletesWith i s rd d v sec t := by
  obtain ⟨-, ⟨hholds, hframe⟩, hme, -, ⟨hcfg, -⟩, -, -⟩ := completed_writeBn v sec hd [ev]
    (kernelPasses (s.kselAt ed) m.L.toNat [ev]) i.op.code rfl
  rw [bnHolding_nat] at hholds
  exact ⟨_, hi, BitVec.extractLsb'_append_eq_right, hholds, hframe, hme, hcfg⟩

variable (hd : s.bnAt rd = .valid d) (ha : s.bnAt ra = .valid a) (he : s.meAt ed = .ready c m)
  (hra : a.neg = false ∧ a.mag < m.M) (hroom : m.L.toNat ≤ d.room.toNat)
include hd ha he hra hroom

/-- `ME_ENC` where the checks of R150 pass (R160). -/
theorem meEnc_completes : ∃ t, CompletesWith (.meEnc rd ra ed) s rd d (enc s.cfg.W m a.mag) a.sec t := by
  refine completesWith_montInto (ev := .mul) (ed := ed) (m := m) hd ?_
  exact congrArg (finishCounted .meEnc s) (withMont_ok hd ha he ((BigNum.inRange_iff _ _).2 hra) hroom _)

/-- `ME_DEC` where the checks of R150 pass (R161). -/
theorem meDec_completes : ∃ t, CompletesWith (.meDec rd ra ed) s rd d (dec s.cfg.W m a.mag) a.sec t := by
  refine completesWith_montInto (ev := .red) (ed := ed) (m := m) hd ?_
  exact congrArg (finishCounted .meDec s) (withMont_ok hd ha he ((BigNum.inRange_iff _ _).2 hra) hroom _)

/-- `ME_MUL` where the checks of R150 pass (R162). -/
theorem meMul_completes (hb : s.bnAt rb = .valid b) (hrb : b.neg = false ∧ b.mag < m.M) :
    ∃ t, CompletesWith (.meMul rd ra rb ed) s rd d (montMul s.cfg.W m a.mag b.mag) (a.sec || b.sec) t := by
  refine completesWith_montInto (ev := .mul) (ed := ed) (m := m) hd ?_
  exact congrArg (finishCounted .meMul s) (withMont2_ok hd ha hb he ((BigNum.inRange_iff _ _).2 hra)
    ((BigNum.inRange_iff _ _).2 hrb) hroom _)

end Kernels

/-- Settles O33: both operands are encoded, the kernel multiplies what they encode, and the last command decodes it; the
first source is read before `rd` is written, the second after only `rt` is. -/
theorem montMulmodGivesTheOrdinaryProduct : Obligations.MontMulmodGivesTheOrdinaryProduct := by
  intro s rd ra rb rt ed d a b u c m hs hd ha hb hu he htd htb hna hla hnb hlb hroom hroomt
  have hm := hs.ready he
  have hlt (x : Nat) : enc s.cfg.W m x < m.M := hm.enc_lt x
  -- `ME_ENC rt, ra`: the temporary holds the first operand, encoded.
  obtain ⟨t1, h1⟩ := meEnc_completes hu ha he ⟨hna, hla⟩ hroomt
  have he1 := (h1.meAt ed).trans he
  -- `ME_ENC rd, rb`: the second source is read as it was, since it is not the temporary.
  obtain ⟨t2, h2⟩ := meEnc_completes ((h1.frame rd htd.symm).trans hd) ((h1.frame rb htb.symm).trans hb) he1 ⟨hnb, hlb⟩ hroom
  have he2 := (h2.meAt ed).trans he1
  -- `ME_MUL rd, rt, rd`: the temporary still holds the first operand, since it is not the destination.
  have hrt := (h2.frame rt htd).trans h1.holds
  rw [h1.cfg] at h2
  obtain ⟨t3, h3⟩ := meMul_completes h2.holds hrt he2 ⟨rfl, hlt _⟩ hroom h2.holds ⟨rfl, hlt _⟩
  rw [h2.cfg, h1.cfg, hm.montMul_enc] at h3
  -- `ME_DEC rd, rd`: the encoded product, decoded.
  obtain ⟨t4, h4⟩ := meDec_completes h3.holds h3.holds ((h3.meAt ed).trans he2) ⟨rfl, hlt _⟩ hroom
  rw [h3.cfg, h2.cfg, h1.cfg, hm.dec_enc] at h4
  refine ⟨t4, ?_, h4.holds, fun r hrd hrt => ?_, ?_⟩
  · rw [expandPseudo, h1.issue_cons, h2.issue_cons, h3.issue_cons, h4.issue_cons, issue]
  · rw [h4.frame r hrd, h3.frame r hrd, h2.frame r hrd, h1.frame r hrt]
  · rw [h4.engines, h3.engines, h2.engines, h1.engines]

end Sys2Proof.Machine

/-! Proofs of the statements of 40_bignum.md: the adder/subtractor unit (R130) and the commands of the BigNumber family
(R121 to R129). -/

namespace Sys2Proof.Machine

/-! ### The adder/subtractor unit (R20, R130) -/

/-- An `n`-limb sum and its carry hold the whole sum (R20). -/
theorem limbsVal_addN {W : Nat} (hW : W ≤ 64) (n : Nat) (a b : Limbs) (cin : Nat) :
    limbsVal W (addN W n a b cin).1 + 2 ^ (W * n) * (addN W n a b cin).2 = limbsVal W a + limbsVal W b + cin := by
  have hlow := limbsVal_limbsOf_of_lt hW (Nat.mod_lt (limbsVal W a + limbsVal W b + cin) (Nat.two_pow_pos (W * n)))
  simp only [addN, hlow, Nat.mod_add_div]

/-- A difference that does not borrow is exact (R20). -/
theorem limbsVal_subN {W : Nat} (hW : W ≤ 64) {n : Nat} {a b : Limbs} (hle : limbsVal W b ≤ limbsVal W a)
    (hlt : limbsVal W a < 2 ^ (W * n)) : limbsVal W (subN W n a b 0).1 = limbsVal W a - limbsVal W b := by
  have hfit : limbsVal W a - limbsVal W b < 2 ^ (W * n) := by omega
  have hdiff : ((limbsVal W a : Int) - limbsVal W b - (0 : Nat)) % (2 ^ (W * n) : Nat) =
      (limbsVal W a - limbsVal W b : Nat) := by
    rw [Int.emod_eq_of_lt (by omega) (by omega)]
    omega
  simp only [subN, hdiff, Int.toNat_natCast, limbsVal_limbsOf_of_lt hW hfit]

section SignedSum

variable {W n x y : Nat} (hW : W ≤ 64) (hx : x < 2 ^ (W * n)) (hy : y < 2 ^ (W * n))
include hW hx hy

/-- Magnitudes that fit `n` limbs add exactly, the carry being limb `n`. -/
theorem limbsVal_addN_limbsOf :
    limbsVal W (addN W n (limbsOf W n x) (limbsOf W n y) 0).1 +
      2 ^ (W * n) * (addN W n (limbsOf W n x) (limbsOf W n y) 0).2 = x + y := by
  rw [limbsVal_addN hW, limbsVal_limbsOf_of_lt hW hx, limbsVal_limbsOf_of_lt hW hy, Nat.add_zero]

/-- The smaller of two magnitudes that fit `n` limbs is subtracted exactly from the larger. -/
theorem limbsVal_subN_limbsOf (hle : y ≤ x) :
    limbsVal W (subN W n (limbsOf W n x) (limbsOf W n y) 0).1 = x - y := by
  have hvx := limbsVal_limbsOf_of_lt hW hx
  have hvy := limbsVal_limbsOf_of_lt hW hy
  rw [limbsVal_subN hW (by rwa [hvx, hvy]) (by rwa [hvx]), hvx, hvy]

end SignedSum

/-- A number fits any number of limbs its size does not exceed. -/
theorem lt_two_pow_of_sig_le {W x n : Nat} (hW : 1 ≤ W) (h : sig W x ≤ n) : x < 2 ^ (W * n) :=
  ((sig_le_iff hW x n).1 h).2

/-- Settles O26: equal signs by the exact addition, opposite signs by the comparison and the exact subtraction of the
smaller magnitude. -/
theorem adderUnitGivesTheExactSignedSum : Obligations.AdderUnitGivesTheExactSignedSum := by
  intro W na nb a b hW1 hW
  have ha := lt_two_pow_of_sig_le hW1 (le_max_left (sig W a) (sig W b))
  have hb := lt_two_pow_of_sig_le hW1 (le_max_right (sig W a) (sig W b))
  by_cases hsign : na = nb
  · subst hsign
    have hsum := limbsVal_addN_limbsOf hW ha hb
    zify at hsum
    simp only [signedAdd, if_true, hsum]
    split <;> omega
  · obtain rfl : nb = !na := Bool.eq_not_iff.2 (Ne.symm hsign)
    simp only [signedAdd, if_neg hsign, cmpMag]
    split
    · next hcmp =>
      have hlt : a < b := compare_lt_iff_lt.1 hcmp
      rw [limbsVal_subN_limbsOf hW hb ha hlt.le]
      cases na <;> simp <;> omega
    · next hcmp =>
      have hge : b ≤ a := Nat.not_lt.1 fun hlt => hcmp (compare_lt_iff_lt.2 hlt)
      rw [limbsVal_subN_limbsOf hW ha hb hge]
      cases na <;> simp <;> omega

/-! ### How a command ends -/

/-- A counted command whose body comes to an error raises it (R244). -/
theorem raises_of_error {i : Instr} {s : State} {r : CmdResult} {st : Status} (hi : exec i s = finishCounted i.op s r)
    (hr : r = .error st) : Raises i s st := by
  subst hr
  exact ⟨_, hi, raised_raise s i.op.code st⟩

/-- A counted command whose body performs `evs` and writes `rd` completes, changing nothing else (R19, R23). -/
theorem completes_of_writeBn {i : Instr} {s : State} {r : CmdResult} {rd : BnIdx} {d : BigNum}
    (hd : s.bnAt rd = .valid d) (hi : exec i s = finishCounted i.op s r) {evs : List KEvent} {passes : List LimbOp}
    {v : Int} {sec : Bool} (hr : r = .respond ((s.kernel evs passes).writeBn rd v sec) 0 []) :
    ∃ t, exec i s = .next t ∧ AnswersOk s i.op.code 0 [] t ∧ WritesBn s rd (bnHolding d.room v sec) t ∧
      t.me = s.me ∧ KeepsScr s t ∧ KeepsInput s t ∧
      Counts s evs (evs.countP (· == .mul)) (evs.countP (· == .sqr)) (evs.countP (· == .red))
        (evs.countP KEvent.inSel) (evs.countP KEvent.inAdd) t := by
  subst hr
  obtain ⟨hans, hbn, hme, hscr, hin, -, hcnt⟩ := completed_writeBn v sec hd evs passes i.op.code rfl
  exact ⟨_, hi, hans, hbn, hme, hscr, hin, hcnt⟩

/-! ### `BN_CREATE`, `BN_SET`, `BN_GET`, `BN_COPY`, `BN_CMP` (R121 to R125) -/

/-- Settles O17: the check on the room, and the write of the whole register. -/
theorem bnCreateConstructsZero : Obligations.BnCreateConstructsZero := by
  intro s rd room
  refine ⟨fun hroom => raises_of_error rfl (if_pos hroom), fun hlow hhigh => ?_⟩
  have hroom : ¬(room.toNat = 0 ∨ s.cfg.RMAX < room.toNat) := by omega
  refine ⟨_, congrArg (finishCounted .bnCreate s) (if_neg hroom), answersOk_complete rfl _ _ _, ⟨?_, fun r hr => ?_⟩,
    rfl, ⟨fun _ => rfl, rfl⟩, ⟨rfl, rfl⟩, by simp [Counts]⟩
  · simp
  · simp [hr]

/-- Settles O18: the register must be constructed and the payload's value must fit its room. -/
theorem bnSetLoadsThePayload : Obligations.BnSetLoadsThePayload := by
  intro s rd neg sec payload
  refine ⟨fun hnone => raises_of_error rfl (withA_none hnone _), fun d hd => ⟨fun hwide => ?_, fun hfit => ?_⟩⟩
  · exact raises_of_error rfl ((withA_valid hd _).trans (if_pos hwide))
  · refine completes_of_writeBn (evs := []) (passes := []) hd rfl ((withA_valid hd _).trans ?_)
    rw [State.kernel_nil, if_neg (Nat.not_lt.2 hfit)]

/-- A concatenation has the value of its parts, the first shifted past the second. -/
theorem toNat_append_eq_add {m n : Nat} (x : BitVec m) (y : BitVec n) : (x ++ y).toNat = x.toNat * 2 ^ n + y.toNat := by
  rw [BitVec.toNat_append, ← Nat.shiftLeft_add_eq_or_of_lt y.isLt, Nat.shiftLeft_eq]

/-- The fields of the value of `BN_GET` add up, since none overlaps the next (R123). -/
theorem bnGetVal_eq {W : Nat} {b : BigNum} (hsize : sig W b.mag < 2 ^ 16) :
    bnGetVal W b = BitVec.ofNat 64 ((if b.neg then 2 ^ 63 else 0) + (if b.sec then 2 ^ 62 else 0)
      + b.room.toNat * 2 ^ 16 + sig W b.mag) := by
  have hroom := b.room.isLt
  have hbit (c : Bool) (k : Nat) : c.toNat * 2 ^ k = if c then 2 ^ k else 0 := by cases c <;> simp
  apply BitVec.eq_of_toNat_eq
  rw [BitVec.toNat_ofNat, ← hbit, ← hbit]
  have hneg := Bool.toNat_le b.neg
  have hsec := Bool.toNat_le b.sec
  simp only [bnGetVal, toNat_append_eq_add, BitVec.toNat_ofBool, BitVec.toNat_ofNat, BigNum.size, Nat.mod_eq_of_lt hsize]
  omega

/-- Settles O20: the value field by field, and the payload as the limb vector of the magnitude. -/
theorem bnGetReportsTheRegister : Obligations.BnGetReportsTheRegister := by
  intro s ra
  refine ⟨fun hnone => raises_of_error rfl (withA_none hnone _), fun a hs ha => ?_⟩
  have hW := hs.cfg_legal.W_le
  obtain ⟨-, -, hfit, -⟩ := hs.reg ha
  refine ⟨limbsOf s.cfg.W (sig s.cfg.W a.mag) a.mag, ?_, length_limbsOf .., ?_, limbsOf_lt hW _ _⟩
  · rw [← bnGetVal_eq (hfit.trans_lt a.room.isLt)]
    exact congrArg (finishCounted .bnGet s) (withA_valid ha _)
  · exact limbsVal_limbsOf_of_lt hW (lt_two_pow_sig hs.cfg_legal.W_pos _)

/-- Settles O21: both registers must be constructed and the source must fit the destination's room. -/
theorem bnCopyCopiesValueSignAndSecrecy : Obligations.BnCopyCopiesValueSignAndSecrecy := by
  intro s rd ra
  refine ⟨fun hnone => raises_of_error rfl (withDA_none hnone _), fun d a hd ha => ⟨fun hwide => ?_, fun hfit => ?_⟩⟩
  · exact raises_of_error rfl ((withDA_valid hd ha _).trans (if_pos hwide))
  · refine completes_of_writeBn (evs := []) (passes := []) hd rfl ((withDA_valid hd ha _).trans ?_)
    rw [State.kernel_nil, if_neg (Nat.not_lt.2 hfit)]

/-- The three answers of a comparison (R125). -/
theorem cmpVal_cmpMag (x y : Nat) :
    cmpVal (cmpMag x y) = if x = y then 0 else if y < x then 1 else 0xFFFFFFFFFFFFFFFF := by
  unfold cmpMag
  rcases lt_trichotomy x y with hlt | heq | hgt
  · rw [compare_lt_iff_lt.2 hlt, if_neg hlt.ne, if_neg hlt.not_gt, cmpVal]
  · rw [compare_eq_iff_eq.2 heq, if_pos heq, cmpVal]
  · rw [compare_gt_iff_gt.2 hgt, if_neg hgt.ne', if_pos hgt, cmpVal]

/-- Settles O22: one comparison of the magnitudes, which is no kernel event. -/
theorem bnCmpComparesMagnitudes : Obligations.BnCmpComparesMagnitudes := by
  intro s ra rb
  refine ⟨fun hnone => raises_of_error rfl (withDA_none hnone _), fun a b ha hb => ?_⟩
  rw [← cmpVal_cmpMag]
  exact ⟨_, congrArg (finishCounted .bnCmp s) (withDA_valid ha hb _), answersOk_complete rfl _ _ _, rfl, rfl,
    ⟨fun _ => rfl, rfl⟩, ⟨rfl, rfl⟩, by simp [Counts]⟩

/-! ### `BN_ADD`, `BN_SUB`, `BN_MUL`, `BN_MOD` (R126 to R129) -/

/-- A command whose body is `addInto` with the integer operation `f` writes the exact result, or raises `SizeError` when
it does not fit (R126, R127). -/
theorem signedSum_command {i : Instr} {s : State} {rd ra rb : BnIdx} {f : Int → Int → Int}
    {passes : BigNum → BigNum → List LimbOp}
    (hi : exec i s = finishCounted i.op s (withDAB s rd ra rb fun d a b =>
      addInto s rd d (passes a b) (f a.value b.value) (a.sec || b.sec))) :
    ((s.bnAt rd = .none ∨ s.bnAt ra = .none ∨ s.bnAt rb = .none) → Raises i s .contextMismatch) ∧
    ∀ d a b, s.bnAt rd = .valid d → s.bnAt ra = .valid a → s.bnAt rb = .valid b →
      (d.room.toNat < sig s.cfg.W (f a.value b.value).natAbs → Raises i s .sizeError) ∧
      (sig s.cfg.W (f a.value b.value).natAbs ≤ d.room.toNat →
        ∃ t, exec i s = .next t ∧ AnswersOk s i.op.code 0 [] t ∧
          WritesBn s rd (bnHolding d.room (f a.value b.value) (a.sec || b.sec)) t ∧
          t.me = s.me ∧ KeepsScr s t ∧ KeepsInput s t ∧ Counts s [.add] 0 0 0 0 1 t) := by
  refine ⟨fun hnone => raises_of_error hi (withDAB_none hnone _), fun d a b hd ha hb => ⟨fun hwide => ?_, fun hfit => ?_⟩⟩
  · exact raises_of_error hi ((withDAB_valid hd ha hb _).trans (if_pos hwide))
  · exact completes_of_writeBn hd hi ((withDAB_valid hd ha hb _).trans (if_neg (Nat.not_lt.2 hfit)))

/-- Settles O23: both commands are `addInto` with their own integer operation. -/
theorem bnAddAndSubAreExact : Obligations.BnAddAndSubAreExact := by
  intro s rd ra rb i op f hi
  obtain ⟨rfl, rfl, rfl⟩ | ⟨rfl, rfl, rfl⟩ := hi
  · exact signedSum_command (passes := fun a b => addPasses s.cfg.W a b (a.neg != b.neg)) rfl
  · exact signedSum_command (passes := fun a b => addPasses s.cfg.W a b (a.neg == b.neg)) rfl

/-- Settles O24: the room is checked against the length of the product, and the product is written. -/
theorem bnMulIsTheSignedProduct : Obligations.BnMulIsTheSignedProduct := by
  intro s rd ra rb
  refine ⟨fun hnone => raises_of_error rfl (withDAB_none hnone _), fun d a b hd ha hb => ⟨fun hwide => ?_, fun hfit => ?_⟩⟩
  · exact raises_of_error rfl ((withDAB_valid hd ha hb _).trans (if_pos hwide))
  · exact completes_of_writeBn hd rfl ((withDAB_valid hd ha hb _).trans (if_neg (Nat.not_lt.2 hfit)))

/-- The floor residue by a nonzero modulus is a natural number below it, a multiple away from the dividend. -/
theorem exists_residue (x : Int) {n : Nat} (hn : n ≠ 0) :
    ∃ v : Nat, x % (n : Int) = v ∧ v < n ∧ (n : Int) ∣ x - v := by
  obtain ⟨v, hv⟩ := Int.eq_ofNat_of_zero_le (Int.emod_nonneg x (Int.natCast_ne_zero.2 hn))
  refine ⟨v, hv, ?_, ?_⟩
  · have := Int.emod_lt_of_pos x (Int.natCast_pos.2 (Nat.pos_of_ne_zero hn))
    omega
  · rw [← hv]
    exact Int.dvd_self_sub_emod

/-- Settles O25: the checks in their order, then the residue of the integers. -/
theorem bnModIsTheFloorResidue : Obligations.BnModIsTheFloorResidue := by
  intro s rd ra rb
  refine ⟨fun hnone => raises_of_error rfl (withDAB_none hnone _), fun d a b hd ha hb =>
    ⟨fun hzero => ?_, fun hne hneg => ?_, fun hne hpos hwide => ?_, fun hne hpos hfit => ?_⟩⟩
  · exact raises_of_error rfl ((withDAB_valid hd ha hb _).trans (if_pos hzero))
  · refine raises_of_error rfl ((withDAB_valid hd ha hb _).trans ?_)
    rw [if_neg hne, if_pos hneg]
  · refine raises_of_error rfl ((withDAB_valid hd ha hb _).trans ?_)
    rw [if_neg hne, if_neg (Bool.eq_false_iff.1 hpos), if_pos hwide]
  · obtain ⟨v, hv, hlt, hdvd⟩ := exists_residue a.value hne
    obtain ⟨t, ht, hans, hbn, hrest⟩ := completes_of_writeBn (i := .bnMod rd ra rb) hd rfl
      ((withDAB_valid hd ha hb _).trans ((if_neg hne).trans ((if_neg (Bool.eq_false_iff.1 hpos)).trans
        (if_neg (Nat.not_lt.2 hfit)))))
    rw [hv, bnHolding_nat] at hbn
    exact ⟨t, v, ht, hans, hlt, hdvd, hbn, hrest⟩

end Sys2Proof.Machine

/-! Proofs of the statements of 41_montgomery.md: constructing, binding and reading an engine (R157 to R159), the five
arithmetic commands (R160 to R164) and the laws of their kernels (R165). -/

namespace Sys2Proof.Machine

open Sys2Proof.Claims

/-! ### `ME_CREATE` (R157) -/

/-- Settles O28: the check on the maximum, and the write of the whole engine. -/
theorem meCreateConstructsAnEngine : Obligations.MeCreateConstructsAnEngine := by
  intro s ed maxbits
  refine ⟨fun hbad => raises_of_error rfl (if_pos hbad), fun hlow hhigh => ?_⟩
  have hgood : ¬(maxbits.toNat = 0 ∨ maxBits s.cfg < maxbits.toNat) :=
    not_or.2 ⟨Nat.ne_of_gt hlow, Nat.not_lt.2 hhigh⟩
  exact ⟨_, congrArg (finishCounted .meCreate s) (if_neg hgood), completed_setMe ed _ _ rfl⟩

/-! ### `ME_INIT` (R158) -/

/-- The lengths a modulus is stored with are its own where their 16 bits can hold its bit length. -/
theorem modulusOf_lengths {W M : Nat} (hW : 1 ≤ W) (hM : M % 2 = 1) (hbits : bitlen M < 2 ^ 16) :
    (modulusOf W M).modbits.toNat = bitlen M ∧ (modulusOf W M).L.toNat = sig W M := by
  have hsig := sig_le_bitlen hW (x := M) (by omega)
  simp only [modulusOf, BitVec.toNat_ofNat]
  exact ⟨Nat.mod_eq_of_lt hbits, Nat.mod_eq_of_lt (hsig.trans_lt hbits)⟩

section MeInit

variable {s : State} {ed : EngIdx} {ra : BnIdx} {a : BigNum} {c : EngineCfg}

theorem meInit_raises_contextMismatch (h : s.bnAt ra = .none ∨ s.meAt ed = .none) :
    Raises (.meInit ed ra) s .contextMismatch := by
  refine raises_of_error rfl (withA_cases (P := (· = .error .contextMismatch)) (fun _ => rfl) fun a ha => ?_)
  have hed : s.meAt ed = .none := h.resolve_left (by simp [ha])
  simp only [hed]

/-- On a constructed engine, bound or not, `ME_INIT` goes by the engine's configuration alone. -/
theorem exec_meInit_constructed (ha : s.bnAt ra = .valid a)
    (hc : s.meAt ed = .created c ∨ ∃ m, s.meAt ed = .ready c m) :
    exec (.meInit ed ra) s = finishCounted .meInit s (meInitOn s ed c a) := by
  refine congrArg (finishCounted .meInit s) ((withA_valid ha _).trans ?_)
  obtain hc | ⟨m, hc⟩ := hc <;> simp only [hc]

end MeInit

/-- Settles O29: the checks in their order, then the constants of the new modulus. -/
theorem meInitBindsTheModulus : Obligations.MeInitBindsTheModulus := by
  intro s ed ra hW
  refine ⟨meInit_raises_contextMismatch, fun a c ha hc => ?_⟩
  have hexec := exec_meInit_constructed ha hc
  have hgood (hpos : a.neg = false) (hodd : a.mag % 2 = 1) : ¬(a.neg = true ∨ a.mag % 2 = 0) := by simp [hpos, hodd]
  refine ⟨fun hbad => ?_, fun hpos hodd hwide => ?_, fun hpos hodd hfit => ?_⟩
  · exact raises_of_error hexec (if_pos hbad)
  · exact raises_of_error hexec ((if_neg (hgood hpos hodd)).trans (if_pos hwide))
  · have hbody : meInitOn s ed c a = .respond (s.setMe ed (.ready c (modulusOf s.cfg.W a.mag))) 0 [] :=
      (if_neg (hgood hpos hodd)).trans (if_neg (Nat.not_lt.2 hfit))
    obtain ⟨hmodbits, hL⟩ := modulusOf_lengths hW hodd (hfit.trans_lt c.maxbits.isLt)
    obtain ⟨hn0, hn0_lt⟩ := montN0_spec hW hodd
    obtain ⟨hans, hme, hframe⟩ := completed_setMe (s := s) ed (.ready c (modulusOf s.cfg.W a.mag)) 0x21 rfl
    exact ⟨_, modulusOf s.cfg.W a.mag, hexec.trans (congrArg _ hbody), hans, hme, rfl, hmodbits, hL, rfl, rfl, hn0,
      hn0_lt, hframe⟩

/-! ### `ME_GET` (R159) -/

/-- The fields of the value of `ME_GET` add up, since none overlaps the next (R159). -/
theorem meGetVal_eq (state : BitVec 2) (c : EngineCfg) (modbits : BitVec 16) :
    meGetVal state c modbits = BitVec.ofNat 64 (state.toNat * 2 ^ 62 + c.ksel.toNat * 2 ^ 48 + c.maxbits.toNat * 2 ^ 16
      + modbits.toNat) := by
  have hstate := state.isLt
  have hksel := c.ksel.isLt
  have hmaxbits := c.maxbits.isLt
  have hmodbits := modbits.isLt
  apply BitVec.eq_of_toNat_eq
  simp only [meGetVal, toNat_append_eq_add, BitVec.toNat_ofNat]
  omega

/-- Settles O30: the selector, then the engine's state, then what the selector names. -/
theorem meGetReportsTheEngine : Obligations.MeGetReportsTheEngine := by
  intro s ed sel
  refine ⟨fun hsel => raises_of_error rfl (if_pos hsel), fun hsel hnone => ?_, fun c hc hlow hsel => ?_,
    fun c hc hsel => ?_, fun c m payload hc hmem => ?_⟩
  · refine raises_of_error rfl ((if_neg (Nat.not_lt.2 hsel)).trans ?_)
    simp only [hnone]
  · refine raises_of_error rfl ((if_neg (Nat.not_lt.2 hsel)).trans ?_)
    simp only [hc]
    exact if_neg (Nat.ne_of_gt hlow)
  · subst hsel
    have hbody : exec (.meGet ed 0) s = finishCounted .meGet s (.respond s (meGetVal 1 c 0) []) := by
      refine congrArg (finishCounted .meGet s) ((if_neg (by decide)).trans ?_)
      simp only [hc]
      exact if_pos rfl
    rw [hbody, meGetVal_eq]
    rfl
  · have hpayload : sel.toNat ≤ 4 ∧ meGetPayload s.cfg.W m sel = payload := by
      simp only [List.mem_cons, Prod.mk.injEq, List.not_mem_nil, or_false] at hmem
      obtain ⟨rfl, rfl⟩ | ⟨rfl, rfl⟩ | ⟨rfl, rfl⟩ | ⟨rfl, rfl⟩ | ⟨rfl, rfl⟩ := hmem <;> exact ⟨by decide, rfl⟩
    obtain ⟨hsel, rfl⟩ := hpayload
    have hbody : exec (.meGet ed sel) s =
        finishCounted .meGet s (.respond s (meGetVal 2 c m.modbits) (meGetPayload s.cfg.W m sel)) := by
      refine congrArg (finishCounted .meGet s) ((if_neg (Nat.not_lt.2 hsel)).trans ?_)
      simp only [hc]
    rw [hbody, meGetVal_eq]
    rfl

/-! ### The first cause of an error (R242, R245) -/

/-- What the body of a command comes to is what R245 asks: an error is a cause before which no other applies, and a
command completes where no cause applies. -/
def CmdResult.FirstCause (i : Instr) (s : State) : CmdResult → Prop
  | .error st => HasCause i s st ∧ ∀ st', HasCause i s st' → st.rank ≤ st'.rank
  | .respond _ _ _ => ∀ st, ¬HasCause i s st

/-- A counted command whose body answers so raises the first cause. -/
theorem raisesFirstCause_of_body {i : Instr} {s : State} {r : CmdResult} (hi : exec i s = finishCounted i.op s r)
    (hr : r.FirstCause i s) : RaisesFirstCause i s := by
  intro st hst
  cases r with
  | error st' => exact ⟨st', hr.1, hr.2 st hst, raises_of_error hi rfl⟩
  | respond s' val payload => exact absurd hst (hr st)

section Operands

variable {s : State} {rd r : BnIdx} {ed : EngIdx} {b d : BigNum} {e : EngineCfg} {m : Modulus}

/-- Against the modulus of a READY engine, the `OutOfRange` cause is the test of R150 failing. -/
theorem outsideModulus_iff (hr : s.bnAt r = .valid b) (he : s.meAt ed = .ready e m) (bound : Modulus → Nat) :
    outsideModulus s r ed bound ↔ b.inRange (bound m) = false := by
  have hout : b.inRange (bound m) = false ↔ b.neg = true ∨ bound m ≤ b.mag := by
    rw [← Bool.not_eq_true, BigNum.inRange_iff, not_and_or, Bool.not_eq_false, Nat.not_lt]
  simp [outsideModulus, hr, he, hout]

/-- Against the modulus of a READY engine, the `SizeError` cause is the test of R150 on the room. -/
theorem roomBelowEngine_iff (hd : s.bnAt rd = .valid d) (he : s.meAt ed = .ready e m) :
    roomBelowEngine s rd ed ↔ d.room.toNat < m.L.toNat := by
  simp [roomBelowEngine, roomBelow, hd, he]

end Operands

/-- The rows of R242 for a command of R160 to R164, which writes `rd` and reads `srcs` on the engine `ed`: no row of
`IllegalCommand` or `BadArgument`, and the room of `rd` under `SizeError`. -/
structure MontRows (i : Instr) (rd : BnIdx) (srcs : List BnIdx) (ed : EngIdx) : Prop where
  wf      : i.wf = true
  regs    : cmdRegs i = rd :: srcs
  engines : cmdEngines i = [ed]
  ready   : cmdReadyEngines i = [ed]
  bad     : ∀ s, badArgumentCause i s = False
  room    : ∀ s, sizeErrorCause i s = roomBelowEngine s rd ed

namespace MontRows

variable {s : State} {i : Instr} {rd ra rb : BnIdx} {srcs : List BnIdx} {ed : EngIdx} {d : BigNum}

section

variable (h : MontRows i rd srcs ed)
include h

theorem contextMismatch_iff :
    HasCause i s .contextMismatch ↔ (∃ r ∈ rd :: srcs, s.bnAt r = .none) ∨ s.meAt ed = .none := by
  simp [HasCause, h.regs, h.engines]

theorem incompleteContext_iff : HasCause i s .incompleteContext ↔ ∃ e, s.meAt ed = .created e := by
  simp [HasCause, h.ready]

theorem sizeError_iff : HasCause i s .sizeError ↔ roomBelowEngine s rd ed := by
  simp [HasCause, h.room]

/-- Only the four statuses of R150 have a cause. -/
theorem cause_cases {P : Status → Prop} {st : Status} (hst : HasCause i s st)
    (hctx : HasCause i s .contextMismatch → P .contextMismatch)
    (hinc : HasCause i s .incompleteContext → P .incompleteContext)
    (hrange : HasCause i s .outOfRange → P .outOfRange) (hroom : HasCause i s .sizeError → P .sizeError) : P st := by
  cases st with
  | contextMismatch => exact hctx hst
  | incompleteContext => exact hinc hst
  | outOfRange => exact hrange hst
  | sizeError => exact hroom hst
  | badArgument => exact (cast (h.bad s) hst).elim
  | illegalCommand => exact absurd (h.wf.symm.trans hst.2) (by decide)
  | ok => exact hst.elim
  | insufficientEntropy => exact hst.elim
  | internalError => exact hst.elim

/-- An error is the first cause when those of the four that come before it are shut out. -/
theorem firstCause_error {st : Status} (hst : HasCause i s st)
    (hctx : HasCause i s .contextMismatch → st.rank ≤ Status.rank .contextMismatch)
    (hinc : HasCause i s .incompleteContext → st.rank ≤ Status.rank .incompleteContext)
    (hrange : HasCause i s .outOfRange → st.rank ≤ Status.rank .outOfRange)
    (hroom : HasCause i s .sizeError → st.rank ≤ Status.rank .sizeError) : (CmdResult.error st).FirstCause i s :=
  ⟨hst, fun _ hst' => h.cause_cases (P := (st.rank ≤ ·.rank)) hst' hctx hinc hrange hroom⟩

/-- For a register or an engine that was never constructed, `ContextMismatch` is the first of the four. -/
theorem firstCause_context (hc : (∃ r ∈ rd :: srcs, s.bnAt r = .none) ∨ s.meAt ed = .none) :
    (CmdResult.error .contextMismatch).FirstCause i s :=
  h.firstCause_error (h.contextMismatch_iff.2 hc) (fun _ => by decide) (fun _ => by decide) (fun _ => by decide)
    fun _ => by decide

/-- With the registers constructed, the engine, the operands' range and the room are tested in the order of R245. -/
theorem firstCause_withReady (hregs : ¬∃ r ∈ rd :: srcs, s.bnAt r = .none) (hd : s.bnAt rd = .valid d)
    {out : Modulus → Bool} (hrange : ∀ e m, s.meAt ed = .ready e m → (outOfRangeCause i s ↔ out m = true))
    {k : Modulus → CmdResult} (hk : ∀ m, ∃ s' v p, k m = .respond s' v p) :
    (withReady s ed fun m =>
      if out m then .error .outOfRange
      else if d.room.toNat < m.L.toNat then .error .sizeError
      else k m).FirstCause i s := by
  have no_context (hne : s.meAt ed ≠ .none) : ¬HasCause i s .contextMismatch :=
    mt h.contextMismatch_iff.1 (not_or.2 ⟨hregs, hne⟩)
  refine withReady_cases (fun hnone => h.firstCause_context (.inr hnone)) (fun e he => ?_) fun e m he => ?_
  · have hctx := no_context (by simp [he])
    exact h.firstCause_error (h.incompleteContext_iff.2 ⟨e, he⟩) (absurd · hctx) (fun _ => by decide)
      (fun _ => by decide) fun _ => by decide
  · have hctx := no_context (by simp [he])
    have hinc : ¬HasCause i s .incompleteContext := by simp [h.incompleteContext_iff, he]
    have hsize : HasCause i s .sizeError ↔ d.room.toNat < m.L.toNat := h.sizeError_iff.trans (roomBelowEngine_iff hd he)
    split
    · next hout =>
      exact h.firstCause_error ((hrange e m he).2 hout) (absurd · hctx) (absurd · hinc) (fun _ => by decide)
        fun _ => by decide
    · next hin =>
      have hno : ¬HasCause i s .outOfRange := mt (hrange e m he).1 hin
      split
      · next hsmall =>
        exact h.firstCause_error (hsize.2 hsmall) (absurd · hctx) (absurd · hinc) (absurd · hno) fun _ => by decide
      · next hfits =>
        obtain ⟨s', v, p, hrespond⟩ := hk m
        rw [hrespond]
        exact fun st hst => h.cause_cases (P := fun _ => False) hst hctx hinc hno (mt hsize.1 hfits)

end

/-- The commands of one source (R160, R161, R163, R164). -/
theorem firstCause_withMont (h : MontRows i rd [ra] ed) {bound : Modulus → Nat}
    (hrange : outOfRangeCause i s = outsideModulus s ra ed bound) {k : BigNum → Modulus → CmdResult}
    (hk : ∀ a m, ∃ s' v p, k a m = .respond s' v p) : (withMont s rd ra ed bound k).FirstCause i s := by
  refine withDA_cases (fun hnone => h.firstCause_context (.inl (by simpa using hnone))) fun d a hd ha => ?_
  refine h.firstCause_withReady (by simp [hd, ha]) hd (fun e m he => ?_) (hk a)
  rw [hrange, outsideModulus_iff ha he, Bool.not_eq_true']

/-- The command of two sources (R162). -/
theorem firstCause_withMont2 (h : MontRows i rd [ra, rb] ed)
    (hrange : outOfRangeCause i s = (outsideModulus s ra ed Modulus.M ∨ outsideModulus s rb ed Modulus.M))
    {k : BigNum → BigNum → Modulus → CmdResult} (hk : ∀ a b m, ∃ s' v p, k a b m = .respond s' v p) :
    (withMont2 s rd ra rb ed k).FirstCause i s := by
  refine withDAB_cases (fun hnone => h.firstCause_context (.inl (by simpa using hnone))) fun d a b hd ha hb => ?_
  refine h.firstCause_withReady (by simp [hd, ha, hb]) hd (fun e m he => ?_) (hk a b)
  rw [hrange, outsideModulus_iff ha he, outsideModulus_iff hb he, Bool.not_eq_true', Bool.and_eq_false_iff]

end MontRows

/-- Each of the five commands raises the first cause there is. -/
theorem montgomery_raisesFirstCause {i : Instr} (s : State)
    (hi : i.op ∈ [.meEnc, .meDec, .meMul, .meSqr, .meRed]) : RaisesFirstCause i s := by
  cases i with
  | meEnc rd ra ed | meDec rd ra ed | meSqr rd ra ed | meRed rd ra ed =>
    exact raisesFirstCause_of_body rfl (MontRows.firstCause_withMont ⟨rfl, rfl, rfl, rfl, fun _ => rfl, fun _ => rfl⟩ rfl
      fun _ _ => ⟨_, _, _, rfl⟩)
  | meMul rd ra rb ed =>
    exact raisesFirstCause_of_body rfl (MontRows.firstCause_withMont2 ⟨rfl, rfl, rfl, rfl, fun _ => rfl, fun _ => rfl⟩ rfl
      fun _ _ _ => ⟨_, _, _, rfl⟩)
  | _ => simp [Instr.op] at hi

/-! ### `ME_ENC`, `ME_DEC`, `ME_MUL`, `ME_SQR`, `ME_RED` (R160 to R164) -/

section Stores

variable {s : State} {m : Modulus} {rd : BnIdx} {ed : EngIdx} {d : BigNum} {c : EngineCfg} {i : Instr} {op : BitVec 8}
  {ev : KEvent} {T : Nat} {sec : Bool}

theorem montCommand_op (h : MontCommand s m rd ed i op ev T sec) : op = i.op.code := by cases h <;> rfl

/-- Where the checks pass, each of the five commands stores one reduction, that of its `T`, with its own event. -/
theorem montCommand_exec (hd : s.bnAt rd = .valid d) (he : s.meAt ed = .ready c m) (hroom : m.L.toNat ≤ d.room.toNat)
    (h : MontCommand s m rd ed i op ev T sec) :
    exec i s = finishCounted i.op s (montInto s rd ed m ev (montRed s.cfg.W m T) sec) := by
  cases h with
  | enc ra a ha hn hl | dec ra a ha hn hl | sqr ra a ha hn hl | red ra a ha hn hl =>
    exact congrArg (finishCounted _ s) (withMont_ok hd ha he ((BigNum.inRange_iff _ _).2 ⟨hn, hl⟩) hroom _)
  | mul ra rb a b ha hb hna hla hnb hlb =>
    exact congrArg (finishCounted _ s) (withMont2_ok hd ha hb he ((BigNum.inRange_iff _ _).2 ⟨hna, hla⟩)
      ((BigNum.inRange_iff _ _).2 ⟨hnb, hlb⟩) hroom _)

/-- The one event of a command of R160 to R164 is in its own counter and in no other (R56). -/
theorem montCommand_counts {t : State} (h : MontCommand s m rd ed i op ev T sec)
    (hc : Counts s [ev] ([ev].countP (· == .mul)) ([ev].countP (· == .sqr)) ([ev].countP (· == .red))
      ([ev].countP KEvent.inSel) ([ev].countP KEvent.inAdd) t) :
    Counts s [ev] (if ev = .mul then 1 else 0) (if ev = .sqr then 1 else 0) (if ev = .red then 1 else 0) 0 0 t := by
  cases h <;> exact hc

end Stores

/-- Settles O31: a body of checks that raises the first cause, and otherwise the one reduction each command stores. -/
theorem montgomeryCommandsComputeTheirKernel : Obligations.MontgomeryCommandsComputeTheirKernel := by
  refine ⟨fun i s hi => montgomery_raisesFirstCause s hi, fun s rd ed d c m i op ev T sec hs hd he hroom hi => ?_⟩
  obtain ⟨hlt, hcong⟩ := montRed_spec s.cfg.W (hs.ready he).odd T
  obtain ⟨t, ht, hans, hbn, hme, hscr, hin, hcnt⟩ := completes_of_writeBn hd (montCommand_exec hd he hroom hi) rfl
  rw [bnHolding_nat] at hbn
  rw [← montCommand_op hi] at hans
  exact ⟨t, _, ht, hans, hlt, hcong, hbn, hme, hscr, hin, montCommand_counts hi hcnt⟩

/-! ### The kernel laws (R165) -/

/-- Settles O32: the laws of the engine's kernels, for operands that are their own residues. -/
theorem kernelLawsOfAReadyEngine : Obligations.KernelLawsOfAReadyEngine := by
  intro s ed c m x y hs he hx hy
  have hm := hs.ready he
  refine ⟨?_, ?_, hm.montMul_R hx, rfl, rfl, hm.enc_eq x⟩
  · rw [hm.dec_enc, Nat.mod_eq_of_lt hx]
  · rw [hm.montMul_enc, hm.dec_enc]

end Sys2Proof.Machine

/-! Proofs of the statements of 42_exponentiation.md: what the three methods compute, perform and access (R181 to R188), the
table of the windowed one (R190 to R195), and the order of their checks (R180). -/

namespace Sys2Proof.Machine

open Sys2Proof.Claims

/-! ### The lookup (R193, R194) -/

/-- Settles O39: the table is read back limb by limb, and the oblivious lookup is a read of the slot's limbs. -/
theorem lookupReturnsTheEntry : Obligations.LookupReturnsTheEntry := by
  intro W L sbase w k T mem _ hW hk hlen hT hmem
  have hentry : T.getD k 0 < 2 ^ (W * L) := by
    rw [List.getD_eq_getElem _ _ (hlen ▸ hk)]
    exact hT _ (List.getElem_mem _)
  exact lookupVal_eq hW hk hentry fun j hj => read_table hmem hk hj

/-! ### The events of the methods (R183 to R185) -/

/-- The events of `EXP_BIN` for the exponent `E` (R183). -/
def expBinEvents (E : Nat) : List KEvent :=
  .mul :: ((List.range (bitlen E)).reverse.flatMap fun i => if E.testBit i then [.sqr, .mul] else [.sqr]) ++ [.red]

/-- The events of `EXP_CT` for an exponent of `n` bits (R184). -/
def expCtEvents (n : Nat) : List KEvent := .mul :: (List.replicate n [.sqr, .sel 2, .mul]).flatten ++ [.red]

/-- The events of `EXP_WIN` for an exponent of `n` bits and windows of `w` (R185). -/
def expWinEvents (n w : Nat) : List KEvent :=
  List.replicate (2 ^ w - 1) .mul ++
    (List.replicate (ceilDiv n w) (List.replicate w .sqr ++ [.sel (2 ^ w), .mul])).flatten ++ [.red]

theorem expBinRun_events (W : Nat) (m : Modulus) (mem : Memory) (X E : Nat) :
    (expBinRun W m mem X E).events = expBinEvents E := by
  rw [(expBinRun_facts W m mem X E).1, bitsDown, List.flatMap_map, expBinEvents]

/-- How many events of a list stand in each counter, `CNT_MUL` to `CNT_ADD` (R56). -/
def EventCounts (evs : List KEvent) (mul sqr red sel add : Nat) : Prop :=
  evs.countP (· == .mul) = mul ∧ evs.countP (· == .sqr) = sqr ∧ evs.countP (· == .red) = red ∧
    evs.countP KEvent.inSel = sel ∧ evs.countP KEvent.inAdd = add

theorem eventCounts_expBinEvents (E : Nat) :
    EventCounts (expBinEvents E) (1 + popcount (bitlen E) E) (bitlen E) 1 0 0 := by
  have hbits (is : List Nat) : EventCounts (is.flatMap fun i => if E.testBit i then [.sqr, .mul] else [.sqr])
      (is.filter fun i => E.testBit i).length is.length 0 0 0 := by
    induction is with
    | nil => exact ⟨rfl, rfl, rfl, rfl, rfl⟩
    | cons i is ih =>
      obtain ⟨hmul, hsqr, hred, hsel, hadd⟩ := ih
      cases hi : E.testBit i <;> simp [EventCounts, hi, hmul, hsqr, hred, hsel, hadd, KEvent.inSel, KEvent.inAdd]
  obtain ⟨hmul, hsqr, hred, hsel, hadd⟩ := hbits (List.range (bitlen E)).reverse
  simp [EventCounts, expBinEvents, popcount, hmul, hsqr, hred, hsel, hadd, KEvent.inSel, KEvent.inAdd]
  omega

theorem eventCounts_expCtEvents (n : Nat) : EventCounts (expCtEvents n) (1 + n) n 1 n 0 := by
  simp [EventCounts, expCtEvents, List.countP_flatten, List.countP_cons, KEvent.inSel, KEvent.inAdd, Nat.add_comm]

theorem eventCounts_expWinEvents (n w : Nat) :
    EventCounts (expWinEvents n w) (2 ^ w - 1 + ceilDiv n w) (ceilDiv n w * w) 1 (ceilDiv n w) 0 := by
  simp [EventCounts, expWinEvents, List.countP_flatten, List.countP_cons, List.countP_replicate, KEvent.inSel, KEvent.inAdd]

/-! ### A command whose checks pass (R180 to R185) -/

/-- A run without kernels: the value it writes, the scratch memory as it stands (R181). -/
def idleRun (v : Nat) (mem : Memory) : Run := { acc := v, events := [], mem := mem, accesses := [] }

/-- What a command of R183 to R185 performs, the special cases of R181 among it. -/
def finalRun (s : State) (a b : BigNum) (m : Modulus) (run : Run) : Run :=
  if b.mag = 0 ∨ a.mag = 0 then idleRun (if b.mag = 0 then m.R else 0) s.scr else run

/-- A command of R183 to R185 whose own checks pass, with its run outside the special cases: the secrecy check of
`EXP_BIN` (R188), the window checks of `EXP_WIN` (R83). -/
inductive ExpCommand (s : State) (rd ra rb : BnIdx) (ed : EngIdx) (a b : BigNum) (m : Modulus) : Instr → Run → Prop where
  | bin (hsec : b.sec = false) :
      ExpCommand s rd ra rb ed a b m (.expBin rd ra rb ed) (expBinRun s.cfg.W m s.scr a.mag b.mag)
  | ct : ExpCommand s rd ra rb ed a b m (.expCt rd ra rb ed) (expCtRun s.cfg.W m s.scr a.mag b.mag)
  | win (sbase slen : BitVec 16) (hfit : WindowFits s b m sbase slen) :
      ExpCommand s rd ra rb ed a b m (.expWin rd ra rb ed sbase slen)
        (expWinRun s.cfg.W m s.scr sbase.toNat (wsel s.cfg (bitlen b.mag)) a.mag b.mag)

/-- `i` completes from `s` in `t`: `rd`, of content `d`, takes the value of `r`, and `t` has what `r` performed, left in
`SCR` and accessed, and no other change. -/
structure RunCompletes (i : Instr) (s : State) (rd : BnIdx) (d : BigNum) (sec : Bool) (r : Run) (t : State) : Prop where
  runs     : exec i s = .next t
  answers  : AnswersOk s i.op.code 0 [] t
  writes   : WritesBn s rd ⟨d.room, false, sec, r.acc⟩ t
  engines  : t.me = s.me
  scr      : t.scr = r.mem
  accesses : t.scrTrace = s.scrTrace ++ r.accesses
  input    : KeepsInput s t
  counts   : Counts s r.events (r.events.countP (· == .mul)) (r.events.countP (· == .sqr)) (r.events.countP (· == .red))
    (r.events.countP KEvent.inSel) (r.events.countP KEvent.inAdd) t

namespace RunCompletes

variable {i : Instr} {s t : State} {rd : BnIdx} {d : BigNum} {sec : Bool} {r : Run}

theorem keepsScr (h : RunCompletes i s rd d sec r t) (hmem : r.mem = s.scr) (hacc : r.accesses = []) : KeepsScr s t :=
  ⟨fun x => by rw [h.scr, hmem], by rw [h.accesses, hacc, List.append_nil]⟩

theorem counts_of_events (h : RunCompletes i s rd d sec r t) {evs : List KEvent} {mul sqr red sel add : Nat}
    (hevs : r.events = evs) (hc : EventCounts evs mul sqr red sel add) : Counts s evs mul sqr red sel add t := by
  subst hevs
  obtain ⟨rfl, rfl, rfl, rfl, rfl⟩ := hc
  exact h.counts

end RunCompletes

section Commands

variable {s : State} {rd ra rb : BnIdx} {ed : EngIdx} {d a b : BigNum} {m : Modulus} {i : Instr} {run : Run}

theorem finalRun_special (h : b.mag = 0 ∨ a.mag = 0) :
    finalRun s a b m run = idleRun (if b.mag = 0 then m.R else 0) s.scr := if_pos h

theorem finalRun_kernels (ha : 1 ≤ a.mag) (hb : 1 ≤ b.mag) : finalRun s a b m run = run :=
  if_neg (by omega)

/-- A special case is the run without kernels. -/
theorem expInto_eq_finalRun (s : State) (rd : BnIdx) (ed : EngIdx) (a b : BigNum) (m : Modulus) (run : Run) :
    ∃ passes, expInto s rd ed a b m run =
      .respond (((s.kernel (finalRun s a b m run).events passes).scrDone (finalRun s a b m run).mem
        (finalRun s a b m run).accesses).writeBn rd (finalRun s a b m run).acc (a.sec || b.sec)) 0 [] := by
  by_cases h : b.mag = 0 ∨ a.mag = 0
  · refine ⟨[], ?_⟩
    rw [expInto_special h, finalRun_special h]
    simp [idleRun, State.scrDone]
  · obtain ⟨hb, ha⟩ := not_or.1 h
    exact ⟨_, by rw [expInto_run hb ha, finalRun, if_neg h]⟩

theorem badWindow_of_fits {sbase slen : BitVec 16} (h : WindowFits s b m sbase slen) :
    badWindow s.cfg sbase.toNat slen.toNat b m = false := badWindow_eq_false_iff.2 h

/-- Where the checks pass, the body of each command is `expInto` with its own run. -/
theorem expCommand_exec (h : ExpReady s rd ra rb ed d a b m) (hi : ExpCommand s rd ra rb ed a b m i run) :
    exec i s = finishCounted i.op s (expInto s rd ed a b m run) := by
  obtain ⟨hd, ha, hb, ⟨c, he⟩, hn, hl, hroom⟩ := h
  have hrange := (BigNum.inRange_iff a m.M).2 ⟨hn, hl⟩
  cases hi with
  | bin hsec => exact congrArg (finishCounted .expBin s) (withExp_ok hd ha hb he hsec hrange hroom rfl _)
  | ct => exact congrArg (finishCounted .expCt s) (withExp_ok hd ha hb he rfl hrange hroom rfl _)
  | win sbase slen hfit =>
    exact congrArg (finishCounted .expWin s) (withExp_ok hd ha hb he rfl hrange hroom (badWindow_of_fits hfit) _)

/-- Where the checks pass, each command completes with its run. -/
theorem expCommand_completes (h : ExpReady s rd ra rb ed d a b m) (hi : ExpCommand s rd ra rb ed a b m i run) :
    ∃ t, RunCompletes i s rd d (a.sec || b.sec) (finalRun s a b m run) t := by
  obtain ⟨passes, hbody⟩ := expInto_eq_finalRun s rd ed a b m run
  have hexec := (expCommand_exec h hi).trans (congrArg (finishCounted i.op s) hbody)
  obtain ⟨hans, hbn, hme, hscr, htrace, hin, -, hcnt⟩ :=
    completed_run (finalRun s a b m run).acc (a.sec || b.sec) h.1 (finalRun s a b m run) passes i.op.code rfl
  exact ⟨_, hexec, hans, hbn, hme, hscr, htrace, hin, hcnt⟩

/-- Each run ends with `X^E mod M` (R186). -/
theorem expCommand_acc (hs : s.Inv) (h : ExpReady s rd ra rb ed d a b m) (hi : ExpCommand s rd ra rb ed a b m i run) :
    run.acc = a.mag ^ b.mag % m.M := by
  obtain ⟨-, -, -, ⟨c, he⟩, -⟩ := h
  have hm := hs.ready he
  cases hi with
  | bin => exact hm.expBinRun_acc _ _ _
  | ct => exact hm.expCtRun_acc hs.cfg_legal.W_le _ _ _
  | win => exact hm.expWinRun_acc hs.cfg_legal.W_le hs.scr_wf.1 _ _ _ (wsel_pos _ _)

/-- The value each command writes, the special cases among them (R181, R186). -/
theorem finalRun_acc (hs : s.Inv) (h : ExpReady s rd ra rb ed d a b m) (hi : ExpCommand s rd ra rb ed a b m i run) :
    (finalRun s a b m run).acc = if b.mag = 0 then m.R else if a.mag = 0 then 0 else a.mag ^ b.mag % m.M := by
  by_cases hb : b.mag = 0
  · simp [finalRun, idleRun, hb]
  · by_cases ha : a.mag = 0
    · simp [finalRun, idleRun, hb, ha]
    · simp [finalRun, hb, ha, expCommand_acc hs h hi]

/-- Outside the special cases each command completes with the run of its own loop. -/
theorem expCommand_completes_kernels (h : ExpReady s rd ra rb ed d a b m) (hi : ExpCommand s rd ra rb ed a b m i run)
    (ha : 1 ≤ a.mag) (hb : 1 ≤ b.mag) : ∃ t, RunCompletes i s rd d (a.sec || b.sec) run t := by
  simpa only [finalRun_kernels ha hb] using expCommand_completes h hi

theorem expCommand_writes (hs : s.Inv) (h : ExpReady s rd ra rb ed d a b m)
    (hi : ExpCommand s rd ra rb ed a b m i run) :
    ∃ t, exec i s = .next t ∧ AnswersOk s i.op.code 0 [] t ∧ WritesBn s rd ⟨d.room, false, a.sec || b.sec,
      if b.mag = 0 then m.R else if a.mag = 0 then 0 else a.mag ^ b.mag % m.M⟩ t := by
  obtain ⟨t, ht⟩ := expCommand_completes h hi
  exact ⟨t, ht.runs, ht.answers, finalRun_acc hs h hi ▸ ht.writes⟩

theorem expCommand_answers (h : ExpReady s rd ra rb ed d a b m) (hi : ExpCommand s rd ra rb ed a b m i run) :
    ∃ t, exec i s = .next t ∧ AnswersOk s i.op.code 0 [] t := by
  obtain ⟨t, ht⟩ := expCommand_completes h hi
  exact ⟨t, ht.runs, ht.answers⟩

end Commands

/-- Settles O41: each command completes with its own run, and the three runs end with one value. -/
theorem theThreeMethodsAgree : Obligations.TheThreeMethodsAgree := by
  intro s rd ra rb ed sbase slen d a b m v hs h hv
  subst hv
  exact ⟨fun hsec => expCommand_writes hs h (.bin hsec), expCommand_writes hs h .ct,
    fun hfit => expCommand_writes hs h (.win sbase slen hfit)⟩

/-- Settles O42: in a special case each command completes with the run that performs nothing. -/
theorem specialCasesRunNoKernel : Obligations.SpecialCasesRunNoKernel := by
  intro s rd ra rb ed sbase slen d a b m i op h hzero hi
  have hcommand : op = i.op.code ∧ ∃ run, ExpCommand s rd ra rb ed a b m i run := by
    obtain ⟨rfl, rfl, hsec⟩ | ⟨rfl, rfl⟩ | ⟨rfl, rfl, hfit⟩ := hi
    · exact ⟨rfl, _, .bin hsec⟩
    · exact ⟨rfl, _, .ct⟩
    · exact ⟨rfl, _, .win sbase slen hfit⟩
  obtain ⟨rfl, run, hrun⟩ := hcommand
  obtain ⟨t, ht⟩ := expCommand_completes h hrun
  rw [finalRun_special hzero] at ht
  exact ⟨t, ht.runs, ht.answers, ht.writes, ht.engines, ht.keepsScr rfl rfl, ht.input, ht.counts⟩

/-! ### Secrecy (R188) -/

/-- With its contexts there and its engine READY, a command whose test on the exponent fails raises `BadArgument`. -/
theorem withExp_badExponent {s : State} {rd ra rb : BnIdx} {ed : EngIdx} {d a b : BigNum} {c : EngineCfg} {m : Modulus}
    (hd : s.bnAt rd = .valid d) (ha : s.bnAt ra = .valid a) (hb : s.bnAt rb = .valid b) (he : s.meAt ed = .ready c m)
    {badE : BigNum → Bool} (hE : badE b = true) (badW : BigNum → Modulus → Bool)
    (k : BigNum → BigNum → Modulus → CmdResult) : withExp s rd ra rb ed badE badW k = .error .badArgument := by
  simp [withExp, withDAB_valid hd ha hb, withReady_ready he, hE]

/-- Settles O34: the test of `EXP_BIN` on the exponent comes right after the contexts, and the other two have none. -/
theorem secrecyDecidesWhichMethodIsLegal : Obligations.SecrecyDecidesWhichMethodIsLegal := by
  refine ⟨fun s rd ra rb ed d a b c m hd ha hb he hsec => ?_, fun s rd ra rb ed sbase slen d a b m h => ?_⟩
  · exact raises_of_error rfl (withExp_badExponent hd ha hb he hsec _ _)
  · exact ⟨fun hsec => expCommand_answers h (.bin hsec), expCommand_answers h .ct,
      fun hfit => expCommand_answers h (.win sbase slen hfit)⟩

/-! ### The first cause of an error (R180, R242, R245) -/

section FirstCause

variable {i : Instr} {s : State}

/-- A well-formed command has causes only of the five statuses that R245 lists after `IllegalCommand`. -/
theorem hasCause_cases {P : Status → Prop} {st : Status} (hwf : i.wf = true) (hst : HasCause i s st)
    (hctx : HasCause i s .contextMismatch → P .contextMismatch)
    (hinc : HasCause i s .incompleteContext → P .incompleteContext)
    (hbad : HasCause i s .badArgument → P .badArgument) (hrange : HasCause i s .outOfRange → P .outOfRange)
    (hsize : HasCause i s .sizeError → P .sizeError) : P st := by
  cases st with
  | contextMismatch => exact hctx hst
  | incompleteContext => exact hinc hst
  | badArgument => exact hbad hst
  | outOfRange => exact hrange hst
  | sizeError => exact hsize hst
  | illegalCommand => exact absurd (hwf.symm.trans hst.2) (by decide)
  | ok | insufficientEntropy | internalError => exact hst.elim

/-- An error is the first cause when those of the five that come before it are shut out. -/
theorem firstCause_error {st : Status} (hwf : i.wf = true) (hst : HasCause i s st)
    (hctx : HasCause i s .contextMismatch → st.rank ≤ Status.rank .contextMismatch)
    (hinc : HasCause i s .incompleteContext → st.rank ≤ Status.rank .incompleteContext)
    (hbad : HasCause i s .badArgument → st.rank ≤ Status.rank .badArgument)
    (hrange : HasCause i s .outOfRange → st.rank ≤ Status.rank .outOfRange)
    (hsize : HasCause i s .sizeError → st.rank ≤ Status.rank .sizeError) : (CmdResult.error st).FirstCause i s :=
  ⟨hst, fun _ hst' => hasCause_cases (P := (st.rank ≤ ·.rank)) hwf hst' hctx hinc hbad hrange hsize⟩

/-- For a register or an engine that was never constructed, `ContextMismatch` is the first of the five. -/
theorem firstCause_contextMismatch (hwf : i.wf = true) (hst : HasCause i s .contextMismatch) :
    (CmdResult.error .contextMismatch).FirstCause i s :=
  firstCause_error hwf hst (fun _ => le_rfl) (fun _ => by decide) (fun _ => by decide) (fun _ => by decide)
    fun _ => by decide

end FirstCause

/-- The rows of R242 for a command of R183 to R185, which writes `rd` and reads `ra` and `rb` on the engine `ed`, by its
test on the exponent and its test on the window. -/
structure ExpRows (i : Instr) (s : State) (rd ra rb : BnIdx) (ed : EngIdx) (badE : BigNum → Bool)
    (badW : BigNum → Modulus → Bool) : Prop where
  wf      : i.wf = true
  regs    : cmdRegs i = [rd, ra, rb]
  engines : cmdEngines i = [ed]
  ready   : cmdReadyEngines i = [ed]
  bad     : ∀ b, s.bnAt rb = .valid b → (badArgumentCause i s ↔ badE b = true)
  range   : outOfRangeCause i s = outsideModulus s ra ed Modulus.M
  size    : ∀ b e m, s.bnAt rb = .valid b → s.meAt ed = .ready e m →
    (sizeErrorCause i s ↔ roomBelowEngine s rd ed ∨ badW b m = true)

namespace ExpRows

variable {i : Instr} {s : State} {rd ra rb : BnIdx} {ed : EngIdx} {badE : BigNum → Bool}
  {badW : BigNum → Modulus → Bool} {k : BigNum → BigNum → Modulus → CmdResult}

theorem contextMismatch_iff (h : ExpRows i s rd ra rb ed badE badW) :
    HasCause i s .contextMismatch ↔
      (s.bnAt rd = .none ∨ s.bnAt ra = .none ∨ s.bnAt rb = .none) ∨ s.meAt ed = .none := by
  simp [HasCause, h.regs, h.engines]

theorem incompleteContext_iff (h : ExpRows i s rd ra rb ed badE badW) :
    HasCause i s .incompleteContext ↔ ∃ e, s.meAt ed = .created e := by
  simp [HasCause, h.ready]

/-- The checks of R180 come in the order of R245. -/
theorem firstCause_withExp (h : ExpRows i s rd ra rb ed badE badW) (hk : ∀ a b m, ∃ s' v p, k a b m = .respond s' v p) :
    (withExp s rd ra rb ed badE badW k).FirstCause i s := by
  refine withDAB_cases (fun hnone => firstCause_contextMismatch h.wf (h.contextMismatch_iff.2 (.inl hnone)))
    fun d a b hd ha hb => ?_
  have hctx (hne : s.meAt ed ≠ .none) : ¬HasCause i s .contextMismatch := by simp [h.contextMismatch_iff, hd, ha, hb, hne]
  refine withReady_cases (fun hnone => firstCause_contextMismatch h.wf (h.contextMismatch_iff.2 (.inr hnone)))
    (fun e he => ?_) fun e m he => ?_
  · have hctx := hctx (by simp [he])
    exact firstCause_error h.wf (h.incompleteContext_iff.2 ⟨e, he⟩) (absurd · hctx) (fun _ => le_rfl) (fun _ => by decide)
      (fun _ => by decide) fun _ => by decide
  have hctx := hctx (by simp [he])
  have hinc : ¬HasCause i s .incompleteContext := by simp [h.incompleteContext_iff, he]
  have hbad : HasCause i s .badArgument ↔ badE b = true := h.bad b hb
  have hrange : HasCause i s .outOfRange ↔ a.inRange m.M = false :=
    (iff_of_eq h.range).trans (outsideModulus_iff ha he Modulus.M)
  have hsize : HasCause i s .sizeError ↔ d.room.toNat < m.L.toNat ∨ badW b m = true :=
    (h.size b e m hb he).trans (or_congr_left (roomBelowEngine_iff hd he))
  split
  · next hE =>
    exact firstCause_error h.wf (hbad.2 hE) (absurd · hctx) (absurd · hinc) (fun _ => le_rfl) (fun _ => by decide)
      fun _ => by decide
  next hE =>
  have hbad := mt hbad.1 hE
  split
  · next hout =>
    exact firstCause_error h.wf (hrange.2 (by simpa using hout)) (absurd · hctx) (absurd · hinc) (absurd · hbad)
      (fun _ => le_rfl) fun _ => by decide
  next hin =>
  have hrange : ¬HasCause i s .outOfRange := mt hrange.1 (by simpa using hin)
  have raise_size (hst : HasCause i s .sizeError) : (CmdResult.error .sizeError).FirstCause i s :=
    firstCause_error h.wf hst (absurd · hctx) (absurd · hinc) (absurd · hbad) (absurd · hrange) fun _ => le_rfl
  split
  · next hroom => exact raise_size (hsize.2 (.inl hroom))
  next hroom =>
  split
  · next hwin => exact raise_size (hsize.2 (.inr hwin))
  next hwin =>
  obtain ⟨s', v, p, hrespond⟩ := hk a b m
  rw [hrespond]
  exact fun st hst => hasCause_cases (P := fun _ => False) h.wf hst hctx hinc hbad hrange
    (mt hsize.1 (not_or.2 ⟨hroom, hwin⟩))

end ExpRows

/-- The window checks of R83 failed. -/
theorem badWindow_eq_true_iff {c : Cfg} {sbase slen : Nat} {b : BigNum} {m : Modulus} :
    badWindow c sbase slen b m = true ↔ c.scrLimbs < sbase + slen ∨ slen < expWinNeed c m.L.toNat (bitlen b.mag) := by
  simp [badWindow]

section Rows

variable (s : State) (rd ra rb : BnIdx) (ed : EngIdx)

theorem expInto_responds (a b : BigNum) (m : Modulus) (run : Run) :
    ∃ s' v p, expInto s rd ed a b m run = .respond s' v p := by
  obtain ⟨passes, hbody⟩ := expInto_eq_finalRun s rd ed a b m run
  exact ⟨_, _, _, hbody⟩

theorem expBin_raisesFirstCause : RaisesFirstCause (.expBin rd ra rb ed) s := by
  have rows : ExpRows (.expBin rd ra rb ed) s rd ra rb ed (fun b => b.sec) (fun _ _ => false) :=
    ⟨rfl, rfl, rfl, rfl, fun b hb => by simp [badArgumentCause, hb], rfl, fun _ _ _ _ _ => by simp [sizeErrorCause]⟩
  exact raisesFirstCause_of_body rfl (rows.firstCause_withExp fun a b m => expInto_responds s rd ed a b m _)

theorem expCt_raisesFirstCause : RaisesFirstCause (.expCt rd ra rb ed) s := by
  have rows : ExpRows (.expCt rd ra rb ed) s rd ra rb ed (fun _ => false) (fun _ _ => false) :=
    ⟨rfl, rfl, rfl, rfl, fun b hb => by simp [badArgumentCause], rfl, fun _ _ _ _ _ => by simp [sizeErrorCause]⟩
  exact raisesFirstCause_of_body rfl (rows.firstCause_withExp fun a b m => expInto_responds s rd ed a b m _)

theorem expWin_raisesFirstCause (sbase slen : BitVec 16) : RaisesFirstCause (.expWin rd ra rb ed sbase slen) s := by
  have rows : ExpRows (.expWin rd ra rb ed sbase slen) s rd ra rb ed (fun _ => false)
      (badWindow s.cfg sbase.toNat slen.toNat) :=
    ⟨rfl, rfl, rfl, rfl, fun b hb => by simp [badArgumentCause], rfl,
      fun b e m hb he => by simp [sizeErrorCause, badWindow_eq_true_iff, expWinNeed, hb, he]⟩
  exact raisesFirstCause_of_body rfl (rows.firstCause_withExp fun a b m => expInto_responds s rd ed a b m _)

end Rows

/-! ### The three methods outside the special cases (R183 to R185) -/

/-- Settles O35: the checks raise the first cause, and the run has its value, its events and their counts. -/
theorem expBinIsTheBinaryMethod : Obligations.ExpBinIsTheBinaryMethod := by
  refine ⟨expBin_raisesFirstCause, fun s rd ra rb ed d a b m hs h hsec ha hb => ?_⟩
  obtain ⟨t, ht⟩ := expCommand_completes_kernels h (.bin hsec) ha hb
  obtain ⟨-, hmem, hacc⟩ := expBinRun_facts s.cfg.W m s.scr a.mag b.mag
  have hwrites := ht.writes
  rw [expCommand_acc hs h (.bin hsec), hsec, Bool.or_false] at hwrites
  exact ⟨t, ht.runs, ht.answers, hwrites, ht.engines, ht.keepsScr hmem hacc, ht.input,
    ht.counts_of_events (expBinRun_events ..) (eventCounts_expBinEvents b.mag)⟩

/-- Settles O36: the checks raise the first cause, and the run has its value, its events and their counts. -/
theorem expCtIsTheConstantTimeMethod : Obligations.ExpCtIsTheConstantTimeMethod := by
  refine ⟨expCt_raisesFirstCause, fun s rd ra rb ed d a b m hs h ha hb => ?_⟩
  obtain ⟨t, ht⟩ := expCommand_completes_kernels h .ct ha hb
  obtain ⟨hevs, hmem, hacc⟩ := expCtRun_facts s.cfg.W m s.scr a.mag b.mag
  have hwrites := ht.writes
  rw [expCommand_acc hs h .ct] at hwrites
  exact ⟨t, ht.runs, ht.answers, hwrites, ht.engines, ht.keepsScr hmem hacc, ht.input,
    ht.counts_of_events hevs (eventCounts_expCtEvents _)⟩

/-- Settles O37: the checks raise the first cause, the run has its value, its events and their counts, and the wipe after
the table leaves the window zero and nothing else changed. -/
theorem expWinIsTheWindowedMethod : Obligations.ExpWinIsTheWindowedMethod := by
  refine ⟨expWin_raisesFirstCause, fun s rd ra rb ed sbase slen d a b m w g hs h hfit ha hb hw hg => ?_⟩
  subst hw hg
  obtain ⟨t, ht⟩ := expCommand_completes_kernels h (.win sbase slen hfit) ha hb
  obtain ⟨hevs, -, hmem⟩ := expWinRun_facts s.cfg.W m s.scr sbase.toNat a.mag b.mag (wsel_pos s.cfg (bitlen b.mag))
  have hwrites := ht.writes
  rw [expCommand_acc hs h (.win sbase slen hfit)] at hwrites
  refine ⟨t, ht.runs, ht.answers, hwrites, ht.engines, ht.input, fun x => ?_,
    ht.counts_of_events hevs (eventCounts_expWinEvents _ _)⟩
  rw [ht.scr, hmem, read_table_wipe hs.scr_wf.1]

/-! ### Scratch accesses (R193 to R195) -/

/-- The accesses of the table's writes, which do not depend on its entries (log entry 8). -/
def tableAccesses (L sbase w : Nat) : List ScrAccess :=
  (List.range (2 ^ w)).flatMap fun k => (List.range L).map fun j => .write (tableAddr sbase w k j)

theorem tableWrites_accesses (W L sbase w : Nat) (T : List Nat) :
    (tableWrites W L sbase w T).map (fun x => ScrAccess.write x.1) = tableAccesses L sbase w := by
  simp [tableWrites, tableAccesses, List.map_flatMap, Function.comp_def]

/-- The table's writes reach each limb of the window once, in some order. -/
theorem tableAccesses_perm (L sbase w : Nat) :
    (tableAccesses L sbase w).Perm ((List.range (2 ^ w * L)).map fun i => ScrAccess.write (sbase + i)) :=
  tableWrites_accesses 1 L sbase w [] ▸ tableWrites_perm 1 L sbase w []

/-- The accesses of the windowed run see neither the base nor the modulus, and of the exponent its length alone. -/
theorem expWinRun_accesses (W : Nat) (m : Modulus) (mem : Memory) (sbase X E : Nat) {w : Nat} (hw : 1 ≤ w) :
    (expWinRun W m mem sbase w X E).accesses =
      tableAccesses m.L.toNat sbase w ++
        (List.replicate (ceilDiv (bitlen E) w) (lookupReads m.L.toNat sbase w)).flatten ++
        (List.range (2 ^ w * m.L.toNat)).map fun i => ScrAccess.write (sbase + i) := by
  obtain ⟨-, hacc, -⟩ := expWinRun_facts W m mem sbase X E hw
  rw [hacc, tableWrites_accesses, wipeWrites, List.map_map]
  rfl

/-- Settles O38: the accesses of the run, the table's in some order of the window. -/
theorem expWinSweepsTheWholeTable : Obligations.ExpWinSweepsTheWholeTable := by
  intro s rd ra rb ed sbase slen d a b m w need h hfit ha hb hw hneed
  subst hw hneed
  obtain ⟨t, ht⟩ := expCommand_completes_kernels h (.win sbase slen hfit) ha hb
  refine ⟨t, _, ht.runs, tableAccesses_perm _ _ _, ?_⟩
  rw [ht.accesses, expWinRun_accesses _ _ _ _ _ _ (wsel_pos _ _), ← List.append_assoc, ← List.append_assoc]
  rfl

/-! ### What `EXP_CT` and `EXP_WIN` perform and access sees no values (R187, R196) -/

/-- What `EXP_WIN` (`win`) or `EXP_CT` performs for an `n`-bit exponent with windows of `w`: nothing when `X = 0` or
`E = 0` (R181, R187). -/
def expEvents (win xZero : Bool) (n w : Nat) : List KEvent :=
  if xZero ∨ n = 0 then [] else if win then expWinEvents n w else expCtEvents n

/-- The scratch accesses of `EXP_WIN` for an `n`-bit exponent with windows of `w` and `L` limbs from `sbase`: none when
`X = 0` or `E = 0` (R181, R187). -/
def expWinAccesses (xZero : Bool) (n w L sbase : Nat) : List ScrAccess :=
  if xZero ∨ n = 0 then []
  else
    tableAccesses L sbase w ++ (List.replicate (ceilDiv n w) (lookupReads L sbase w)).flatten ++
      (List.range (2 ^ w * L)).map fun i => .write (sbase + i)

theorem bitlen_eq_zero_iff (x : Nat) : bitlen x = 0 ↔ x = 0 := by
  simp [bitlen]

/-- Neither method adds to `CNT_ADD`. -/
theorem eventCounts_expEvents (win xZero : Bool) (n w : Nat) :
    EventCounts (expEvents win xZero n w) ((expEvents win xZero n w).countP (· == .mul))
      ((expEvents win xZero n w).countP (· == .sqr)) ((expEvents win xZero n w).countP (· == .red))
      ((expEvents win xZero n w).countP KEvent.inSel) 0 := by
  refine ⟨rfl, rfl, rfl, rfl, ?_⟩
  unfold expEvents
  split
  · rfl
  split
  · obtain ⟨-, -, -, -, hadd⟩ := eventCounts_expWinEvents n w
    exact hadd
  · obtain ⟨-, -, -, -, hadd⟩ := eventCounts_expCtEvents n
    exact hadd

/-- One-bit windows: the table of two entries takes the one multiply of `Enc`, and each group is one bit (R196). -/
theorem expEvents_win_one (xZero : Bool) (n : Nat) : expEvents true xZero n 1 = expEvents false xZero n 1 := by
  have hgroups : ceilDiv n 1 = n := by simp [ceilDiv]
  simp [expEvents, expWinEvents, expCtEvents, hgroups]

/-- What `EXP_CT` performs and accesses. -/
theorem finalRun_expCt (s : State) (a b : BigNum) (m : Modulus) (w : Nat) :
    (finalRun s a b m (expCtRun s.cfg.W m s.scr a.mag b.mag)).events = expEvents false (a.mag = 0) (bitlen b.mag) w ∧
      (finalRun s a b m (expCtRun s.cfg.W m s.scr a.mag b.mag)).accesses = [] := by
  by_cases hzero : b.mag = 0 ∨ a.mag = 0
  · rw [finalRun_special hzero]
    simp [expEvents, idleRun, bitlen_eq_zero_iff, hzero.symm]
  · obtain ⟨hevs, -, hacc⟩ := expCtRun_facts s.cfg.W m s.scr a.mag b.mag
    rw [finalRun, if_neg hzero, hevs, hacc]
    obtain ⟨hb, ha⟩ := not_or.1 hzero
    simp [expEvents, expCtEvents, bitlen_eq_zero_iff, ha, hb]

/-- What `EXP_WIN` performs and accesses. -/
theorem finalRun_expWin (s : State) (a b : BigNum) (m : Modulus) (sbase : Nat) {w : Nat} (hw : 1 ≤ w) :
    (finalRun s a b m (expWinRun s.cfg.W m s.scr sbase w a.mag b.mag)).events =
        expEvents true (a.mag = 0) (bitlen b.mag) w ∧
      (finalRun s a b m (expWinRun s.cfg.W m s.scr sbase w a.mag b.mag)).accesses =
        expWinAccesses (a.mag = 0) (bitlen b.mag) w m.L.toNat sbase := by
  by_cases hzero : b.mag = 0 ∨ a.mag = 0
  · rw [finalRun_special hzero]
    simp [expEvents, expWinAccesses, idleRun, bitlen_eq_zero_iff, hzero.symm]
  · obtain ⟨hevs, -, -⟩ := expWinRun_facts s.cfg.W m s.scr sbase a.mag b.mag hw
    rw [finalRun, if_neg hzero, hevs, expWinRun_accesses _ _ _ _ _ _ hw]
    obtain ⟨hb, ha⟩ := not_or.1 hzero
    simp [expEvents, expWinEvents, expWinAccesses, bitlen_eq_zero_iff, ha, hb]

/-- Settles O43: the events and accesses above are the functions, and the counters count those events. -/
theorem operationCountsAreInvariant : Obligations.OperationCountsAreInvariant := by
  refine ⟨fun x n w _ _ => expEvents false x n w, fun x n w _ _ => expEvents true x n w, expWinAccesses,
    fun win x n w _ _ => (expEvents win x n w).countP (· == .mul),
    fun win x n w _ _ => (expEvents win x n w).countP (· == .sqr),
    fun win x n w _ _ => (expEvents win x n w).countP (· == .red),
    fun win x n w _ _ => (expEvents win x n w).countP KEvent.inSel,
    fun s rd ra rb ed d a b m w sbase h => ?_, fun s rd ra rb ed sbase slen d a b m w h hfit hw => ?_⟩
  · obtain ⟨t, ht⟩ := expCommand_completes h .ct
    obtain ⟨hevs, hacc⟩ := finalRun_expCt s a b m w
    refine ⟨t, ht.runs, ?_, ht.counts_of_events hevs (eventCounts_expEvents ..)⟩
    rw [ht.accesses, hacc, List.append_nil]
  · subst hw
    obtain ⟨t, ht⟩ := expCommand_completes h (.win sbase slen hfit)
    obtain ⟨hevs, hacc⟩ := finalRun_expWin s a b m sbase.toNat (wsel_pos s.cfg (bitlen b.mag))
    exact ⟨t, ht.runs, hacc ▸ ht.accesses, ht.counts_of_events hevs (eventCounts_expEvents ..)⟩

/-- Two runs from one state with the same value and the same events leave the same registers, engines, trace and
counters. -/
theorem RunCompletes.agree {i i' : Instr} {s t t' : State} {rd : BnIdx} {d : BigNum} {sec : Bool} {r r' : Run}
    (h : RunCompletes i s rd d sec r t) (h' : RunCompletes i' s rd d sec r' t') (hacc : r.acc = r'.acc)
    (hevs : r.events = r'.events) : t.bn = t'.bn ∧ t.me = t'.me ∧ t.trace = t'.trace ∧ t.cnt = t'.cnt := by
  obtain ⟨hrd, hframe⟩ := h.writes
  obtain ⟨hrd', hframe'⟩ := h'.writes
  obtain ⟨htrace, hcnt⟩ := h.counts
  obtain ⟨htrace', hcnt'⟩ := h'.counts
  refine ⟨State.bn_ext fun r => ?_, h.engines.trans h'.engines.symm, ?_, ?_⟩
  · by_cases hr : r = rd
    · rw [hr, hrd, hrd', hacc]
    · rw [hframe r hr, hframe' r hr]
  · rw [htrace, htrace', hevs]
  · rw [hcnt, hcnt', hevs]

/-- Settles O44: the two runs have one value, and with one-bit windows the same events. -/
theorem windowOfWidthOneIsTheConstantTimeMethod : Obligations.WindowOfWidthOneIsTheConstantTimeMethod := by
  intro s rd ra rb ed sbase slen d a b m hs h hfit hw
  obtain ⟨t, ht⟩ := expCommand_completes h (.win sbase slen hfit)
  obtain ⟨t', ht'⟩ := expCommand_completes h .ct
  obtain ⟨hevs, -⟩ := finalRun_expWin s a b m sbase.toNat (wsel_pos s.cfg (bitlen b.mag))
  obtain ⟨hevs', -⟩ := finalRun_expCt s a b m 1
  refine ⟨t, t', ht.runs, ht'.runs, ht.agree ht' ?_ ?_⟩
  · rw [finalRun_acc hs h (.win sbase slen hfit), finalRun_acc hs h .ct]
  · rw [hevs, hevs', hw, expEvents_win_one]

end Sys2Proof.Machine

/-! Proofs of the statements of 43_crt.md: the order of the checks (R210), the formula of `CRT_RECOMB` (R211), that it solves
the two congruences (R212), and the limb-level work of the commands that run kernels (R213, R187). -/

namespace Sys2Proof.Machine

open Sys2Proof.Claims

/-! ### The first cause of an error (R210, R242, R245) -/

section CrtChecks

variable {s : State} {rd ra rb rc : BnIdx} {ed ee : EngIdx} {d a b c : BigNum} {e e' : EngineCfg} {p q : Modulus}

theorem crtRecomb_contextMismatch_iff :
    HasCause (.crtRecomb rd ra rb rc ed ee) s .contextMismatch ↔
      ((s.bnAt rd = .none ∨ s.bnAt ra = .none ∨ s.bnAt rb = .none) ∨ s.bnAt rc = .none) ∨
        s.meAt ed = .none ∨ s.meAt ee = .none := by
  simp [HasCause, cmdRegs, cmdEngines, or_assoc]

theorem crtRecomb_incompleteContext_iff :
    HasCause (.crtRecomb rd ra rb rc ed ee) s .incompleteContext ↔
      (∃ e, s.meAt ed = .created e) ∨ ∃ e, s.meAt ee = .created e := by
  simp [HasCause, cmdReadyEngines, cmdEngines]

/-- With both engines READY, the `OutOfRange` cause is the test of R210 on the three operands failing. -/
theorem crtRecomb_outOfRange_iff (ha : s.bnAt ra = .valid a) (hb : s.bnAt rb = .valid b) (hc : s.bnAt rc = .valid c)
    (hp : s.meAt ed = .ready e p) (hq : s.meAt ee = .ready e' q) :
    HasCause (.crtRecomb rd ra rb rc ed ee) s .outOfRange ↔
      (!(a.inRange p.M && b.inRange q.M && c.inRange p.M)) = true := by
  simp only [HasCause, outOfRangeCause, outsideModulus_iff ha hp, outsideModulus_iff hb hq, outsideModulus_iff hc hp,
    Bool.not_eq_true', Bool.and_eq_false_iff, or_assoc]

/-- With both engines READY, the `SizeError` cause is the test of R210 on the room. -/
theorem crtRecomb_sizeError_iff (hd : s.bnAt rd = .valid d) (hp : s.meAt ed = .ready e p)
    (hq : s.meAt ee = .ready e' q) :
    HasCause (.crtRecomb rd ra rb rc ed ee) s .sizeError ↔ d.room.toNat < p.L.toNat + q.L.toNat := by
  simp [HasCause, sizeErrorCause, roomBelow, hd, hp, hq]

/-- The checks of R210 come in the order of R245. -/
theorem firstCause_withCrt {k : BigNum → BigNum → BigNum → Modulus → Modulus → CmdResult}
    (hk : ∀ a b c p q, ∃ s' v payload, k a b c p q = .respond s' v payload) :
    (withCrt s rd ra rb rc ed ee k).FirstCause (.crtRecomb rd ra rb rc ed ee) s := by
  have hbad : ¬HasCause (.crtRecomb rd ra rb rc ed ee) s .badArgument := id
  refine withDAB_cases (fun hnone => firstCause_contextMismatch rfl (crtRecomb_contextMismatch_iff.2 (.inl (.inl hnone))))
    fun d a b hd ha hb => ?_
  refine withA_cases (fun hnone => firstCause_contextMismatch rfl (crtRecomb_contextMismatch_iff.2 (.inl (.inr hnone))))
    fun c hc => ?_
  have no_context (hed : s.meAt ed ≠ .none) (hee : s.meAt ee ≠ .none) :
      ¬HasCause (.crtRecomb rd ra rb rc ed ee) s .contextMismatch := by
    simp [crtRecomb_contextMismatch_iff, hd, ha, hb, hc, hed, hee]
  refine withReady2_cases (fun hnone => firstCause_contextMismatch rfl (crtRecomb_contextMismatch_iff.2 (.inr hnone)))
    (fun hed hee hcreated => ?_) fun e p e' q hp hq => ?_
  · have hctx := no_context hed hee
    exact firstCause_error rfl (crtRecomb_incompleteContext_iff.2 hcreated) (absurd · hctx) (fun _ => le_rfl)
      (fun _ => by decide) (fun _ => by decide) fun _ => by decide
  have hctx := no_context (by simp [hp]) (by simp [hq])
  have hinc : ¬HasCause (.crtRecomb rd ra rb rc ed ee) s .incompleteContext := by
    simp [crtRecomb_incompleteContext_iff, hp, hq]
  split
  · next hout =>
    exact firstCause_error rfl ((crtRecomb_outOfRange_iff ha hb hc hp hq).2 hout) (absurd · hctx)
      (absurd · hinc) (absurd · hbad) (fun _ => le_rfl) fun _ => by decide
  next hin =>
  have hrange : ¬HasCause (.crtRecomb rd ra rb rc ed ee) s .outOfRange :=
    mt (crtRecomb_outOfRange_iff ha hb hc hp hq).1 hin
  split
  · next hroom =>
    exact firstCause_error rfl ((crtRecomb_sizeError_iff hd hp hq).2 hroom) (absurd · hctx) (absurd · hinc)
      (absurd · hbad) (absurd · hrange) fun _ => le_rfl
  next hroom =>
  obtain ⟨s', v, payload, hrespond⟩ := hk a b c p q
  rw [hrespond]
  exact fun st hst => hasCause_cases (P := fun _ => False) rfl hst hctx hinc hbad hrange
    (mt (crtRecomb_sizeError_iff hd hp hq).1 hroom)

theorem crtRecomb_raisesFirstCause (s : State) (rd ra rb rc : BnIdx) (ed ee : EngIdx) :
    RaisesFirstCause (.crtRecomb rd ra rb rc ed ee) s :=
  raisesFirstCause_of_body rfl (firstCause_withCrt fun _ _ _ _ _ => ⟨_, _, _, rfl⟩)

end CrtChecks

/-! ### The two congruences (R212) -/

section CrtValue

variable {W : Nat} {e : EngineCfg} {p q : Modulus} {xp xq qInv : Nat} (hp : ReadyFacts W e p) (hW : W ≤ 64)
  (hxp : xp < p.M)
include hp hW hxp

/-- What is added to `xq` is a multiple of `Q`. -/
theorem ReadyFacts.crtValue_mod_right (hxq : xq < q.M) (qInv : Nat) : crtValue W p q xp xq qInv % q.M = xq := by
  zify
  rw [hp.crtValue_eq hW q hxp, Int.add_mul_emod_self_right, Int.emod_eq_of_lt (by omega) (by omega)]

/-- Where `qInv` inverts `Q` modulo `P`, the second branch cancels modulo `P`. -/
theorem ReadyFacts.crtValue_mod_left (hinv : qInv * q.M ≡ 1 [MOD p.M]) (xq : Nat) :
    crtValue W p q xp xq qInv % p.M = xp := by
  have hinv : (qInv : Int) * q.M ≡ 1 [ZMOD p.M] := mod_cast Int.natCast_modEq_iff.2 hinv
  have hcong : (crtValue W p q xp xq qInv : Int) ≡ xp [ZMOD p.M] := by
    calc (crtValue W p q xp xq qInv : Int)
        = xq + ((xp : Int) - xq) * qInv % p.M * q.M := hp.crtValue_eq hW q hxp xq qInv
      _ ≡ xq + ((xp : Int) - xq) * qInv * q.M [ZMOD p.M] := ((Int.mod_modEq _ _).mul_right _).add_left _
      _ = xq + ((xp : Int) - xq) * (qInv * q.M) := by ring
      _ ≡ xq + ((xp : Int) - xq) * 1 [ZMOD p.M] := (hinv.mul_left _).add_left _
      _ = xp := by ring
  rw [Int.natCast_modEq_iff.1 hcong, Nat.mod_eq_of_lt hxp]

/-- The value is the one solution of the two congruences below `P·Q` (R212). -/
theorem ReadyFacts.crtValue_unique (hxq : xq < q.M) (hcop : p.M.Coprime q.M)
    (hinv : qInv * q.M ≡ 1 [MOD p.M]) {y : Nat} (hy : y < p.M * q.M) (hyp : y % p.M = xp) (hyq : y % q.M = xq) :
    y = crtValue W p q xp xq qInv := by
  have hmod : y ≡ crtValue W p q xp xq qInv [MOD p.M * q.M] :=
    (Nat.modEq_and_modEq_iff_modEq_mul hcop).1
      ⟨hyp.trans (hp.crtValue_mod_left hW hxp hinv xq).symm, hyq.trans (hp.crtValue_mod_right hW hxp hxq qInv).symm⟩
  exact hmod.eq_of_lt_of_lt hy (hp.crtValue_lt q xp qInv hxq)

end CrtValue

/-- Positive exponents congruent modulo `P − 1` give one power modulo the prime `P`, of its multiples too. -/
theorem pow_mod_prime_congr {P : Nat} (hP : P.Prime) (c : Nat) {i j : Nat} (hi : 1 ≤ i) (hj : 1 ≤ j)
    (hij : i % (P - 1) = j % (P - 1)) : c ^ i % P = c ^ j % P := by
  by_cases hdvd : P ∣ c
  · rw [Nat.mod_eq_zero_of_dvd (dvd_pow hdvd (by omega)), Nat.mod_eq_zero_of_dvd (dvd_pow hdvd (by omega))]
  · have hcop : c.Coprime P := (hP.coprime_iff_not_dvd.2 hdvd).symm
    rw [Nat.pow_totient_mod hP.one_lt hcop, Nat.pow_totient_mod (k := j) hP.one_lt hcop, Nat.totient_prime hP, hij]

/-- Settles O46: the two residues of the value and the uniqueness of a solution; the plaintext has the residues of its two
half exponentiations. -/
theorem crtRecombinationIsCorrect : Obligations.CrtRecombinationIsCorrect := by
  intro s ed ee cp cq mp mq xp xq qInv hs hmp hmq hxp hxq _ hcop hinv
  have hp := hs.ready hmp
  have hW := hs.cfg_legal.W_le
  have hunique (y : Nat) := hp.crtValue_unique hW hxp hxq hcop hinv (y := y)
  refine ⟨⟨hp.crtValue_lt mq xp qInv hxq, hp.crtValue_mod_left hW hxp hinv xq,
    hp.crtValue_mod_right hW hxp hxq qInv, hunique⟩,
    fun c dP dQ D hPp hQp hD hdP hdQ hcP hcQ hvp hvq => (hunique _ ?_ ?_ ?_).symm⟩
  · exact Nat.mod_lt _ (Nat.mul_pos hPp.pos hQp.pos)
  · rw [Nat.mod_mul_right_mod, hvp, pow_mod_prime_congr hPp c hD hdP hcP.symm]
  · rw [Nat.mod_mul_left_mod, hvq, pow_mod_prime_congr hQp c hD hdQ hcQ.symm]

/-! ### `CRT_RECOMB` (R211, R213) -/

/-- Where the checks of R210 pass, `CRT_RECOMB` writes the recombined value, with the events and the limb-level passes of
every legal input, and changes nothing else. -/
theorem crtRecomb_completes {s : State} {rd ra rb rc : BnIdx} {ed ee : EngIdx} {d a b c : BigNum} {e e' : EngineCfg}
    {p q : Modulus} (hd : s.bnAt rd = .valid d) (ha : s.bnAt ra = .valid a) (hb : s.bnAt rb = .valid b)
    (hc : s.bnAt rc = .valid c) (hp : s.meAt ed = .ready e p) (hq : s.meAt ee = .ready e' q)
    (hra : a.neg = false ∧ a.mag < p.M) (hrb : b.neg = false ∧ b.mag < q.M) (hrc : c.neg = false ∧ c.mag < p.M)
    (hroom : p.L.toNat + q.L.toNat ≤ d.room.toNat) :
    ∃ t, exec (.crtRecomb rd ra rb rc ed ee) s = .next t ∧ AnswersOk s 0x40 0 [] t ∧
      WritesBn s rd ⟨d.room, false, a.sec || b.sec || c.sec, crtValue s.cfg.W p q a.mag b.mag c.mag⟩ t ∧
      t.me = s.me ∧ KeepsScr s t ∧ KeepsInput s t ∧
      t.limbTrace = s.limbTrace ++ crtPasses e.ksel p.L.toNat q.L.toNat ∧ Counts s crtEvents 2 0 0 0 3 t := by
  have hbody := withCrt_ok hd ha hb hc hp hq ((BigNum.inRange_iff _ _).2 hra) ((BigNum.inRange_iff _ _).2 hrb)
    ((BigNum.inRange_iff _ _).2 hrc) hroom
  rw [← bnHolding_nat, ← State.kselAt_ready hp]
  exact ⟨_, congrArg (finishCounted .crtRecomb s) (hbody _), completed_writeBn _ _ hd _ _ _ rfl⟩

/-- Settles O45: the checks raise the first cause, and where they pass the value written is the formula. -/
theorem crtRecombComputesItsFormula : Obligations.CrtRecombComputesItsFormula := by
  refine ⟨crtRecomb_raisesFirstCause, ?_⟩
  intro s rd ra rb rc ed ee d a b q cp cq mp mq hs hd ha hb hq hmp hmq hna hla hnb hlb hnq hlq hroom
  have hp := hs.ready hmp
  obtain ⟨t, ht, hans, hbn, hme, hscr, hin, -, hcnt⟩ :=
    crtRecomb_completes hd ha hb hq hmp hmq ⟨hna, hla⟩ ⟨hnb, hlb⟩ ⟨hnq, hlq⟩ hroom
  exact ⟨t, _, ht, hans, hp.crtValue_eq hs.cfg_legal.W_le mq hla b.mag q.mag, hp.crtValue_lt mq a.mag q.mag hlb, hbn,
    hme, hscr, hin, hcnt⟩

/-! ### Limb-level work (R187, R213) -/

/-- A list of `n` equal events does `n` times the work of one. -/
theorem limbWork_kernelPasses_replicate_one (ksel : BitVec 8) (L n : Nat) (ev : KEvent) :
    limbWork (kernelPasses ksel L (List.replicate n ev)) = n * limbWork (kernelPasses ksel L [ev]) := by
  rw [← List.flatten_replicate_singleton, limbWork_kernelPasses_replicate]

@[simp] theorem kernelPasses_nil (ksel : BitVec 8) (L : Nat) : kernelPasses ksel L [] = [] := rfl

/-- The work of `CRT_RECOMB`, pass by pass (R213). -/
theorem limbWork_crtPasses (ksel : BitVec 8) (LP LQ : Nat) :
    limbWork (crtPasses ksel LP LQ) =
      Config.remLimbops LQ LP + 2 * LP + 2 * Config.limbops ksel .mul LP + Config.mulLimbops LP LQ + (LP + LQ) := by
  simp only [crtPasses, limbWork_cons, limbWork_nil, LimbOp.cost]
  ring

/-- The work of `EXP_CT` for an exponent of `n` bits: each kernel count of R184 times `cfg.limbops`. -/
theorem limbWork_expCtEvents (ksel : BitVec 8) (L n : Nat) :
    limbWork (kernelPasses ksel L (expCtEvents n)) =
      (1 + n) * Config.limbops ksel .mul L + n * Config.limbops ksel .sqr L + n * Config.limbops ksel (.sel 2) L +
        Config.limbops ksel .red L := by
  simp only [expCtEvents, List.cons_append, limbWork_kernelPasses_cons, kernelPasses_append, limbWork_append,
    limbWork_kernelPasses_replicate, kernelPasses_nil, limbWork_nil, KEvent.kernel]
  ring

/-- The work of `EXP_WIN` for an exponent of `n` bits and windows of `w`: each kernel count of R185 times `cfg.limbops`. -/
theorem limbWork_expWinEvents (ksel : BitVec 8) (L n w : Nat) :
    limbWork (kernelPasses ksel L (expWinEvents n w)) =
      (2 ^ w - 1 + ceilDiv n w) * Config.limbops ksel .mul L + ceilDiv n w * w * Config.limbops ksel .sqr L +
        ceilDiv n w * Config.limbops ksel (.sel (2 ^ w)) L + Config.limbops ksel .red L := by
  simp only [expWinEvents, kernelPasses_append, limbWork_append, limbWork_kernelPasses_replicate,
    limbWork_kernelPasses_replicate_one, limbWork_kernelPasses_cons, kernelPasses_nil, limbWork_nil, KEvent.kernel]
  ring

section Work

variable {s : State} {rd ra rb : BnIdx} {ed : EngIdx} {d a b : BigNum} {c : EngineCfg} {m : Modulus} {i : Instr}
  {run : Run}

/-- A command of R160 to R164 runs the pass of its one event. -/
theorem montCommand_limbTrace {op : BitVec 8} {ev : KEvent} {T : Nat} {sec : Bool} (hd : s.bnAt rd = .valid d)
    (he : s.meAt ed = .ready c m) (hroom : m.L.toNat ≤ d.room.toNat) (h : MontCommand s m rd ed i op ev T sec) :
    ∃ t, exec i s = .next t ∧ t.limbTrace = s.limbTrace ++ kernelPasses c.ksel m.L.toNat [ev] := by
  rw [← State.kselAt_ready he]
  exact ⟨_, montCommand_exec hd he hroom h, by simp⟩

/-- In a special case of R181 no pass is run. -/
theorem expCommand_limbTrace_special (h : ExpReady s rd ra rb ed d a b m) (hi : ExpCommand s rd ra rb ed a b m i run)
    (hzero : b.mag = 0 ∨ a.mag = 0) : ∃ t, exec i s = .next t ∧ t.limbTrace = s.limbTrace :=
  ⟨_, (expCommand_exec h hi).trans (congrArg _ (expInto_special hzero)), by simp⟩

/-- Outside them the passes are those of the run's kernels. -/
theorem expCommand_limbTrace (h : ExpReady s rd ra rb ed d a b m) (hi : ExpCommand s rd ra rb ed a b m i run)
    (he : s.meAt ed = .ready c m) (ha : 1 ≤ a.mag) (hb : 1 ≤ b.mag) :
    ∃ t, exec i s = .next t ∧ t.limbTrace = s.limbTrace ++ kernelPasses c.ksel m.L.toNat run.events := by
  rw [← State.kselAt_ready he]
  exact ⟨_, (expCommand_exec h hi).trans (congrArg _ (expInto_run (by omega) (by omega))), by simp⟩

end Work

/-- Settles O60: the passes of `CRT_RECOMB` are the same for every legal input, and the passes of the others are those of
their kernel events, whose work adds up by their counts. -/
theorem limbLevelWorkIsAFunctionOfLengths : Obligations.LimbLevelWorkIsAFunctionOfLengths := by
  refine ⟨?_, ?_, ?_, ?_⟩
  · intro s rd ra rb rc ed ee d a b q cp cq mp mq LP LQ hd ha hb hq hmp hmq hna hla hnb hlb hnq hlq hLP hLQ hroom
    subst hLP hLQ
    obtain ⟨t, ht, -, -, -, -, -, htrace, hcounts⟩ :=
      crtRecomb_completes hd ha hb hq hmp hmq ⟨hna, hla⟩ ⟨hnb, hlb⟩ ⟨hnq, hlq⟩ hroom
    refine ⟨t, ht, hcounts, htrace, ?_⟩
    rw [htrace, limbWork_append, limbWork_crtPasses]
    ring
  · intro s rd ed d c m i op ev k T sec hd he hroom hi hk
    obtain ⟨t, ht, htrace⟩ := montCommand_limbTrace hd he hroom hi
    refine ⟨t, ht, ?_⟩
    rw [htrace, limbWork_append]
    simp only [List.mem_cons, Prod.mk.injEq, List.not_mem_nil, or_false] at hk
    obtain ⟨rfl, rfl⟩ | ⟨rfl, rfl⟩ | ⟨rfl, rfl⟩ := hk <;> rfl
  · intro s rd ra rb ed sbase slen d a b m h hzero
    exact ⟨expCommand_limbTrace_special h .ct hzero,
      fun hfit => expCommand_limbTrace_special h (.win sbase slen hfit) hzero⟩
  · intro s rd ra rb ed sbase slen d a b c m n w g L h he ha hb hn hw hg hL
    subst hn hw hg hL
    refine ⟨?_, fun hfit => ?_⟩
    · obtain ⟨t, ht, htrace⟩ := expCommand_limbTrace h .ct he ha hb
      obtain ⟨hevs, -, -⟩ := expCtRun_facts s.cfg.W m s.scr a.mag b.mag
      refine ⟨t, ht, ?_⟩
      rw [htrace, hevs, limbWork_append, ← expCtEvents, limbWork_expCtEvents]
      ring
    · obtain ⟨t, ht, htrace⟩ := expCommand_limbTrace h (.win sbase slen hfit) he ha hb
      obtain ⟨hevs, -, -⟩ := expWinRun_facts s.cfg.W m s.scr sbase.toNat a.mag b.mag (wsel_pos s.cfg (bitlen b.mag))
      refine ⟨t, ht, ?_⟩
      rw [htrace, hevs, limbWork_append, ← expWinEvents, limbWork_expWinEvents, ceilDiv]
      ring

end Sys2Proof.Machine

/-! Proofs of the statements of 44_system.md: `NOP`, `CSR_RD`, `CSR_WR` with the soft reset, and `SCR_NEED`
(R225 to R229). -/

namespace Sys2Proof.Machine

open Sys2Proof.Claims

/-! ### How a system command ends, and headers rejected under its opcode -/

/-- A system command whose body comes to an error raises it (R244). -/
theorem raises_of_systemError {i : Instr} {s : State} {r : CmdResult} {st : Status}
    (hi : exec i s = finishSystem i.op s r) (hr : r = .error st) : Raises i s st := by
  subst hr
  exact ⟨_, hi, raised_raise s i.op.code st⟩

/-- A header with a command's opcode byte that does not match the command's row is `IllegalCommand` (R97): no other row
has that byte. -/
theorem step_raises_of_row_mismatch {s : State} {h : Beat} {rest : List Beat} {o : Op} (hs : s.cmdStream = h :: rest)
    (hop : hdrOp h = o.code) (hlen : o ≠ .bnSet) (hm : h &&& o.mask ≠ o.pattern) :
    ∃ t, step s = .next t ∧ Raised { s with cmdStream := rest } o.code .illegalCommand t := by
  have hcount : payloadCount h = 0 := if_neg fun hb => hlen (Op.code_inj _ _ (hop.symm.trans hb))
  rw [← hop]
  refine unmatchedHeaderIsIllegal s h [] rest hs hcount.symm fun o' mt mk hrow hmatch => ?_
  obtain ⟨rfl, rfl⟩ := (mem_opcodeRows_iff o' mt mk).1 hrow
  obtain rfl : o = o' := Op.code_inj _ _ (hop.symm.trans (Op.code_of_match hmatch))
  exact hm hmatch

/-! ### `NOP` (R225) -/

/-- The row of `NOP` matches the zero header alone: every bit of its mask is set (R96). -/
theorem nop_match_iff (h : Beat) : h &&& Op.mask .nop = Op.pattern .nop ↔ h = 0 := by
  have hmask : Op.mask .nop = BitVec.allOnes 64 := by decide
  have hpattern : Op.pattern .nop = 0 := by decide
  rw [hmask, hpattern, BitVec.and_allOnes]

/-- Settles O12: the body of `NOP` answers from the state it is given, and its row matches the zero header alone. -/
theorem nopOnlyWritesStatus : Obligations.NopOnlyWritesStatus :=
  ⟨fun _ => rfl, fun _ h _ hop hne hs =>
    step_raises_of_row_mismatch (o := .nop) hs hop (by decide) fun hm => hne ((nop_match_iff h).1 hm)⟩

/-! ### The map of the control registers (R58) -/

/-- The number of a control register (R58). -/
def Csr.num : Csr → BitVec 8
  | .id => 0x00
  | .cfgW => 0x01
  | .cfgLmax => 0x02
  | .cfgRmax => 0x03
  | .cfgScr => 0x04
  | .cfgWmax => 0x05
  | .cfgNbn => 0x06
  | .cfgNeng => 0x07
  | .status => 0x08
  | .ctrl => 0x09
  | .cntCmd => 0x10
  | .cntMul => 0x11
  | .cntSqr => 0x12
  | .cntRed => 0x13
  | .cntSel => 0x14
  | .cntAdd => 0x15

theorem Csr.ofNum_eq_some_iff (n : BitVec 8) (c : Csr) : Csr.ofNum n = some c ↔ c.num = n := by
  revert n; cases c <;> decide

/-- The control registers in the order of the map (R58). -/
def Csr.all : List Csr :=
  [.id, .cfgW, .cfgLmax, .cfgRmax, .cfgScr, .cfgWmax, .cfgNbn, .cfgNeng, .status, .ctrl,
   .cntCmd, .cntMul, .cntSqr, .cntRed, .cntSel, .cntAdd]

theorem Csr.mem_all (c : Csr) : c ∈ Csr.all := by cases c <;> decide

/-- The numbers and values the statements list are those of the registers as `CSR_RD` reads them. -/
theorem csrView_eq (s : State) : csrView s = Csr.all.map fun c => (c.num, s.readCsr c) := rfl

theorem mem_csrView_iff (s : State) (n : BitVec 8) (v : BitVec 64) :
    (n, v) ∈ csrView s ↔ ∃ c, Csr.ofNum n = some c ∧ s.readCsr c = v := by
  simp [csrView_eq, Csr.mem_all, Csr.ofNum_eq_some_iff]

/-- A number the map does not list is undefined (R54). -/
theorem Csr.ofNum_eq_none_of_not_mem_csrView {s : State} {n : BitVec 8} (h : n ∉ (csrView s).map Prod.fst) :
    Csr.ofNum n = none := by
  refine Option.eq_none_iff_forall_ne_some.2 fun c hc => h ?_
  exact List.mem_map_of_mem (f := Prod.fst) ((mem_csrView_iff s n _).2 ⟨c, hc, rfl⟩)

/-! ### `CSR_RD` (R226) -/

section CsrRd

variable {s : State} {n : BitVec 8}

/-- A defined register answers what it holds before `STATUS` is written. -/
theorem exec_csrRd_defined {c : Csr} (hc : Csr.ofNum n = some c) :
    exec (.csrRd n) s = .next (s.complete 0x01 .ok (s.readCsr c) []) := by
  simp only [exec, execCsrRd, hc, finishSystem_respond, Op.code]

theorem csrRd_raises_of_undefined (hn : Csr.ofNum n = none) : Raises (.csrRd n) s .illegalCommand := by
  refine raises_of_systemError rfl ?_
  rw [hn]

end CsrRd

/-- Settles O13, through the map of the control registers. -/
theorem csrReadAnswersTheRegister : Obligations.CsrReadAnswersTheRegister := by
  refine fun s => ⟨fun n v hv => ?_, fun n hn => csrRd_raises_of_undefined (Csr.ofNum_eq_none_of_not_mem_csrView hn)⟩
  obtain ⟨c, hc, rfl⟩ := (mem_csrView_iff s n v).1 hv
  exact exec_csrRd_defined hc

/-! ### `CSR_WR` and the soft reset (R57, R227, R228) -/

section CsrWr

variable {s : State} {n : BitVec 8} {imm : BitVec 32}

/-- `CSR_WR` completes from the state the write has made. -/
theorem exec_csrWr_writable {c : Csr} {s' : State} (hc : Csr.ofNum n = some c) (hs : s.writeCsr c imm = some s') :
    exec (.csrWr n imm) s = .next (s'.complete 0x02 .ok 0 []) := by
  simp only [exec, execCsrWr, hc, hs, finishSystem_respond, Op.code]

theorem csrWr_raises_of_not_writable (hn : ∀ c, Csr.ofNum n = some c → s.writeCsr c imm = none) :
    Raises (.csrWr n imm) s .illegalCommand := by
  refine raises_of_systemError rfl ?_
  cases hc : Csr.ofNum n with
  | none => rfl
  | some c => simp only [hn c hc]

/-- Outside `CTRL` and the counters a defined register is read-only (R57, R58). -/
theorem State.writeCsr_eq_none {c : Csr} (hc : Csr.ofNum n = some c)
    (hn : ¬(n = 0x09 ∨ 0x10 ≤ n.toNat ∧ n.toNat ≤ 0x15)) : s.writeCsr c imm = none := by
  obtain rfl := (Csr.ofNum_eq_some_iff n c).1 hc
  cases c
  case ctrl | cntCmd | cntMul | cntSqr | cntRed | cntSel | cntAdd => exact absurd (by decide) hn
  all_goals rfl

theorem State.writeCsr_ctrl_clear (hbit : imm.getLsbD 0 = false) : s.writeCsr .ctrl imm = some s := by
  simp only [State.writeCsr, hbit, Bool.false_eq_true, if_false]

theorem State.writeCsr_ctrl_set (hbit : imm.getLsbD 0 = true) : s.writeCsr .ctrl imm = some s.softReset := by
  simp only [State.writeCsr, hbit, if_true]

/-- `CTRL` with bit 0 set completes from the soft reset state (R228). -/
theorem exec_softReset (hbit : imm.getLsbD 0 = true) :
    exec (.csrWr 0x09 imm) s = .next (s.softReset.complete 0x02 .ok 0 []) :=
  exec_csrWr_writable rfl (State.writeCsr_ctrl_set hbit)

end CsrWr

/-- What a completed soft reset leaves, by the laws of the soft reset state (R275). -/
theorem softResetDone_complete (s : State) : SoftResetDone s (s.softReset.complete 0x02 .ok 0 []) :=
  ⟨answersOk_complete (s.softReset_respStream) _ _ _, rfl, s.bnAt_softReset, s.meAt_softReset, rfl, rfl, rfl, rfl⟩

/-- After a soft reset every control register but `STATUS` reads its reset value (R274, R275). -/
theorem State.readCsr_softReset_complete (s : State) {c : Csr} (hc : c ≠ .status) :
    (s.softReset.complete 0x02 .ok 0 []).readCsr c = (State.resetWith s.cfg).readCsr c := by
  cases c
  case status => exact absurd rfl hc
  all_goals rfl

/-- Settles O14: one write for each counter, `CTRL` with its bit clear and set, and no other writable register. -/
theorem csrWriteSetsTheRegister : Obligations.CsrWriteSetsTheRegister := by
  intro s imm
  refine ⟨fun n cnt hcnt => ?_, fun hbit => ?_, fun hbit => ?_, fun n hn => ?_⟩
  · simp only [BitVec.ofNat_toNat, List.mem_cons, Prod.mk.injEq, List.not_mem_nil, or_false] at hcnt
    obtain ⟨rfl, rfl⟩ | ⟨rfl, rfl⟩ | ⟨rfl, rfl⟩ | ⟨rfl, rfl⟩ | ⟨rfl, rfl⟩ | ⟨rfl, rfl⟩ := hcnt
    exacts [exec_csrWr_writable (c := .cntCmd) rfl rfl, exec_csrWr_writable (c := .cntMul) rfl rfl,
      exec_csrWr_writable (c := .cntSqr) rfl rfl, exec_csrWr_writable (c := .cntRed) rfl rfl,
      exec_csrWr_writable (c := .cntSel) rfl rfl, exec_csrWr_writable (c := .cntAdd) rfl rfl]
  · exact exec_csrWr_writable rfl (State.writeCsr_ctrl_clear hbit)
  · exact ⟨_, exec_softReset hbit, softResetDone_complete s⟩
  · exact csrWr_raises_of_not_writable fun c hc => State.writeCsr_eq_none hc hn

/-- Settles O15: the command completes from the soft reset state. -/
theorem softResetDestroysEveryContext : Obligations.SoftResetDestroysEveryContext := fun s _ hbit =>
  ⟨_, exec_softReset hbit, softResetDone_complete s, fun _ => State.readCsr_softReset_complete s⟩

/-! ### `SCR_NEED` (R229) -/

/-- The row of `SCR_NEED` leaves the low two bits of `fn` free and no others: a header it matches has a selector of
R103 there. -/
theorem hdrFn_le_of_scrNeed_match {h : Beat} (hm : h &&& Op.mask .scrNeed = Op.pattern .scrNeed) :
    (hdrFn h).toNat ≤ 3 := by
  have hmask : hdrFn (Op.mask .scrNeed) = 0xC := by decide
  have hpattern : hdrFn (Op.pattern .scrNeed) = 0 := by decide
  have hfn := congrArg hdrFn hm
  rw [hdrFn_and, hmask, hpattern] at hfn
  generalize hdrFn h = fn at hfn
  revert fn; decide

/-- The need in the form of R192: `2^wsel(expbits) · ceil(modbits / W)` for `EXP_WIN`, nothing for the others. -/
theorem ofNat_scrNeedVal (c : Cfg) (sel : SizeSel) (modbits expbits : Nat) :
    BitVec.ofNat 64 (scrNeedVal c sel modbits expbits) =
      if sel = .expWin then BitVec.ofNat 64 (2 ^ wsel c expbits * ((modbits + c.W - 1) / c.W)) else 0 := by
  cases sel <;> rfl

/-- Settles O16: a selector above 3 matches no row; the operand checks, then the need as the value. -/
theorem scrNeedIsThePureSizingFunction : Obligations.ScrNeedIsThePureSizingFunction := by
  refine ⟨fun s h rest hop hfn hs => ?_, fun s sel modbits expbits => ⟨fun hbad => ?_, fun hmin hmax hexp => ?_⟩⟩
  · exact step_raises_of_row_mismatch (o := .scrNeed) hs hop (by decide) fun hm =>
      (hdrFn_le_of_scrNeed_match hm).not_gt hfn
  · exact raises_of_systemError rfl (if_pos hbad)
  · have hlegal : ¬(modbits.toNat = 0 ∨ maxBits s.cfg < modbits.toNat ∨ expbits.toNat = 0) := by
      rw [maxBits]; omega
    rw [← ofNat_scrNeedVal]
    exact congrArg (finishSystem .scrNeed s) (if_neg hlegal)

end Sys2Proof.Machine

/-! Proofs of the statements of 60_exceptions.md: waiting for a whole command (R257, R277, R286), that every step and every
command answers (R240, R246), what an error leaves (R244), and which cause is reported (R242, R243, R245). -/

namespace Sys2Proof.Machine

open Sys2Proof.Claims

/-! ### What a step does with the stream (R90, R257) -/

/-- With no whole command in the stream a step holds the state. -/
theorem step_of_no_frame {s : State} (h : nextFrame s.cmdStream = none) : step s = .next s := by
  simp only [step, stepCommand, h]

/-- A header with fewer beats after it than it announces is not a whole command (R94). -/
theorem nextFrame_short {h : Beat} {more : List Beat} (hlt : more.length < payloadCount h) :
    nextFrame (h :: more) = none := if_neg hlt.not_ge

/-- Settles O8: neither an empty nor a short stream has a frame. -/
theorem waitsForAWholeCommand : Obligations.WaitsForAWholeCommand :=
  ⟨fun _ hs => step_of_no_frame (hs ▸ rfl), fun _ _ _ hs hlt => step_of_no_frame (hs ▸ nextFrame_short hlt)⟩

/-- Everything a step can do: wait, run a command, or reject a header, its beats consumed. -/
theorem step_cases {P : Outcome → Prop} (s : State) (hwait : P (.next s))
    (hexec : ∀ i q, P (exec i { s with cmdStream := q }))
    (hreject : ∀ op q, P (execIllegal op { s with cmdStream := q })) : P (step s) := by
  unfold step stepCommand
  split
  · exact hwait
  · unfold execFrame
    split
    · exact hexec _ _
    · exact hreject _ _

/-- Settles O49: waiting and rejecting answer a next state, and so does every command. -/
theorem everyStepIsSafe : Obligations.EveryStepIsSafe := fun s =>
  step_cases (P := fun o => ∃ t, o = .next t) s ⟨s, rfl⟩
    (fun i q => (exec_ends i { s with cmdStream := q }).imp fun _ h => h.1) fun _ _ => ⟨_, rfl⟩

/-! ### What every command answers (R52, R240, R244) -/

/-- `r` is the one response that running `i` from `s` to `t` adds: `STATUS` records it, and if it is an error then `t` is
the error entry. -/
structure AnswersWith (i : Instr) (s t : State) (r : Response) : Prop where
  responds : t.respStream = s.respStream ++ [r]
  op       : r.op = i.op.code
  status   : t.status = statusWord i.op.code r.status
  raisable : r.status.Raisable
  error    : r.status ≠ .ok → t = s.raise i.op.code r.status

/-- A completed command answers from the state it has made. -/
theorem answersWith_complete {i : Instr} {s s' : State} (h : s'.respStream = s.respStream) (val : BitVec 64) (p : Limbs) :
    AnswersWith i s (s'.complete i.op.code .ok val p) ⟨.ok, i.op.code, val, p⟩ where
  responds := by rw [State.complete_respStream, h]
  op       := rfl
  status   := rfl
  raisable := (by decide : Status.ok.Raisable)
  error h  := absurd rfl h

theorem answersWith_raise (i : Instr) (s : State) {st : Status} (hst : st.Raisable) :
    AnswersWith i s (s.raise i.op.code st) ⟨st, i.op.code, 0, []⟩ where
  responds := State.raise_respStream ..
  op       := rfl
  status   := rfl
  raisable := hst
  error _  := rfl

/-- However a command ends, it answers. -/
theorem Ends.answersWith {i : Instr} {s t : State} (h : Ends i s t) : ∃ r, AnswersWith i s t r := by
  cases h with
  | error st hst => exact ⟨_, answersWith_raise i s hst⟩
  | read val => exact ⟨_, answersWith_complete rfl val []⟩
  | csrWr n imm c s' _ _ hs => exact ⟨_, answersWith_complete (State.writeCsr_respStream hs) 0 []⟩
  | done s' val p heff =>
    obtain ⟨-, -, -, hresp⟩ := heff.counts
    exact ⟨_, answersWith_complete (s' := s'.countCmd) hresp val p⟩

theorem exec_answersWith (i : Instr) (s : State) : ∃ t r, exec i s = .next t ∧ AnswersWith i s t r := by
  obtain ⟨t, ht, hend⟩ := exec_ends i s
  obtain ⟨r, hr⟩ := hend.answersWith
  exact ⟨t, r, ht, hr⟩

/-- The response a run adds is the one it answers with. -/
theorem answersWith_of_exec {i : Instr} {s t : State} {r : Response} (ht : exec i s = .next t)
    (hr : t.respStream = s.respStream ++ [r]) : AnswersWith i s t r := by
  obtain ⟨t', r', ht', ha⟩ := exec_answersWith i s
  cases ht.symm.trans ht'
  obtain rfl : r = r' := by simpa using hr.symm.trans ha.responds
  exact ha

/-- No write of a `CSR` changes the parameters, a soft reset among them (R275). -/
theorem State.writeCsr_cfg {s s' : State} {c : Csr} {imm : BitVec 32} (h : s.writeCsr c imm = some s') :
    s'.cfg = s.cfg := by
  cases c <;> simp only [State.writeCsr, Option.some.injEq, reduceCtorEq] at h <;> subst h
  case ctrl =>
    split
    · exact State.softReset_cfg s
    · rfl
  all_goals rfl

/-- No completed command changes the parameters. -/
theorem Effect.cfg_eq {i : Instr} {s s' : State} (h : Effect i s s') : s'.cfg = s.cfg := by
  cases h with
  | only | compare | create | meCreate | meInit => rfl
  | write => simp

theorem exec_cfg {i : Instr} {s t : State} (ht : exec i s = .next t) : t.cfg = s.cfg := by
  obtain ⟨t', ht', hend⟩ := exec_ends i s
  cases ht.symm.trans ht'
  cases hend with
  | error | read => rfl
  | csrWr n imm c s' _ _ hs => exact (State.complete_cfg ..).trans (State.writeCsr_cfg hs)
  | done s' val p heff => exact heff.cfg_eq

/-- The fields of `STATUS` add up, since none overlaps the next (R52). -/
theorem toNat_statusWord (op : BitVec 8) (st : Status) : (statusWord op st).toNat = op.toNat * 256 + st.code.toNat := by
  have hhigh : (0#48 ++ op).toNat = op.toNat := (toNat_append_eq_add 0#48 op).trans (by simp)
  exact (toNat_append_eq_add (0#48 ++ op) st.code).trans (congrArg (· * 256 + st.code.toNat) hhigh)

/-- Settles O50: the response every command answers with, and no command touches parameters or unread beats. -/
theorem everyCommandAnswersOnce : Obligations.EveryCommandAnswersOnce := by
  intro i s
  obtain ⟨t, r, ht, ha⟩ := exec_answersWith i s
  exact ⟨t, r, ht, ha.responds, ha.op, by rw [ha.status, toNat_statusWord], exec_cfg ht, exec_cmdStream ht⟩

/-- Settles O52: an error response is the error entry of R244. -/
theorem errorsChangeNothingButStatus : Obligations.ErrorsChangeNothingButStatus := by
  intro i s t r ht hr hne
  rw [(answersWith_of_exec ht hr).error hne]
  exact raised_raise s i.op.code r.status

/-! ### Statuses that are never raised (R243) -/

/-- Every step adds responses of raisable statuses alone: none, that of a command, or that of a rejected header. -/
theorem step_adds_raisable (s : State) :
    ∃ t new, step s = .next t ∧ t.respStream = s.respStream ++ new ∧ ∀ r ∈ new, r.status.Raisable := by
  refine step_cases (P := fun o => ∃ t new, o = .next t ∧ t.respStream = s.respStream ++ new ∧
    ∀ r ∈ new, r.status.Raisable) s ⟨s, [], rfl, by simp⟩ (fun i q => ?_) fun op q => ?_
  · obtain ⟨t, r, ht, ha⟩ := exec_answersWith i { s with cmdStream := q }
    exact ⟨t, [r], ht, ha.responds, List.forall_mem_singleton.2 ha.raisable⟩
  · have hillegal : Status.illegalCommand.Raisable := by decide
    exact ⟨_, _, rfl, State.raise_respStream .., List.forall_mem_singleton.2 hillegal⟩

/-- Settles O53: the responses a step adds are of raisable statuses. -/
theorem entropyAndInternalErrorsAreNeverRaised : Obligations.EntropyAndInternalErrorsAreNeverRaised := by
  intro s t rs ht hrs
  obtain ⟨t', new, ht', hnew, hraisable⟩ := step_adds_raisable s
  cases ht.symm.trans ht'
  obtain rfl : rs = new := List.append_cancel_left (hrs.symm.trans hnew)
  exact hraisable

/-! ### The status a command answers (R245) -/

/-- The status of the response to `i` is `OK` or has a cause, and no cause comes before it in the order of R245. -/
def AnswersFirstCause (i : Instr) (s : State) : Prop :=
  ∃ t r, exec i s = .next t ∧ t.respStream = s.respStream ++ [r] ∧
    (r.status = .ok ∨ HasCause i s r.status) ∧ ∀ st, HasCause i s st → r.status.rank ≤ st.rank

/-- The status with which the result of a body is answered. -/
def CmdResult.status : CmdResult → Status
  | .error st => st
  | .respond _ _ _ => .ok

theorem CmdResult.FirstCause.status {i : Instr} {s : State} {c : CmdResult} (h : c.FirstCause i s) :
    (c.status = .ok ∨ HasCause i s c.status) ∧ ∀ st, HasCause i s st → c.status.rank ≤ st.rank := by
  cases c with
  | error st => exact ⟨.inr h.1, h.2⟩
  | respond s' v p => exact ⟨.inl rfl, fun st hst => absurd hst (h st)⟩

/-- A command whose last response has the status of its body answers the first cause if its body comes to it. -/
theorem answersFirstCause_of_status {i : Instr} {s : State} {c : CmdResult} (hc : c.FirstCause i s)
    (hstatus : ∀ t, exec i s = .next t → t.respStream.getLast?.map Response.status = some c.status) :
    AnswersFirstCause i s := by
  obtain ⟨t, r, ht, ha⟩ := exec_answersWith i s
  have hr : r.status = c.status := by simpa [ha.responds] using hstatus t ht
  exact ⟨t, r, ht, ha.responds, hr ▸ hc.status⟩

theorem finishCounted_status {o : Op} {s t : State} {c : CmdResult} (h : finishCounted o s c = .next t) :
    t.respStream.getLast?.map Response.status = some c.status := by
  cases c <;> cases h <;> simp [CmdResult.status]

theorem finishSystem_status {o : Op} {s t : State} {c : CmdResult} (h : finishSystem o s c = .next t) :
    t.respStream.getLast?.map Response.status = some c.status := by
  cases c <;> cases h <;> simp [CmdResult.status]

theorem answersFirstCause_of_counted {i : Instr} {s : State} {c : CmdResult} (hi : exec i s = finishCounted i.op s c)
    (hc : c.FirstCause i s) : AnswersFirstCause i s :=
  answersFirstCause_of_status hc fun _ ht => finishCounted_status (hi.symm.trans ht)

theorem answersFirstCause_of_system {i : Instr} {s : State} {c : CmdResult} (hi : exec i s = finishSystem i.op s c)
    (hc : c.FirstCause i s) : AnswersFirstCause i s :=
  answersFirstCause_of_status hc fun _ ht => finishSystem_status (hi.symm.trans ht)

/-! ### Going through the causes in the order of R245 -/

/-- Every cause that applies is of rank `n` or later in the order of R245. -/
def NoCauseBefore (i : Instr) (s : State) (n : Nat) : Prop := ∀ st, HasCause i s st → n ≤ st.rank

theorem Status.rank_inj {st st' : Status} (h : st.rank = st'.rank) : st = st' := by
  revert h; cases st <;> cases st' <;> decide

theorem noCauseBefore_one (i : Instr) (s : State) : NoCauseBefore i s 1 := fun st _ => by cases st <;> decide

section Ranks

variable {i : Instr} {s : State}

/-- A status without a cause is passed over. -/
theorem NoCauseBefore.next (st : Status) (h : NoCauseBefore i s st.rank) (hno : ¬HasCause i s st) :
    NoCauseBefore i s (st.rank + 1) := fun st' hst' =>
  lt_of_le_of_ne (h st' hst') fun heq => hno (Status.rank_inj heq ▸ hst')

theorem NoCauseBefore.error {st : Status} (h : NoCauseBefore i s st.rank) (hst : HasCause i s st) :
    (CmdResult.error st).FirstCause i s := ⟨hst, h⟩

/-- With none of the six causes a command may complete. -/
theorem NoCauseBefore.respond (h : NoCauseBefore i s (Status.rank .ok)) (s' : State) (v : BitVec 64) (p : Limbs) :
    (CmdResult.respond s' v p).FirstCause i s := by
  intro st hst
  have hrank := h st hst
  cases st with
  | ok | insufficientEntropy | internalError => exact hst
  | illegalCommand | contextMismatch | incompleteContext | badArgument | outOfRange | sizeError =>
    exact absurd hrank (by decide)

/-- A check that fails exactly when its status has a cause, made when no earlier status has one, keeps to R245. -/
theorem NoCauseBefore.check (st : Status) (h : NoCauseBefore i s st.rank) {c : Prop} [Decidable c]
    (hc : HasCause i s st ↔ c) {r : CmdResult} (hr : NoCauseBefore i s (st.rank + 1) → r.FirstCause i s) :
    (if c then .error st else r).FirstCause i s := by
  split
  · exact h.error (hc.2 ‹_›)
  · exact hr (h.next st (mt hc.1 ‹_›))

end Ranks

/-- The rows of R242 for a command that names no engine to be constructed and whose selector is legal;
`BN_SET` has none. -/
structure RegisterRows (i : Instr) : Prop where
  legal   : i.op = .bnSet ∨ i.wf = true
  engines : cmdEngines i = []
  ready   : cmdReadyEngines i = []

namespace RegisterRows

variable {i : Instr} {s : State} (h : RegisterRows i)
include h

theorem noCauseBefore_contextMismatch : NoCauseBefore i s (Status.rank .contextMismatch) :=
  (noCauseBefore_one i s).next .illegalCommand fun ⟨hop, hwf⟩ =>
    h.legal.elim hop fun hlegal => absurd (hlegal.symm.trans hwf) (by decide)

theorem contextMismatch_iff : HasCause i s .contextMismatch ↔ ∃ r ∈ cmdRegs i, s.bnAt r = .none := by
  simp [HasCause, h.engines]

/-- A register that was never constructed is the first cause. -/
theorem firstCause_contextMismatch (hnone : ∃ r ∈ cmdRegs i, s.bnAt r = .none) :
    (CmdResult.error .contextMismatch).FirstCause i s :=
  h.noCauseBefore_contextMismatch.error (h.contextMismatch_iff.2 hnone)

/-- With the registers constructed, `BadArgument` is the first status that can apply. -/
theorem noCauseBefore_badArgument (hregs : ¬∃ r ∈ cmdRegs i, s.bnAt r = .none) :
    NoCauseBefore i s (Status.rank .badArgument) :=
  (h.noCauseBefore_contextMismatch.next .contextMismatch (mt h.contextMismatch_iff.1 hregs)).next .incompleteContext
    (by simp [HasCause, h.ready])

/-- A command whose last check is that of its destination's room. -/
theorem firstCause_sizeCheck (hregs : ¬∃ r ∈ cmdRegs i, s.bnAt r = .none) (hbad : ¬badArgumentCause i s)
    (hrange : ¬outOfRangeCause i s) {c : Prop} [Decidable c] (hsize : sizeErrorCause i s ↔ c)
    {s' : State} {v : BitVec 64} {p : Limbs} :
    (if c then .error .sizeError else .respond s' v p : CmdResult).FirstCause i s :=
  (((h.noCauseBefore_badArgument hregs).next .badArgument hbad).next .outOfRange hrange).check .sizeError hsize
    fun hnone => hnone.respond s' v p

/-- A command whose only check is that of its arguments. -/
theorem firstCause_argumentCheck (hregs : cmdRegs i = []) (hrange : ¬outOfRangeCause i s)
    (hsize : ¬sizeErrorCause i s) {c : Prop} [Decidable c] (hbad : badArgumentCause i s ↔ c)
    {s' : State} {v : BitVec 64} {p : Limbs} :
    (if c then .error .badArgument else .respond s' v p : CmdResult).FirstCause i s :=
  (h.noCauseBefore_badArgument (by simp [hregs])).check .badArgument hbad fun hnone =>
    ((hnone.next .outOfRange hrange).next .sizeError hsize).respond s' v p

/-- A command without checks left. -/
theorem firstCause_respond (hregs : ¬∃ r ∈ cmdRegs i, s.bnAt r = .none) (hbad : ¬badArgumentCause i s)
    (hrange : ¬outOfRangeCause i s) (hsize : ¬sizeErrorCause i s) (s' : State) (v : BitVec 64) (p : Limbs) :
    (CmdResult.respond s' v p).FirstCause i s :=
  ((((h.noCauseBefore_badArgument hregs).next .badArgument hbad).next .outOfRange hrange).next .sizeError hsize).respond
    s' v p

end RegisterRows

/-! ### The control registers (R226, R227) -/

/-- Exactly the numbers of the map are defined (R58). -/
theorem csrDefined_eq_isSome (n : BitVec 8) : csrDefined n = (Csr.ofNum n).isSome := by
  revert n; decide

theorem csrDefined_of_writable {n : BitVec 8} (h : csrWritable n = true) : csrDefined n = true := by
  revert n; decide

/-- Exactly the registers that can be written have writable numbers (R57, R58). -/
theorem State.writeCsr_eq_none_iff (s : State) (c : Csr) (imm : BitVec 32) :
    s.writeCsr c imm = none ↔ csrWritable c.num = false := by
  cases c
  case ctrl | cntCmd | cntMul | cntSqr | cntRed | cntSel | cntAdd => exact iff_of_false nofun (by decide)
  all_goals exact iff_of_true rfl (by decide)

section Commands

variable (s : State)

theorem csrRd_answersFirstCause (n : BitVec 8) : AnswersFirstCause (.csrRd n) s := by
  refine answersFirstCause_of_system rfl ?_
  have hdefined := csrDefined_eq_isSome n
  split
  · next hc => exact (noCauseBefore_one _ s).error ⟨nofun, hdefined.trans (by rw [hc]; rfl)⟩
  · next c hc =>
    have hlegal : (Instr.csrRd n).wf = true := hdefined.trans (by rw [hc]; rfl)
    exact RegisterRows.firstCause_respond ⟨.inr hlegal, rfl, rfl⟩ (by simp [cmdRegs]) id id id _ _ _

theorem csrWr_answersFirstCause (n : BitVec 8) (imm : BitVec 32) : AnswersFirstCause (.csrWr n imm) s := by
  refine answersFirstCause_of_system rfl ?_
  have illegal (hn : csrWritable n = false) : (CmdResult.error .illegalCommand).FirstCause (.csrWr n imm) s :=
    (noCauseBefore_one _ s).error ⟨nofun, hn⟩
  split
  · next hc =>
    refine illegal (Bool.eq_false_iff.2 fun hw => ?_)
    simpa [csrDefined_eq_isSome, hc] using csrDefined_of_writable hw
  · next c hc =>
    obtain rfl := (Csr.ofNum_eq_some_iff n c).1 hc
    have hiff := s.writeCsr_eq_none_iff c imm
    split
    · next hs => exact illegal (hiff.1 hs)
    · next s' hs =>
      have hlegal : (Instr.csrWr c.num imm).wf = true := by simpa [hs, Instr.wf] using hiff
      exact RegisterRows.firstCause_respond ⟨.inr hlegal, rfl, rfl⟩ (by simp [cmdRegs]) id id id s' 0 []

/-! ### `BN_MOD` and the engine commands of several checks (R129, R158, R159) -/

theorem bnMod_answersFirstCause (rd ra rb : BnIdx) : AnswersFirstCause (.bnMod rd ra rb) s := by
  have rows : RegisterRows (.bnMod rd ra rb) := ⟨.inr rfl, rfl, rfl⟩
  refine answersFirstCause_of_counted rfl (withDAB_cases (fun hnone => rows.firstCause_contextMismatch
    (by simpa [cmdRegs] using hnone)) fun d a b hd ha hb => ?_)
  refine (rows.noCauseBefore_badArgument (by simp [cmdRegs, hd, ha, hb])).check .badArgument
    (by simp [HasCause, badArgumentCause, hb]) fun hbad => ?_
  refine hbad.check .outOfRange (by simp [HasCause, outOfRangeCause, hb]) fun hrange => ?_
  exact hrange.check .sizeError (by simp [HasCause, sizeErrorCause, roomBelow, hb, hd]) fun hsize => hsize.respond _ _ _

theorem meInit_answersFirstCause (ed : EngIdx) (ra : BnIdx) : AnswersFirstCause (.meInit ed ra) s := by
  have hctx : NoCauseBefore (.meInit ed ra) s (Status.rank .contextMismatch) :=
    (noCauseBefore_one _ s).next .illegalCommand fun h => nomatch h.2
  have hctx_iff : HasCause (.meInit ed ra) s .contextMismatch ↔ s.bnAt ra = .none ∨ s.meAt ed = .none := by
    simp [HasCause, cmdRegs, cmdEngines]
  have constructed {a : BigNum} {c : EngineCfg} (ha : s.bnAt ra = .valid a)
      (hc : s.meAt ed = .created c ∨ ∃ m, s.meAt ed = .ready c m) :
      (meInitOn s ed c a).FirstCause (.meInit ed ra) s := by
    have hinc := hctx.next .contextMismatch (by obtain hc | ⟨m, hc⟩ := hc <;> simp [hctx_iff, ha, hc])
    refine (hinc.next .incompleteContext (by simp [HasCause, cmdReadyEngines])).check .badArgument
      (by simp [HasCause, badArgumentCause, ha, or_comm]) fun hbad => ?_
    refine hbad.check .outOfRange ?_ fun hrange => (hrange.next .sizeError id).respond _ _ _
    obtain hc | ⟨m, hc⟩ := hc <;> simp [HasCause, outOfRangeCause, ha, hc]
  refine answersFirstCause_of_counted rfl (withA_cases (fun hnone => hctx.error (hctx_iff.2 (.inl hnone)))
    fun a ha => ?_)
  split
  · next hnone => exact hctx.error (hctx_iff.2 (.inr hnone))
  · next c hc => exact constructed ha (.inl hc)
  · next c m hc => exact constructed ha (.inr ⟨m, hc⟩)

theorem meGet_answersFirstCause (ed : EngIdx) (sel : BitVec 4) : AnswersFirstCause (.meGet ed sel) s := by
  refine answersFirstCause_of_counted rfl ((noCauseBefore_one _ s).check .illegalCommand
    (by simp [HasCause, Instr.op, Instr.wf]) fun hctx => ?_)
  have hctx_iff : HasCause (.meGet ed sel) s .contextMismatch ↔ s.meAt ed = .none := by
    simp [HasCause, cmdRegs, cmdEngines]
  have hinc_iff : HasCause (.meGet ed sel) s .incompleteContext ↔ sel ≠ 0 ∧ ∃ c, s.meAt ed = .created c := by
    by_cases hsel : sel = 0 <;> simp [HasCause, cmdReadyEngines, hsel]
  have responds (hne : s.meAt ed ≠ .none) (hready : ¬HasCause (.meGet ed sel) s .incompleteContext) (v : BitVec 64)
      (p : Limbs) : (CmdResult.respond s v p).FirstCause (.meGet ed sel) s := by
    have hbad := (hctx.next .contextMismatch (mt hctx_iff.1 hne)).next .incompleteContext hready
    exact (((hbad.next .badArgument id).next .outOfRange id).next .sizeError id).respond s v p
  split
  · next hnone => exact hctx.error (hctx_iff.2 hnone)
  · next c hc =>
    split
    · next hsel =>
      have hzero : sel = 0 := BitVec.eq_of_toNat_eq hsel
      exact responds (by simp [hc]) (mt hinc_iff.1 fun h => h.1 hzero) _ _
    · next hsel =>
      have hne : sel ≠ 0 := fun h => hsel (h ▸ rfl)
      exact (hctx.next .contextMismatch (by simp [hctx_iff, hc])).error (hinc_iff.2 ⟨hne, c, hc⟩)
  · next c m hc => exact responds (by simp [hc]) (by simp [hinc_iff, hc]) _ _

/-! ### The three methods (R180) -/

theorem expBin_answersFirstCause (rd ra rb : BnIdx) (ed : EngIdx) : AnswersFirstCause (.expBin rd ra rb ed) s := by
  have rows : ExpRows (.expBin rd ra rb ed) s rd ra rb ed (fun b => b.sec) (fun _ _ => false) :=
    ⟨rfl, rfl, rfl, rfl, fun b hb => by simp [badArgumentCause, hb], rfl, fun _ _ _ _ _ => by simp [sizeErrorCause]⟩
  exact answersFirstCause_of_counted rfl (rows.firstCause_withExp fun a b m => expInto_responds s rd ed a b m _)

theorem expCt_answersFirstCause (rd ra rb : BnIdx) (ed : EngIdx) : AnswersFirstCause (.expCt rd ra rb ed) s := by
  have rows : ExpRows (.expCt rd ra rb ed) s rd ra rb ed (fun _ => false) (fun _ _ => false) :=
    ⟨rfl, rfl, rfl, rfl, fun _ _ => by simp [badArgumentCause], rfl, fun _ _ _ _ _ => by simp [sizeErrorCause]⟩
  exact answersFirstCause_of_counted rfl (rows.firstCause_withExp fun a b m => expInto_responds s rd ed a b m _)

theorem expWin_answersFirstCause (rd ra rb : BnIdx) (ed : EngIdx) (sbase slen : BitVec 16) :
    AnswersFirstCause (.expWin rd ra rb ed sbase slen) s := by
  have rows : ExpRows (.expWin rd ra rb ed sbase slen) s rd ra rb ed (fun _ => false)
      (badWindow s.cfg sbase.toNat slen.toNat) :=
    ⟨rfl, rfl, rfl, rfl, fun _ _ => by simp [badArgumentCause], rfl,
      fun b e m hb he => by simp [sizeErrorCause, badWindow_eq_true_iff, expWinNeed, hb, he]⟩
  exact answersFirstCause_of_counted rfl (rows.firstCause_withExp fun a b m => expInto_responds s rd ed a b m _)

end Commands

/-! ### Every command (R245) -/

/-- Settles O51: the checks of every command stand in the order of R245. -/
theorem statusIsTheFirstCauseThatApplies : Obligations.StatusIsTheFirstCauseThatApplies := by
  intro i s
  change AnswersFirstCause i s
  cases i with
  | nop =>
    exact answersFirstCause_of_system rfl (RegisterRows.firstCause_respond ⟨.inr rfl, rfl, rfl⟩ (by simp [cmdRegs])
      id id id _ _ _)
  | csrRd n => exact csrRd_answersFirstCause s n
  | csrWr n imm => exact csrWr_answersFirstCause s n imm
  | scrNeed sel modbits expbits =>
    exact answersFirstCause_of_system rfl (RegisterRows.firstCause_argumentCheck ⟨.inr rfl, rfl, rfl⟩ rfl id id
      (by simp only [badArgumentCause]))
  | bnCreate rd room | meCreate ed maxbits =>
    exact answersFirstCause_of_counted rfl (RegisterRows.firstCause_argumentCheck ⟨.inr rfl, rfl, rfl⟩ rfl id id
      (by simp only [badArgumentCause]))
  | bnSet rd neg sec payload =>
    have rows : RegisterRows (.bnSet rd neg sec payload) := ⟨.inl rfl, rfl, rfl⟩
    refine answersFirstCause_of_counted rfl (withA_cases (fun hnone => rows.firstCause_contextMismatch
      (by simpa [cmdRegs] using hnone)) fun d hd => ?_)
    exact rows.firstCause_sizeCheck (by simp [cmdRegs, hd]) id id (by simp [sizeErrorCause, roomBelow, hd])
  | bnGet ra =>
    have rows : RegisterRows (.bnGet ra) := ⟨.inr rfl, rfl, rfl⟩
    refine answersFirstCause_of_counted rfl (withA_cases (fun hnone => rows.firstCause_contextMismatch
      (by simpa [cmdRegs] using hnone)) fun a ha => ?_)
    exact rows.firstCause_respond (by simp [cmdRegs, ha]) id id id _ _ _
  | bnCopy rd ra =>
    have rows : RegisterRows (.bnCopy rd ra) := ⟨.inr rfl, rfl, rfl⟩
    refine answersFirstCause_of_counted rfl (withDA_cases (fun hnone => rows.firstCause_contextMismatch
      (by simpa [cmdRegs] using hnone)) fun d a hd ha => ?_)
    exact rows.firstCause_sizeCheck (by simp [cmdRegs, hd, ha]) id id (by simp [sizeErrorCause, roomBelow, hd, ha])
  | bnCmp ra rb =>
    have rows : RegisterRows (.bnCmp ra rb) := ⟨.inr rfl, rfl, rfl⟩
    refine answersFirstCause_of_counted rfl (withDA_cases (fun hnone => rows.firstCause_contextMismatch
      (by simpa [cmdRegs] using hnone)) fun a b ha hb => ?_)
    exact rows.firstCause_respond (by simp [cmdRegs, ha, hb]) id id id _ _ _
  | bnAdd rd ra rb | bnSub rd ra rb | bnMul rd ra rb =>
    refine answersFirstCause_of_counted rfl (withDAB_cases (fun hnone => RegisterRows.firstCause_contextMismatch
      ⟨.inr rfl, rfl, rfl⟩ (by simpa [cmdRegs] using hnone)) fun d a b hd ha hb => ?_)
    exact RegisterRows.firstCause_sizeCheck ⟨.inr rfl, rfl, rfl⟩ (by simp [cmdRegs, hd, ha, hb]) id id
      (by simp [sizeErrorCause, roomBelow, hd, ha, hb])
  | bnMod rd ra rb => exact bnMod_answersFirstCause s rd ra rb
  | meInit ed ra => exact meInit_answersFirstCause s ed ra
  | meGet ed sel => exact meGet_answersFirstCause s ed sel
  | meEnc rd ra ed | meDec rd ra ed | meSqr rd ra ed | meRed rd ra ed =>
    exact answersFirstCause_of_counted rfl (MontRows.firstCause_withMont
      ⟨rfl, rfl, rfl, rfl, fun _ => rfl, fun _ => rfl⟩ rfl fun _ _ => ⟨_, _, _, rfl⟩)
  | meMul rd ra rb ed =>
    exact answersFirstCause_of_counted rfl (MontRows.firstCause_withMont2
      ⟨rfl, rfl, rfl, rfl, fun _ => rfl, fun _ => rfl⟩ rfl fun _ _ _ => ⟨_, _, _, rfl⟩)
  | expBin rd ra rb ed => exact expBin_answersFirstCause s rd ra rb ed
  | expCt rd ra rb ed => exact expCt_answersFirstCause s rd ra rb ed
  | expWin rd ra rb ed sbase slen => exact expWin_answersFirstCause s rd ra rb ed sbase slen
  | crtRecomb rd ra rb rc ed ee =>
    exact answersFirstCause_of_counted rfl (firstCause_withCrt fun _ _ _ _ _ => ⟨_, _, _, rfl⟩)

end Sys2Proof.Machine

/-! Proof of the statement of 70_reset_and_hazards.md: commands sent ahead run in order, each to completion, as if each
had waited for the response before it (R78, R280). -/

namespace Sys2Proof.Machine

open Sys2Proof.Claims

/-! ### One after another -/

theorem runCommands_cons {i : Instr} {s t : State} (ht : exec i s = .next t) (is : List Instr) :
    runCommands (i :: is) s = runCommands is t := by
  simp only [runCommands, ht]

theorem coreRun_succ {s t : State} (ht : step s = .next t) (n : Nat) :
    Host.Core.run core (n + 1) s = Host.Core.run core n t := by
  have hstep : core.step s = .next t := ht
  simp only [Host.Core.run, hstep]

/-- Commands run one after another answer once each, in order, and leave the unread beats (R78, R280). -/
theorem runCommands_answers (is : List Instr) (s : State) : ∃ t rs, runCommands is s = .next t ∧
    t.cmdStream = s.cmdStream ∧ t.respStream = s.respStream ++ rs ∧ rs.map (·.op) = is.map (·.op.code) := by
  induction is generalizing s with
  | nil => exact ⟨s, [], rfl, rfl, (List.append_nil _).symm, rfl⟩
  | cons i is ih =>
    obtain ⟨t, r, ht, ha⟩ := exec_answersWith i s
    obtain ⟨u, rs, hu, hq, hresp, hops⟩ := ih t
    refine ⟨u, r :: rs, (runCommands_cons ht is).trans hu, hq.trans (exec_cmdStream ht), ?_, ?_⟩
    · rw [hresp, ha.responds, List.append_assoc, List.singleton_append]
    · rw [List.map_cons, List.map_cons, ha.op, hops]

/-! ### Sent ahead -/

/-- A step on the encoding of a command ends as the command does with any other beats unread (R280). -/
theorem step_sentAhead {i : Instr} {s : State} {more : List Beat} (hi : i.encodable = true)
    (hs : s.cmdStream = encode i ++ more) (rest : List Beat) : ∃ t, step s = .next t ∧ t.cmdStream = more ∧
      exec i { s with cmdStream := rest } = .next { t with cmdStream := rest } := by
  obtain ⟨t, ht, -⟩ := exec_ends i { s with cmdStream := more }
  exact ⟨t, (stepRunsTheDecodedCommand i s more hi hs).trans ht, exec_cmdStream ht, exec_otherStream ht rest⟩

/-- As many steps as there are commands sent ahead end where running them one after another ends: each step takes the
first command off, and that command does not see those behind it. -/
theorem coreRun_sentAhead {is : List Instr} {s : State} {rest : List Beat} (his : ∀ i ∈ is, i.encodable = true)
    (hs : s.cmdStream = is.flatMap encode ++ rest) :
    Host.Core.run core is.length s = runCommands is { s with cmdStream := rest } := by
  induction is generalizing s with
  | nil =>
    obtain rfl : s.cmdStream = rest := hs
    rfl
  | cons i is ih =>
    obtain ⟨hi, his⟩ := List.forall_mem_cons.1 his
    rw [List.flatMap_cons, List.append_assoc] at hs
    obtain ⟨t, ht, hq, hexec⟩ := step_sentAhead hi hs rest
    have hrest : Host.Core.run core is.length t = runCommands is { t with cmdStream := rest } := ih his hq
    exact (coreRun_succ ht is.length).trans (hrest.trans (runCommands_cons hexec is).symm)

/-- Settles O54: the steps run the commands one after another, and those answer once each in order. -/
theorem commandsRunInOrder : Obligations.CommandsRunInOrder := by
  intro is s rest his hs
  have hrun := coreRun_sentAhead his hs
  obtain ⟨t, rs, ht, hq, hresp, hops⟩ := runCommands_answers is { s with cmdStream := rest }
  exact ⟨hrun, t, rs, hrun.trans ht, hq, hresp, hops⟩

end Sys2Proof.Machine
